-- ==== Sys2Proof/Word.lean ====
section
/-! DEFINITION. The word types of the RLE codec core (spec/00_scope.md R6, R8). -/

namespace Sys2Proof

/-- "A byte is 8 bits" (00_scope.md R6). -/
abbrev Byte := BitVec 8

/-- "Programmer-visible registers are 32 bits wide" (00_scope.md R8). -/
abbrev Word := BitVec 32

/-- Lengths, positions and internal index counters are 64-bit unsigned values (00_scope.md R8). -/
abbrev Word64 := BitVec 64

end Sys2Proof
end

