-- ==== Sys2Proof/Syntax.lean ====
section
/-! DEFINITION. The instructions of the block, one constructor per row of spec/opcode_table.json, and the
host lines that carry the host's operations (spec/30_encoding.md R54 to R68). -/

namespace Sys2Proof

/-- The two engines (10_state.md R13). -/
inductive Engine where
  | enc
  | dec
  deriving DecidableEq, Repr

/-- The four byte buffers, "four distinct spaces" (20_memory.md R37; 30_encoding.md R63). -/
inductive Buffer where
  | encSrc
  | encDst
  | decSrc
  | decDst
  deriving DecidableEq, Repr

/-- The engine a buffer belongs to (20_memory.md R37). -/
def Buffer.engine : Buffer → Engine
  | .encSrc => .enc
  | .encDst => .enc
  | .decSrc => .dec
  | .decDst => .dec

/-- The sixteen 32-bit registers of one engine's half of the window (10_state.md R17). -/
inductive Reg where
  | ctrl
  | status
  | irqEn
  | reserved0C
  | srcLenLo
  | srcLenHi
  | outLenLo
  | outLenHi
  | errPosLo
  | errPosHi
  | srcCapLo
  | srcCapHi
  | dstCapLo
  | dstCapHi
  | hdrLen
  | reserved3C
  deriving DecidableEq, Repr

/-- The registers a write to which has no effect (40_control.md R76; the row RO.WR of the opcode table). -/
def Reg.readOnly : Reg → Bool
  | .ctrl => false
  | .status => true
  | .irqEn => false
  | .reserved0C => true
  | .srcLenLo => false
  | .srcLenHi => false
  | .outLenLo => true
  | .outLenHi => true
  | .errPosLo => true
  | .errPosHi => true
  | .srcCapLo => true
  | .srcCapHi => true
  | .dstCapLo => true
  | .dstCapHi => true
  | .hdrLen => true
  | .reserved3C => true

/-- The half of a 64-bit register pair (10_state.md R22; bit off[2] of the row SRC_LEN.WR). -/
inductive Half where
  | lo
  | hi
  deriving DecidableEq, Repr

/-- The instructions: one constructor per row of spec/opcode_table.json. The stream units HDR, LIT and ESC are
the instructions DEC interprets; the others are the host's operations. -/
inductive Instr where
  /-- HDR: the header with its `original_length` (R55, R100). -/
  | hdr (originalLength : Word)
  /-- LIT: a literal byte (R56, R103). -/
  | lit (v : Byte)
  /-- ESC: `count` copies of `v` (R57, R104). -/
  | esc (v count : Byte)
  /-- RD32: read register `r` of engine `e` (R69). -/
  | rd32 (e : Engine) (r : Reg)
  /-- WR32: write register `r` of engine `e`, the general row (R70). -/
  | wr32 (e : Engine) (r : Reg) (data : Word)
  /-- ENC.START (R71). -/
  | encStart (data : Word)
  /-- DEC.START (R71). -/
  | decStart (data : Word)
  /-- ENC.CLR (R72). -/
  | encClr (data : Word)
  /-- DEC.CLR (R72). -/
  | decClr (data : Word)
  /-- ENC.NOP (R73). -/
  | encNop (data : Word)
  /-- DEC.NOP (R73). -/
  | decNop (data : Word)
  /-- IRQ_EN.WR (R74). -/
  | irqEnWr (e : Engine) (data : Word)
  /-- SRC_LEN.WR (R75). -/
  | srcLenWr (e : Engine) (h : Half) (data : Word)
  /-- RO.WR (R76). -/
  | roWr (e : Engine) (r : Reg) (data : Word)
  /-- RDB: read one buffer byte (R77). -/
  | rdb (b : Buffer) (idx : Word64)
  /-- WRB: write one buffer byte (R78). -/
  | wrb (b : Buffer) (idx : Word64) (data : Byte)
  deriving DecidableEq, Repr

/-- One bus access as the host makes it, in the four formats of 30_encoding.md R63. A register access also
carries its width in bits, so that the accesses which 20_memory.md R43 forbids can be made and refused. `off` is
the offset in the 0x80-byte window (10_state.md R16). -/
inductive BusAccess where
  | regRead (width : Nat) (off : BitVec 7)
  | regWrite (width : Nat) (off : BitVec 7) (data : Word)
  | bufRead (b : Buffer) (idx : Word64)
  | bufWrite (b : Buffer) (idx : Word64) (data : Byte)
  deriving DecidableEq, Repr

/-- Where in an encoded stream a unit stands: the header is "always the first 4 bytes of a stream"; every other
unit belongs to the body (30_encoding.md R54, R59). -/
inductive StreamPos where
  | header
  | body
  deriving DecidableEq, Repr

/-- The encoded form of an instruction: bytes of an encoded stream, or one bus access (30_encoding.md). -/
inductive Encoded where
  | stream (pos : StreamPos) (bytes : List Byte)
  | bus (a : BusAccess)
  deriving DecidableEq, Repr

/-- A name a host program binds a read value to, such as `s` or `h_0`; the spec's names are numbered here
(30_encoding.md R68; notes/assumptions/21.md). -/
abbrev Name := Nat

/-- The name `t` that the loop of POLL binds (30_encoding.md R68). -/
def pollName : Name := 0

/-- An operand of a host line: a literal, a name an earlier line bound, or the bits above 31 of an operand, which is
`N[63:32]` of SETLEN (30_encoding.md R68). -/
inductive Operand where
  | imm (n : Nat)
  | name (x : Name)
  | high (o : Operand)
  deriving DecidableEq, Repr

/-- A host operation as a line writes it: the reads with the name they bind, the writes and indices with operands
(30_encoding.md R68). -/
inductive NamedOp where
  | rd32 (e : Engine) (r : Reg) (x : Name)
  | wr32 (e : Engine) (r : Reg) (imm : Operand)
  | rdb (b : Buffer) (k : Operand) (x : Name)
  | wrb (b : Buffer) (k imm : Operand)
  deriving DecidableEq, Repr

/-- One line of a host program: a bus access as it stands, the forbidden ones included; an operation with names; a POLL
loop; an EXPECT, as the equations it checks (30_encoding.md R68; notes/assumptions/18.md); or an assertion of the reset
input (70_reset_and_hazards.md R136, R148). -/
inductive HostLine where
  | access (a : BusAccess)
  | named (op : NamedOp)
  | poll (e : Engine) (r : Reg) (mask value : Operand)
  | expect (equations : List (Operand × Operand))
  | reset
  deriving DecidableEq, Repr

/-- The agents of the model (10_state.md R13). -/
inductive Agent where
  | host
  | enc
  | dec
  deriving DecidableEq, Repr

end Sys2Proof
end

