-- ==== Sys2Proof/Config.lean ====
section
/-! DEFINITION. What an instance fixes and what the spec leaves free (spec/00_scope.md R7; spec/20_memory.md R39). -/

namespace Sys2Proof.Config

/-- FREE VALUE: what a buffer byte that no agent has written since reset number `epoch` holds. "A model draws that
value freely, under no law, at the first read, and every claim must hold for every draw"; a draw is "fixed once
drawn" (20_memory.md R39; 93_implementation_defined.md I1), so it is a function of the byte and of the reset. No body: nothing can be
proved of its values. notes/assumptions/2.md, 3.md. -/
opaque freeByte : (epoch : Nat) → (b : Buffer) → (idx : Nat) → Byte

/-- ENC_SRC_CAP of the instance that State.reset describes. The spec leaves it open (00_scope.md R7) and takes
2^20 for its vectors (95_test_vectors.md). Every rule of the model reads the capacity from State, never from here.
DESIGN CHOICE, notes/assumptions/1.md. -/
def encSrcCap : Word64 := 0x100000#64

/-- ENC_DST_CAP of the instance that State.reset describes. DESIGN CHOICE, notes/assumptions/1.md. -/
def encDstCap : Word64 := 0x100000#64

/-- DEC_SRC_CAP of the instance that State.reset describes. DESIGN CHOICE, notes/assumptions/1.md. -/
def decSrcCap : Word64 := 0x100000#64

/-- DEC_DST_CAP of the instance that State.reset describes. DESIGN CHOICE, notes/assumptions/1.md. -/
def decDstCap : Word64 := 0x100000#64

end Sys2Proof.Config
end

