-- ==== Sys2Proof/WellFormed.lean ====
section
/-! DEFINITION. The checks on an instruction's fields: the match and mask columns of spec/opcode_table.json. -/

namespace Sys2Proof

/-- START: data matches 0x1 under mask 0x1 (30_encoding.md R64). -/
def startData (data : Word) : Bool := data.getLsbD 0

/-- CLR: data matches 0x2 under mask 0x3 (30_encoding.md R64). -/
def clrData (data : Word) : Bool := !data.getLsbD 0 && data.getLsbD 1

/-- NOP: data matches 0x0 under mask 0x3 (30_encoding.md R64). -/
def nopData (data : Word) : Bool := !data.getLsbD 0 && !data.getLsbD 1

/-- An instruction's fields are ones its row admits. Offsets are registers here, so their alignment holds by
construction; an index at or above a capacity is no question of the encoding (40_control.md R77, R78). -/
def Instr.wellFormed : Instr → Bool
  | .hdr _ => true
  | .lit _ => true
  | .esc _ _ => true
  | .rd32 _ _ => true
  | .wr32 _ _ _ => true
  | .encStart data => startData data
  | .decStart data => startData data
  | .encClr data => clrData data
  | .decClr data => clrData data
  | .encNop data => nopData data
  | .decNop data => nopData data
  | .irqEnWr _ _ => true
  | .srcLenWr _ _ _ => true
  | .roWr _ r _ => r.readOnly
  | .rdb _ _ => true
  | .wrb _ _ _ => true

end Sys2Proof
end

