-- ==== Sys2Proof/Decode.lean ====
section
/-! DEFINITION. The decoder, total on any stream bytes and on any bus access, and after it the encoder
(spec/30_encoding.md R54 to R65; spec/10_state.md R17). -/

namespace Sys2Proof

/-- Why a decoder refuses, by name. -/
inductive DecodeError where
  /-- A register access that is not 32 bits wide (20_memory.md R43). -/
  | accessWidth (width : Nat)
  /-- A register access whose offset is not a multiple of 4 (20_memory.md R43). -/
  | misaligned (off : BitVec 7)
  /-- Fewer than 4 bytes where a header must stand (30_encoding.md R60). -/
  | shortHeader
  /-- No byte where a unit must stand. -/
  | noUnit
  /-- Bytes after the unit in a word that is to hold one unit. -/
  | trailingBytes
  deriving DecidableEq, Repr

/-! ### Byte order of the header -/

/-- The four bytes of a 32-bit value, least significant first: `LE32` (20_memory.md R41; 41_encoder.md R92). -/
def leBytes (n : Word) : List Byte :=
  [n.extractLsb' 0 8, n.extractLsb' 8 8, n.extractLsb' 16 8, n.extractLsb' 24 8]

/-- `b0 + 2^8*b1 + 2^16*b2 + 2^24*b3` (30_encoding.md R58). -/
def ofLeBytes (b0 b1 b2 b3 : Byte) : Word :=
  BitVec.ofNat 32 (b0.toNat + 2 ^ 8 * b1.toNat + 2 ^ 16 * b2.toNat + 2 ^ 24 * b3.toNat)

/-! ### Stream units -/

/-- The header at the front of a stream, and what follows it (30_encoding.md R55, R58). -/
def decodeHeader : List Byte → Except DecodeError (Instr × List Byte)
  | b0 :: b1 :: b2 :: b3 :: rest => .ok (.hdr (ofLeBytes b0 b1 b2 b3), rest)
  | _ => .error .shortHeader

/-- The unit at the front of the rest of a body, and what follows it. The list is `SRC[i .. L-1]`, so a third
byte stands there exactly when `i + 2 < L` (30_encoding.md R59). -/
def decodeUnit : List Byte → Except DecodeError (Instr × List Byte)
  | c :: d :: k :: rest => if d = c then .ok (.esc c k, rest) else .ok (.lit c, d :: k :: rest)
  | c :: rest => .ok (.lit c, rest)
  | [] => .error .noUnit

/-- The unit at the front of stream bytes that begin at `pos`. -/
def decodeStream : StreamPos → List Byte → Except DecodeError (Instr × List Byte)
  | .header, bs => decodeHeader bs
  | .body, bs => decodeUnit bs

/-! ### Bus accesses -/

/-- The register at an offset inside one engine's half; none where the offset is not a multiple of 4
(10_state.md R17; 20_memory.md R43). -/
def Reg.ofOffset (off : BitVec 6) : Option Reg :=
  match off.toNat with
  | 0x00 => some .ctrl
  | 0x04 => some .status
  | 0x08 => some .irqEn
  | 0x0C => some .reserved0C
  | 0x10 => some .srcLenLo
  | 0x14 => some .srcLenHi
  | 0x18 => some .outLenLo
  | 0x1C => some .outLenHi
  | 0x20 => some .errPosLo
  | 0x24 => some .errPosHi
  | 0x28 => some .srcCapLo
  | 0x2C => some .srcCapHi
  | 0x30 => some .dstCapLo
  | 0x34 => some .dstCapHi
  | 0x38 => some .hdrLen
  | 0x3C => some .reserved3C
  | _ => none

/-- "`off[6]` selects the engine: 0 for ENC, 1 for DEC" (30_encoding.md R63). -/
def engineOfOffset (off : BitVec 7) : Engine := if off.getLsbD 6 then .dec else .enc

/-- The command a CTRL write gives, by `data[1:0]` (30_encoding.md R64). -/
def decodeCommand (e : Engine) (data : Word) : Instr :=
  match data.getLsbD 0, data.getLsbD 1, e with
  | true, _, .enc => .encStart data
  | true, _, .dec => .decStart data
  | false, true, .enc => .encClr data
  | false, true, .dec => .decClr data
  | false, false, .enc => .encNop data
  | false, false, .dec => .decNop data

/-- The most specific row of the opcode table that a 32-bit register write matches. The rows below WR32 leave no
register write over, so this is never WR32 itself; 40_control.md R70 gives WR32 the same cases.
notes/assumptions/8.md. -/
def decodeWrite (e : Engine) (r : Reg) (data : Word) : Instr :=
  match r with
  | .ctrl => decodeCommand e data
  | .irqEn => .irqEnWr e data
  | .srcLenLo => .srcLenWr e .lo data
  | .srcLenHi => .srcLenWr e .hi data
  | .status => .roWr e .status data
  | .reserved0C => .roWr e .reserved0C data
  | .outLenLo => .roWr e .outLenLo data
  | .outLenHi => .roWr e .outLenHi data
  | .errPosLo => .roWr e .errPosLo data
  | .errPosHi => .roWr e .errPosHi data
  | .srcCapLo => .roWr e .srcCapLo data
  | .srcCapHi => .roWr e .srcCapHi data
  | .dstCapLo => .roWr e .dstCapLo data
  | .dstCapHi => .roWr e .dstCapHi data
  | .hdrLen => .roWr e .hdrLen data
  | .reserved3C => .roWr e .reserved3C data

/-- The register a register access names, or why it is refused (20_memory.md R43). -/
def decodeRegister (width : Nat) (off : BitVec 7) : Except DecodeError Reg :=
  if width = 32 then
    match Reg.ofOffset (off.extractLsb' 0 6) with
    | some r => .ok r
    | none => .error (.misaligned off)
  else .error (.accessWidth width)

/-- The host operation a bus access is (30_encoding.md R63 to R65). -/
def decodeBus : BusAccess → Except DecodeError Instr
  | .regRead width off =>
    match decodeRegister width off with
    | .ok r => .ok (.rd32 (engineOfOffset off) r)
    | .error err => .error err
  | .regWrite width off data =>
    match decodeRegister width off with
    | .ok r => .ok (decodeWrite (engineOfOffset off) r data)
    | .error err => .error err
  | .bufRead b idx => .ok (.rdb b idx)
  | .bufWrite b idx data => .ok (.wrb b idx data)

/-- The one instruction an encoded form holds. -/
def decode : Encoded → Except DecodeError Instr
  | .stream pos bytes =>
    match decodeStream pos bytes with
    | .ok (i, []) => .ok i
    | .ok (_, _ :: _) => .error .trailingBytes
    | .error err => .error err
  | .bus a => decodeBus a

/-- The most specific row of the table for an instruction: WR32 becomes the row its register and data match,
every other row is its own (notes/assumptions/8.md). -/
def Instr.specific : Instr → Instr
  | .hdr n => .hdr n
  | .lit v => .lit v
  | .esc v k => .esc v k
  | .rd32 e r => .rd32 e r
  | .wr32 e r data => decodeWrite e r data
  | .encStart data => .encStart data
  | .decStart data => .decStart data
  | .encClr data => .encClr data
  | .decClr data => .decClr data
  | .encNop data => .encNop data
  | .decNop data => .decNop data
  | .irqEnWr e data => .irqEnWr e data
  | .srcLenWr e h data => .srcLenWr e h data
  | .roWr e r data => .roWr e r data
  | .rdb b idx => .rdb b idx
  | .wrb b idx data => .wrb b idx data

/-! ### The encoder -/

/-- The offset of a register in the window: ENC at 0x00, DEC at 0x40 (10_state.md R16, R17). -/
def Reg.offset (e : Engine) (r : Reg) : BitVec 7 :=
  let base : BitVec 7 :=
    match e with
    | .enc => 0x00#7
    | .dec => 0x40#7
  base + (match r with
    | .ctrl => 0x00#7
    | .status => 0x04#7
    | .irqEn => 0x08#7
    | .reserved0C => 0x0C#7
    | .srcLenLo => 0x10#7
    | .srcLenHi => 0x14#7
    | .outLenLo => 0x18#7
    | .outLenHi => 0x1C#7
    | .errPosLo => 0x20#7
    | .errPosHi => 0x24#7
    | .srcCapLo => 0x28#7
    | .srcCapHi => 0x2C#7
    | .dstCapLo => 0x30#7
    | .dstCapHi => 0x34#7
    | .hdrLen => 0x38#7
    | .reserved3C => 0x3C#7)

/-- The register that holds one half of SRC_LEN (10_state.md R22). -/
def srcLenReg : Half → Reg
  | .lo => .srcLenLo
  | .hi => .srcLenHi

/-- The encoded form of an instruction (30_encoding.md R55 to R57, R63, R64). -/
def encode : Instr → Encoded
  | .hdr n => .stream .header (leBytes n)
  | .lit v => .stream .body [v]
  | .esc v k => .stream .body [v, v, k]
  | .rd32 e r => .bus (.regRead 32 (Reg.offset e r))
  | .wr32 e r data => .bus (.regWrite 32 (Reg.offset e r) data)
  | .encStart data => .bus (.regWrite 32 (Reg.offset .enc .ctrl) data)
  | .decStart data => .bus (.regWrite 32 (Reg.offset .dec .ctrl) data)
  | .encClr data => .bus (.regWrite 32 (Reg.offset .enc .ctrl) data)
  | .decClr data => .bus (.regWrite 32 (Reg.offset .dec .ctrl) data)
  | .encNop data => .bus (.regWrite 32 (Reg.offset .enc .ctrl) data)
  | .decNop data => .bus (.regWrite 32 (Reg.offset .dec .ctrl) data)
  | .irqEnWr e data => .bus (.regWrite 32 (Reg.offset e .irqEn) data)
  | .srcLenWr e h data => .bus (.regWrite 32 (Reg.offset e (srcLenReg h)) data)
  | .roWr e r data => .bus (.regWrite 32 (Reg.offset e r) data)
  | .rdb b idx => .bus (.bufRead b idx)
  | .wrb b idx data => .bus (.bufWrite b idx data)

/-! ### Bus accesses as bytes

The spec packs no host operation into a word (30_encoding.md R63). The layout here is the model's own and serves only
`decodeTableWord` and `withFetchWord`: one byte with the format's number in the order of R63's table, then the
format's fields in R63's order, each in whole bytes, least significant byte first. DESIGN CHOICE,
notes/assumptions/7.md. -/

/-- A number from its little-endian bytes. -/
def natOfLe : List Byte → Nat
  | [] => 0
  | b :: rest => b.toNat + 256 * natOfLe rest

/-- The `count` low bytes of a number, least significant first. -/
def leOfNat : (count : Nat) → (n : Nat) → List Byte
  | 0, _ => []
  | count + 1, n => BitVec.ofNat 8 n :: leOfNat count (n / 256)

/-- The buffer a selector byte names, in R63's order. -/
def bufferOfByte (x : Byte) : Option Buffer :=
  match x.toNat with
  | 0 => some .encSrc
  | 1 => some .encDst
  | 2 => some .decSrc
  | 3 => some .decDst
  | _ => none

/-- The bus access that packed bytes hold; none for a format or buffer number that does not exist, for an
offset byte above the window, and for too few bytes. Bytes after the fields are ignored. -/
def accessOfBytes : List Byte → Option BusAccess
  | fmt :: x :: rest =>
    match fmt.toNat with
    | 0 => if x.toNat < 128 then some (.regRead 32 (BitVec.ofNat 7 x.toNat)) else none
    | 1 =>
      if x.toNat < 128 ∧ 4 ≤ rest.length then
        some (.regWrite 32 (BitVec.ofNat 7 x.toNat) (BitVec.ofNat 32 (natOfLe (rest.take 4))))
      else none
    | 2 =>
      match bufferOfByte x with
      | some b => if 8 ≤ rest.length then some (.bufRead b (BitVec.ofNat 64 (natOfLe (rest.take 8)))) else none
      | none => none
    | 3 =>
      match bufferOfByte x, rest.drop 8 with
      | some b, data :: _ => some (.bufWrite b (BitVec.ofNat 64 (natOfLe (rest.take 8))) data)
      | _, _ => none
    | _ => none
  | _ => none

/-- What a table word of `nbits` bits stands for: 32 bits are the four bytes of a header, 8 and 24 bits are body
bytes of a stream, anything else is a packed bus access, 11 bytes at the longest (notes/assumptions/7.md). -/
inductive TableWord where
  | stream (pos : StreamPos) (bytes : List Byte)
  | access (a : Option BusAccess)
  deriving DecidableEq, Repr

/-- Lay a table word out as bytes, the first at the lowest address. -/
def tableWord (nbits w : Nat) : TableWord :=
  match nbits with
  | 32 => .stream .header (leOfNat 4 w)
  | 8 => .stream .body (leOfNat 1 w)
  | 24 => .stream .body (leOfNat 3 w)
  | _ => .access (accessOfBytes (leOfNat 11 w))

/-- The instruction the decoder reads from a table word; none where it refuses. -/
def decodeTableWord (nbits w : Nat) : Option Instr :=
  match tableWord nbits w with
  | .stream pos bytes =>
    match decodeStream pos bytes with
    | .ok (i, _) => some i
    | .error _ => none
  | .access (some a) =>
    match decodeBus a with
    | .ok i => some i
    | .error _ => none
  | .access none => none

end Sys2Proof
end

