-- ==== Sys2Proof/Machine/State.lean ====
section
/-! DEFINITION. The state of the block as plain data, the reasons a step stops, and the state after reset
(spec/10_state.md R13 to R36; spec/20_memory.md R37 to R39). -/

namespace Sys2Proof.Machine

/-- A byte buffer: the bytes written since reset, as (index, byte) pairs with strictly rising indices. An index
that is not listed has not been written and holds an unspecified byte (20_memory.md R39; notes/assumptions/2.md). -/
abbrev Memory := List Host.Cell

/-- ENC's phase (10_state.md R30). -/
inductive EncPhase where
  | idle
  | header
  | scan
  | tail
  deriving DecidableEq, Repr

/-- DEC's phase (10_state.md R30). -/
inductive DecPhase where
  | idle
  | header
  | body
  | check
  deriving DecidableEq, Repr

/-- STATUS.ERRCODE by name (60_exceptions.md R118). The reserved codes 5 to 15 are not representable
(93_implementation_defined.md I8; notes/assumptions/12.md). -/
inductive ErrCode where
  | none
  | inputTooLarge
  | malformedEncoding
  | allocationFailure
  | bufferBounds
  deriving DecidableEq, Repr

/-- STATUS.ERRDETAIL by name (60_exceptions.md R119); the reserved details are not representable. -/
inductive ErrDetail where
  | none
  | overflow
  | shortHeader
  | underfill
  deriving DecidableEq, Repr

/-- The stored programmer-visible registers of one engine (10_state.md R17 to R26). STATUS.BUSY and STATUS.IRQ
are computed, CTRL and the reserved offsets hold nothing, the capacities are instance parameters. A LO/HI pair is
one 64-bit value. -/
structure Regs where
  done   : Bool
  err    : Bool
  code   : ErrCode
  detail : ErrDetail
  doneIe : Bool
  errIe  : Bool
  srcLen : Word64
  outLen : Word64
  errPos : Word64
  hdrLen : Word
  deriving DecidableEq, Repr

/-- ENC's working registers (10_state.md R31). -/
structure EncJob where
  n        : Word64
  i        : Word64
  runStart : Word64
  runChar  : Byte
  outPos   : Word64
  deriving DecidableEq, Repr

/-- DEC's working registers (10_state.md R32); `len` is the spec's `L`. -/
structure DecJob where
  len  : Word64
  i    : Word64
  w    : Word64
  orig : Word
  deriving DecidableEq, Repr

/-- The encoder engine (10_state.md R13). -/
structure Enc where
  phase : EncPhase
  regs  : Regs
  job   : EncJob
  src   : Memory
  dst   : Memory
  deriving DecidableEq, Repr

/-- The decoder engine (10_state.md R13). -/
structure Dec where
  phase : DecPhase
  regs  : Regs
  job   : DecJob
  src   : Memory
  dst   : Memory
  deriving DecidableEq, Repr

/-- The buffer capacities, parameters of the hardware instance (00_scope.md R7). -/
structure Capacities where
  encSrc : Word64
  encDst : Word64
  decSrc : Word64
  decDst : Word64
  deriving DecidableEq, Repr

/-- A value a host read returned (40_control.md R69, R77). -/
inductive ReadValue where
  | word (v : Word)
  | byte (v : Byte)
  deriving DecidableEq, Repr

/-- What a host program's names are bound to, as (name, value) pairs with strictly rising names; a name that is not
listed is unbound (30_encoding.md R68; notes/assumptions/21.md). -/
abbrev Names := List (Name × ReadValue)

/-- The whole machine: the two engines, the instance's capacities, and the model's own fields: which reset the
unwritten bytes belong to, the host's remaining lines, the listed interleaving, the values the host's reads returned,
newest first, what its names are bound to, and what its EXPECT lines found, newest first
(notes/assumptions/1.md, 3.md to 6.md, 18.md, 21.md). -/
structure State where
  enc      : Enc
  dec      : Dec
  caps     : Capacities
  epoch    : Nat
  program  : List HostLine
  schedule : List Agent
  reads    : List ReadValue
  names    : Names
  checks   : List Bool
  deriving DecidableEq, Repr

/-- Why the model itself stops. None of these is a fault of the block, whose faults are next states
(60_exceptions.md R124); no state a run reaches raises one (41_encoder.md R86, R95; 42_decoder.md R114). All are safe. -/
inductive Fault where
  /-- An engine would read its SRC at or above the capacity; raised by every engine read. Safe (20_memory.md R40). -/
  | readBeyondCapacity (b : Buffer) (idx : Nat)
  /-- An engine would write its DST at or above the capacity; raised by every engine write. Safe (20_memory.md R40). -/
  | writeBeyondCapacity (b : Buffer) (idx : Nat)
  /-- ENC would subtract a larger from a smaller number; raised by SCAN and TAIL. Safe (00_scope.md R9; 41_encoder.md R86). -/
  | negativeLength
  /-- The stream decoder rejected the bytes DEC fetched; raised by DEC's fetch. Safe (30_encoding.md R60: no
  stream of 4 or more bytes fails to parse). -/
  | undecodable (err : DecodeError)
  deriving DecidableEq, Repr

/-- Why a step has no meaning. -/
inductive Refusal where
  /-- An instruction that has no meaning yet; raised by exec's refused arms. Safe. -/
  | notModelled (mnemonic : String)
  /-- A bus error on a register access of a wrong width or alignment; raised by the host's move. "A model treats
  each as refused" (60_exceptions.md R135). Safe. -/
  | busError (err : DecodeError)
  /-- A bus error on a buffer index at or above the capacity; raised by RDB and WRB (60_exceptions.md R135). Safe. -/
  | indexBeyondCapacity (b : Buffer) (idx : Word64)
  /-- A line of the host that uses a name no earlier line has bound, which is no host program of 30_encoding.md R68;
  raised by the host's move. Safe (notes/assumptions/21.md). -/
  | unboundName
  /-- A WRB to a buffer of a busy engine; raised by WRB. "The model has no such move"
  (70_reset_and_hazards.md R140; 93_implementation_defined.md I11). Safe for a host that keeps the duty. -/
  | bufferOfBusyEngine (b : Buffer)
  deriving DecidableEq, Repr

/-- The registers of an engine after reset (10_state.md R36). -/
def Regs.reset : Regs :=
  { done := false, err := false, code := .none, detail := .none, doneIe := false, errIe := false,
    srcLen := 0#64, outLen := 0#64, errPos := 0#64, hdrLen := 0#32 }

/-- ENC after reset; its buffers hold nothing written (10_state.md R36). -/
def Enc.reset : Enc :=
  { phase := .idle, regs := Regs.reset,
    job := { n := 0#64, i := 0#64, runStart := 0#64, runChar := 0#8, outPos := 0#64 },
    src := [], dst := [] }

/-- DEC after reset; its buffers hold nothing written (10_state.md R36). -/
def Dec.reset : Dec :=
  { phase := .idle, regs := Regs.reset,
    job := { len := 0#64, i := 0#64, w := 0#64, orig := 0#32 },
    src := [], dst := [] }

/-- The machine right after reset, for an instance with given capacities (10_state.md R36; 00_scope.md R7). -/
def State.resetWith (caps : Capacities) : State :=
  { enc := Enc.reset, dec := Dec.reset, caps := caps, epoch := 0, program := [], schedule := [], reads := [],
    names := [], checks := [] }

/-- The capacities of the instance that State.reset describes (notes/assumptions/1.md). -/
def Capacities.instance0 : Capacities :=
  { encSrc := Config.encSrcCap, encDst := Config.encDstCap, decSrc := Config.decSrcCap, decDst := Config.decDstCap }

/-- The machine right after reset (10_state.md R36; 70_reset_and_hazards.md R136, R137). -/
def State.reset : State := State.resetWith Capacities.instance0

end Sys2Proof.Machine
end

