-- ==== Sys2Proof/Machine/Flags.lean ====
section
/-! DEFINITION. Every computation of a STATUS bit and of the interrupt level (spec/10_state.md R19, R21, R28, R29;
spec/60_exceptions.md R118, R119). The block has no other flags (10_state.md R28). -/

namespace Sys2Proof.Machine

/-- The number of an error code (60_exceptions.md R118). -/
def ErrCode.bits : ErrCode → BitVec 4
  | .none => 0#4
  | .inputTooLarge => 1#4
  | .malformedEncoding => 2#4
  | .allocationFailure => 3#4
  | .bufferBounds => 4#4

/-- The number of an error detail (60_exceptions.md R119). -/
def ErrDetail.bits : ErrDetail → BitVec 4
  | .none => 0#4
  | .overflow => 1#4
  | .shortHeader => 2#4
  | .underfill => 3#4

/-- BUSY of ENC: the phase is not IDLE (10_state.md R19, R30). -/
def EncPhase.busy : EncPhase → Bool
  | .idle => false
  | .header => true
  | .scan => true
  | .tail => true

/-- BUSY of DEC: the phase is not IDLE (10_state.md R19, R30). -/
def DecPhase.busy : DecPhase → Bool
  | .idle => false
  | .header => true
  | .body => true
  | .check => true

/-- The level of the engine's interrupt line, and STATUS.IRQ: `(DONE & DONE_IE) | (ERR & ERR_IE)`
(10_state.md R29). -/
def Regs.irqLevel (r : Regs) : Bool := (r.done && r.doneIe) || (r.err && r.errIe)

/-- A one-bit field of a register, at bit `k`. -/
def bitField (k : Nat) (b : Bool) : Word := (BitVec.ofBool b).setWidth 32 <<< k

/-- A four-bit field of a register, from bit `k` on. -/
def nibbleField (k : Nat) (f : BitVec 4) : Word := f.setWidth 32 <<< k

/-- The STATUS register: BUSY at 0, DONE at 1, ERR at 2, IRQ at 3, ERRCODE at 7:4, ERRDETAIL at 11:8; bits 31:12
read 0 (10_state.md R19). -/
def Regs.statusWord (busy : Bool) (r : Regs) : Word :=
  bitField 0 busy ||| bitField 1 r.done ||| bitField 2 r.err ||| bitField 3 r.irqLevel |||
    nibbleField 4 r.code.bits ||| nibbleField 8 r.detail.bits

/-- The IRQ_EN register: DONE_IE at bit 0, ERR_IE at bit 1, reserved bits 0 (10_state.md R21). -/
def Regs.irqEnWord (r : Regs) : Word := bitField 0 r.doneIe ||| bitField 1 r.errIe

/-- `E.IRQ_EN <- zext_32(data[1:0])` (40_control.md R74). -/
def Regs.writeIrqEn (data : Word) (r : Regs) : Regs :=
  { r with doneIe := data.getLsbD 0, errIe := data.getLsbD 1 }

/-- What CLR clears (40_control.md R72). -/
def Regs.clearStatus (r : Regs) : Regs :=
  { r with done := false, err := false, code := .none, detail := .none, errPos := 0#64 }

/-- What an accepted START clears before the engine's part of it (40_control.md R71). -/
def Regs.clearForStart (r : Regs) : Regs :=
  { r.clearStatus with outLen := 0#64, hdrLen := 0#32 }

/-- What a fault records; OUT_LEN and DONE are not written (60_exceptions.md R124). -/
def Regs.recordFault (code : ErrCode) (detail : ErrDetail) (pos : Word64) (r : Regs) : Regs :=
  { r with err := true, code := code, detail := detail, errPos := pos }

/-- What successful completion records (41_encoder.md R91; 42_decoder.md R111). -/
def Regs.recordDone (outLen : Word64) (r : Regs) : Regs :=
  { r with outLen := outLen, done := true }

end Sys2Proof.Machine
end

