-- ==== Sys2Proof/Machine/Ops.lean ====
section
/-! DEFINITION. The named operations over buffers and engines, fault entry and its acknowledgement, and reset
(spec/20_memory.md R37 to R40; spec/60_exceptions.md R124, R126; spec/70_reset_and_hazards.md R136). -/

namespace Sys2Proof.Machine

/-! ### A buffer's written bytes -/

/-- The byte written at an index, none where nothing has been written since reset. -/
def Memory.get : Memory → Nat → Option Byte
  | [], _ => none
  | (b, u) :: rest, k => if k = b then some u else Memory.get rest k

/-- Write one byte, keeping the indices strictly rising. -/
def Memory.set : Memory → Nat → Byte → Memory
  | [], k, v => [(k, v)]
  | (b, u) :: rest, k, v =>
    if k < b then (k, v) :: (b, u) :: rest
    else if k = b then (k, v) :: rest
    else (b, u) :: Memory.set rest k v

/-- Write the bytes of a sequence from an index on. -/
def Memory.setAll : Memory → Nat → List Byte → Memory
  | m, _, [] => m
  | m, k, v :: rest => Memory.setAll (Memory.set m k v) (k + 1) rest

/-- The canonical form: indices strictly rising. An unlisted index reads as "not written", which is no byte, so no
entry can equal it (notes/assumptions/2.md). -/
abbrev Memory.wf (m : Memory) : Prop := m.Pairwise (fun x y => x.1 < y.1)

/-- Every written index lies below the capacity (20_memory.md R37). -/
abbrev Memory.within (m : Memory) (cap : Nat) : Prop := ∀ x ∈ m, x.1 < cap

/-! ### The four buffers -/

/-- The capacity of a buffer: `cap(buf)` (40_control.md R77; 00_scope.md R7). -/
def Capacities.get (c : Capacities) : Buffer → Word64
  | .encSrc => c.encSrc
  | .encDst => c.encDst
  | .decSrc => c.decSrc
  | .decDst => c.decDst

/-- The capacity of a buffer as a number of bytes. -/
def State.cap (s : State) (b : Buffer) : Nat := (s.caps.get b).toNat

/-- The bytes written to a buffer. -/
def State.mem (s : State) : Buffer → Memory
  | .encSrc => s.enc.src
  | .encDst => s.enc.dst
  | .decSrc => s.dec.src
  | .decDst => s.dec.dst

/-- Replace the bytes written to a buffer. -/
def State.setMem (s : State) (b : Buffer) (m : Memory) : State :=
  match b with
  | .encSrc => { s with enc := { s.enc with src := m } }
  | .encDst => { s with enc := { s.enc with dst := m } }
  | .decSrc => { s with dec := { s.dec with src := m } }
  | .decDst => { s with dec := { s.dec with dst := m } }

/-- The byte at an index of a buffer: the one last written, and the free value of R39 where none was
(20_memory.md R39; notes/assumptions/2.md). -/
def State.byteAt (s : State) (b : Buffer) (k : Nat) : Byte :=
  match (s.mem b).get k with
  | some v => v
  | none => Config.freeByte s.epoch b k

/-- `MemRead(b, k, 1)`; none at or above the capacity (20_memory.md R40). -/
def State.memRead (s : State) (b : Buffer) (k : Nat) : Option Byte :=
  if k < s.cap b then some (s.byteAt b k) else none

/-- Set one byte, whatever the capacity: the effect of an access that has been checked. -/
def State.setByte (s : State) (b : Buffer) (k : Nat) (v : Byte) : State := s.setMem b ((s.mem b).set k v)

/-- Set the bytes from an index on, whatever the capacity. -/
def State.setBytes (s : State) (b : Buffer) (k : Nat) (vs : List Byte) : State :=
  s.setMem b ((s.mem b).setAll k vs)

/-- `MemWrite(b, k, 1, v)`; none at or above the capacity (20_memory.md R40). -/
def State.memWrite (s : State) (b : Buffer) (k : Nat) (v : Byte) : Option State :=
  if k < s.cap b then some (s.setByte b k v) else none

/-- The MemWrites of a byte sequence from index `k` on; none if one of them is at or above the capacity. -/
def State.memWriteAll (s : State) (b : Buffer) (k : Nat) (vs : List Byte) : Option State :=
  if k + vs.length ≤ s.cap b then some (s.setBytes b k vs) else none

/-! ### The registers and phases of an engine -/

/-- The stored registers of an engine. -/
def State.regs (s : State) : Engine → Regs
  | .enc => s.enc.regs
  | .dec => s.dec.regs

/-- Rewrite the stored registers of an engine. -/
def State.updRegs (s : State) (e : Engine) (f : Regs → Regs) : State :=
  match e with
  | .enc => { s with enc := { s.enc with regs := f s.enc.regs } }
  | .dec => { s with dec := { s.dec with regs := f s.dec.regs } }

/-- STATUS.BUSY of an engine (10_state.md R30). -/
def State.busy (s : State) : Engine → Bool
  | .enc => s.enc.phase.busy
  | .dec => s.dec.phase.busy

/-- `phase <- IDLE`. -/
def State.setIdle (s : State) (e : Engine) : State :=
  match e with
  | .enc => { s with enc := { s.enc with phase := .idle } }
  | .dec => { s with dec := { s.dec with phase := .idle } }

/-- The interrupt line of an engine, `ENC_IRQ` or `DEC_IRQ` (10_state.md R29; 60_exceptions.md R128). -/
def State.irqLine (s : State) (e : Engine) : Bool := (s.regs e).irqLevel

/-! ### Fault entry and acknowledgement -/

/-- `raise Fault(code, detail, pos)`: the phase becomes IDLE and the fault is recorded; no vector, no mode, no return
point. The rest of the step that raises it is not executed, which is its caller's part (60_exceptions.md R124). -/
def State.raiseFault (s : State) (e : Engine) (code : ErrCode) (detail : ErrDetail) (pos : Word64) : State :=
  (s.setIdle e).updRegs e (Regs.recordFault code detail pos)

/-- There is no return from a fault; the host acknowledges it with CLR, which a busy engine ignores
(60_exceptions.md R126; 40_control.md R72). -/
def State.acknowledge (s : State) (e : Engine) : State :=
  if s.busy e then s else s.updRegs e Regs.clearStatus

/-! ### A part of an engine step -/

/-- How a part of an engine step ends: it goes on; or a fault of the block ended the step, with the state the fault
left; or the model met an access no run makes (20_memory.md R40). -/
inductive Progress where
  | go (s : State)
  | halt (s : State)
  | stuck (f : Fault)
  deriving DecidableEq, Repr

/-- Go on with the rest of the step; after a fault "the rest of the step that raised the fault is not executed"
(60_exceptions.md R124). -/
def Progress.andThen (p : Progress) (rest : State → Host.Outcome State Fault Refusal) :
    Host.Outcome State Fault Refusal :=
  match p with
  | .go s => rest s
  | .halt s => .next s
  | .stuck f => .fault f

/-! ### Reset -/

/-- The reset input: every register and hidden state of both engines takes its reset value and every buffer byte
becomes unspecified, whatever it held. The host's remaining lines, the interleaving, the values the host has read, its
names and its checks are not the block's and stay (70_reset_and_hazards.md R136; notes/assumptions/3.md, 13.md). -/
def State.applyReset (s : State) : State :=
  { s with enc := Enc.reset, dec := Dec.reset, epoch := s.epoch + 1 }

end Sys2Proof.Machine
end

