-- ==== Sys2Proof/Machine/Operands.lean ====
section
/-! DEFINITION. The operand forms of the host's operations: the register map as a read sees it, the 64-bit register
pairs, the buffer byte, and the operands of a host line (spec/10_state.md R17 to R27; spec/20_memory.md R42;
spec/30_encoding.md R68). -/

namespace Sys2Proof.Machine

/-- One half of a 64-bit register value: `_LO` is bits 31:0, `_HI` is bits 63:32 (20_memory.md R42). -/
def halfOf (h : Half) (v : Word64) : Word :=
  match h with
  | .lo => v.extractLsb' 0 32
  | .hi => v.extractLsb' 32 32

/-- A 64-bit register value with one half replaced (10_state.md R22). -/
def withHalf (h : Half) (v : Word64) (data : Word) : Word64 :=
  match h with
  | .lo => halfOf .hi v ++ data
  | .hi => data ++ halfOf .lo v

/-- The SRC_CAP and DST_CAP of an engine (10_state.md R25). -/
def State.srcCap (s : State) : Engine → Word64
  | .enc => s.caps.encSrc
  | .dec => s.caps.decSrc

/-- The DST_CAP of an engine (10_state.md R25). -/
def State.dstCap (s : State) : Engine → Word64
  | .enc => s.caps.encDst
  | .dec => s.caps.decDst

/-- "value of the register at offset off[5:0] of E" (40_control.md R69; the register map of 10_state.md R17). CTRL
and the reserved offsets read 0; STATUS is computed at the read. -/
def State.readReg (s : State) (e : Engine) : Reg → Word
  | .ctrl => 0#32
  | .status => (s.regs e).statusWord (s.busy e)
  | .irqEn => (s.regs e).irqEnWord
  | .reserved0C => 0#32
  | .srcLenLo => halfOf .lo (s.regs e).srcLen
  | .srcLenHi => halfOf .hi (s.regs e).srcLen
  | .outLenLo => halfOf .lo (s.regs e).outLen
  | .outLenHi => halfOf .hi (s.regs e).outLen
  | .errPosLo => halfOf .lo (s.regs e).errPos
  | .errPosHi => halfOf .hi (s.regs e).errPos
  | .srcCapLo => halfOf .lo (s.srcCap e)
  | .srcCapHi => halfOf .hi (s.srcCap e)
  | .dstCapLo => halfOf .lo (s.dstCap e)
  | .dstCapHi => halfOf .hi (s.dstCap e)
  | .hdrLen => (s.regs e).hdrLen
  | .reserved3C => 0#32

/-- `E.IRQ_EN <- zext_32(data[1:0])` (40_control.md R74). -/
def State.writeIrqEn (s : State) (e : Engine) (data : Word) : State := s.updRegs e (Regs.writeIrqEn data)

/-- `E.SRC_LEN_LO <- data` or `E.SRC_LEN_HI <- data` (40_control.md R75). -/
def State.writeSrcLen (s : State) (e : Engine) (h : Half) (data : Word) : State :=
  s.updRegs e (fun r => { r with srcLen := withHalf h r.srcLen data })

/-- Hand a value to the host: the "return" of RD32 and RDB (40_control.md R69, R77; notes/assumptions/6.md). -/
def State.giveHost (s : State) (v : ReadValue) : State := { s with reads := v :: s.reads }

/-! ### The names and operands of host lines -/

/-- What a name is bound to; none where no line has bound it. -/
def Names.get : Names → Name → Option ReadValue
  | [], _ => none
  | (y, u) :: rest, x => if x = y then some u else Names.get rest x

/-- Bind a name, keeping the names strictly rising. -/
def Names.set : Names → Name → ReadValue → Names
  | [], x, v => [(x, v)]
  | (y, u) :: rest, x, v =>
    if x < y then (x, v) :: (y, u) :: rest
    else if x = y then (x, v) :: rest
    else (y, u) :: Names.set rest x v

/-- The canonical form: names strictly rising. -/
abbrev Names.wf (ns : Names) : Prop := ns.Pairwise (fun x y => x.1 < y.1)

/-- Bind a name of the host's program: "The value read is bound to `name` for later lines" (30_encoding.md R68). -/
def State.bindName (s : State) (x : Name) (v : ReadValue) : State := { s with names := s.names.set x v }

/-- A read value as a number. -/
def ReadValue.toNat : ReadValue → Nat
  | .word v => v.toNat
  | .byte v => v.toNat

/-- The value of an operand of a host line; none for a name that no line has bound (30_encoding.md R68). -/
def State.operand (s : State) : Operand → Option Nat
  | .imm n => some n
  | .name x => (s.names.get x).map ReadValue.toNat
  | .high o => (s.operand o).map (· / 2 ^ 32)

/-- The bus access of an operation, its operands read and each cut to the width of its field
(30_encoding.md R63, R68; notes/assumptions/21.md). -/
def State.accessOf (s : State) : NamedOp → Option BusAccess
  | .rd32 e r _ => some (.regRead 32 (Reg.offset e r))
  | .wr32 e r imm => (s.operand imm).map fun v => .regWrite 32 (Reg.offset e r) (BitVec.ofNat 32 v)
  | .rdb b k _ => (s.operand k).map fun n => .bufRead b (BitVec.ofNat 64 n)
  | .wrb b k imm =>
    match s.operand k, s.operand imm with
    | some n, some v => some (.bufWrite b (BitVec.ofNat 64 n) (BitVec.ofNat 8 v))
    | _, _ => none

/-- An operation's name bound to the value it reads; a write binds none. The value is looked at before the read runs,
which changes no register and no byte (30_encoding.md R68). -/
def State.bindRead (s : State) : NamedOp → State
  | .rd32 e r x => s.bindName x (.word (s.readReg e r))
  | .wr32 _ _ _ => s
  | .rdb b k x =>
    match s.operand k with
    | some n => s.bindName x (.byte (s.byteAt b (BitVec.ofNat 64 n).toNat))
    | none => s
  | .wrb _ _ _ => s

/-- What an EXPECT finds: whether all its equations hold; none where one uses an unbound name
(30_encoding.md R68; notes/assumptions/18.md). -/
def State.expectHolds (s : State) : List (Operand × Operand) → Option Bool
  | [] => some true
  | (a, b) :: rest =>
    match s.operand a, s.operand b, s.expectHolds rest with
    | some x, some y, some ok => some (decide (x = y) && ok)
    | _, _, _ => none

end Sys2Proof.Machine
end

