-- ==== Sys2Proof/Machine/Decoder.lean ====
section
/-! DEFINITION. The decoder engine: START's part of it, the meanings of the stream units HDR, LIT and ESC, and the
CHECK step (spec/42_decoder.md R97 to R111). -/

namespace Sys2Proof.Machine

/-- `dec_start_checks` (42_decoder.md R98), on the state in which `L` is latched. Any `L` up to DEC_SRC_CAP is accepted, as
R99 says; the bound of 2^34 that 00_scope.md R8 states for every counter is not checked (DEDUCED,
notes/assumptions/20.md). -/
def decStartChecks (s : State) : State :=
  if s.cap .decSrc < s.dec.job.len.toNat then s.raiseFault .dec .bufferBounds .none 0#64
  else if s.dec.job.len.toNat < 4 then s.raiseFault .dec .malformedEncoding .shortHeader 0#64
  else { s with dec := { s.dec with phase := .header } }

/-- `dec_start`: latch SRC_LEN, clear the working registers, check (42_decoder.md R97). -/
def decStart (s : State) : State :=
  decStartChecks
    { s with dec := { s.dec with
        job := { len := s.dec.regs.srcLen, i := 0#64, w := 0#64, orig := 0#32 } } }

/-- A START of DEC: ignored while busy, else the status is cleared and the job begins (40_control.md R71). -/
def startDec (s : State) : State :=
  if s.busy .dec then s else decStart (s.updRegs .dec Regs.clearForStart)

/-- `Append(c, pos)`: the bounds-checked output write (42_decoder.md R101). -/
def decAppend (c : Byte) (pos : Word64) (s : State) : Progress :=
  let w := s.dec.job.w.toNat
  if s.dec.job.orig.toNat ≤ w then .halt (s.raiseFault .dec .malformedEncoding .overflow pos)
  else
    match s.memWrite .decDst w c with
    | none => .stuck (.writeBeyondCapacity .decDst w)
    | some t => .go { t with dec := { t.dec with job := { t.dec.job with w := BitVec.ofNat 64 (w + 1) } } }

/-- `repeat count times: Append(c, pos)`; the copies before a failing one stay (42_decoder.md R104). -/
def decAppendMany (c : Byte) (pos : Word64) : (count : Nat) → State → Progress
  | 0, s => .go s
  | count + 1, s =>
    match decAppend c pos s with
    | .go t => decAppendMany c pos count t
    | .halt t => .halt t
    | .stuck f => .stuck f

/-- The end of a BODY step: advance `i` past the unit, and `if i == L: phase <- CHECK`
(42_decoder.md R102, R103, R104). `i` may reach any `L` up to DEC_SRC_CAP (R99, R114), past the 2^34 of 00_scope.md R8,
and does not wrap (DEDUCED, notes/assumptions/20.md). -/
def decAdvance (size : Nat) (s : State) : State :=
  let i' := BitVec.ofNat 64 (s.dec.job.i.toNat + size)
  { s with dec := { s.dec with
      phase := if i' = s.dec.job.len then .check else s.dec.phase,
      job := { s.dec.job with i := i' } } }

/-- HDR: the HEADER step, on the `original_length` its four bytes hold (42_decoder.md R100). HDR_LEN keeps the value
when the step then faults (10_state.md R26). Reached in phase HEADER only (notes/assumptions/14.md). -/
def execHdr (originalLength : Word) (s : State) : Host.Outcome State Fault Refusal :=
  let t := { s with dec := { s.dec with
    regs := { s.dec.regs with hdrLen := originalLength },
    job := { s.dec.job with orig := originalLength } } }
  if t.cap .decDst < originalLength.toNat then .next (t.raiseFault .dec .allocationFailure .none 0#64)
  else
    .next { t with dec := { t.dec with
      phase := if t.dec.job.len = 4#64 then .check else .body,
      job := { t.dec.job with i := 4#64, w := 0#64 } } }

/-- LIT: "append c once to the output", "advance i by 1" (42_decoder.md R103). Reached in phase BODY only
(notes/assumptions/14.md). -/
def execLit (v : Byte) (s : State) : Host.Outcome State Fault Refusal :=
  (decAppend v s.dec.job.i s).andThen fun t => .next (decAdvance 1 t)

/-- ESC: "append c repeated count times", "advance i by 3" (42_decoder.md R104, R107). Reached in phase BODY only
(notes/assumptions/14.md). -/
def execEsc (v count : Byte) (s : State) : Host.Outcome State Fault Refusal :=
  (decAppendMany v s.dec.job.i count.toNat s).andThen fun t => .next (decAdvance 3 t)

/-- `dec_complete` (42_decoder.md R111). -/
def decComplete (s : State) : State :=
  (s.setIdle .dec).updRegs .dec (Regs.recordDone (s.dec.job.orig.setWidth 64))

/-- CHECK: the output must be filled exactly (42_decoder.md R110). -/
def decCheck (s : State) : Host.Outcome State Fault Refusal :=
  if s.dec.job.w.toNat ≠ s.dec.job.orig.toNat then
    .next (s.raiseFault .dec .malformedEncoding .underfill s.dec.job.len)
  else .next (decComplete s)

end Sys2Proof.Machine
end

