-- ==== Sys2Proof/Machine/Encoder.lean ====
section
/-! DEFINITION. The encoder engine: START's part of it, and the steps HEADER, SCAN and TAIL
(spec/41_encoder.md R79 to R91). -/

namespace Sys2Proof.Machine

/-- `enc_start_checks` (41_encoder.md R80), on the state in which `n` is latched. -/
def encStartChecks (s : State) : State :=
  if 2 ^ 32 ≤ s.enc.job.n.toNat then s.raiseFault .enc .inputTooLarge .none 0#64
  else if s.cap .encSrc < s.enc.job.n.toNat then s.raiseFault .enc .bufferBounds .none 0#64
  else { s with enc := { s.enc with phase := .header } }

/-- `enc_start`: latch SRC_LEN, set the working registers, check (41_encoder.md R79). -/
def encStart (s : State) : State :=
  encStartChecks
    { s with enc := { s.enc with
        job := { n := s.enc.regs.srcLen, i := 0#64, runStart := 0#64, runChar := 0#8, outPos := 0#64 } } }

/-- A START of ENC: ignored while busy, else the status is cleared and the job begins (40_control.md R71). -/
def startEnc (s : State) : State :=
  if s.busy .enc then s else encStart (s.updRegs .enc Regs.clearForStart)

/-- `Emit(u, pos)`: append a unit to DST, all or nothing (41_encoder.md R83). -/
def encEmit (u : List Byte) (pos : Word64) (s : State) : Progress :=
  let at0 := s.enc.job.outPos.toNat
  if s.cap .encDst < at0 + u.length then .halt (s.raiseFault .enc .allocationFailure .none pos)
  else
    match s.memWriteAll .encDst at0 u with
    | none => .stuck (.writeBeyondCapacity .encDst at0)
    | some t => .go { t with enc := { t.enc with
        job := { t.enc.job with outPos := BitVec.ofNat 64 (at0 + u.length) } } }

/-- The unit a counted run of `len` copies of `ch` is sent as: nothing, one LIT, or one ESC (41_encoder.md R84;
30_encoding.md R56, R57). -/
def runUnit (ch : Byte) (len : Nat) : List Byte :=
  match len with
  | 0 => []
  | 1 => [ch]
  | _ + 2 => [ch, ch, BitVec.ofNat 8 len]

/-- `Flush(ch, len, pos)`: "emit nothing" for an empty run, else emit its unit (41_encoder.md R84). -/
def encFlush (ch : Byte) (len : Nat) (pos : Word64) (s : State) : Progress :=
  match len with
  | 0 => .go s
  | _ + 1 => encEmit (runUnit ch len) pos s

/-- HEADER: write the length little-endian, then scan, or finish an empty input (41_encoder.md R82). -/
def encHeader (s : State) : Host.Outcome State Fault Refusal :=
  if s.cap .encDst < 4 then .next (s.raiseFault .enc .allocationFailure .none 0#64)
  else
    let len32 := s.enc.job.n.extractLsb' 0 32
    match s.memWriteAll .encDst 0 (leBytes len32) with
    | none => .fault (.writeBeyondCapacity .encDst 0)
    | some t => .next { t with enc := { t.enc with
        phase := if t.enc.job.n.toNat = 0 then .tail else .scan,
        regs := { t.enc.regs with hdrLen := len32 },
        job := { t.enc.job with outPos := 4#64 } } }

/-- The end of a SCAN step: `i <- i + 1; if i == n: phase <- TAIL` (41_encoder.md R85). -/
def encAdvance (s : State) : State :=
  let i' := BitVec.ofNat 64 (s.enc.job.i.toNat + 1)
  { s with enc := { s.enc with
      phase := if i' = s.enc.job.n then .tail else s.enc.phase,
      job := { s.enc.job with i := i' } } }

/-- `run_start <- i; run_char <- c` after the run before it has been flushed (41_encoder.md R85; on the cap of R88
`c` is the run's own byte). -/
def encRestart (c : Byte) (s : State) : State :=
  { s with enc := { s.enc with job := { s.enc.job with runStart := s.enc.job.i, runChar := c } } }

/-- SCAN: one input byte, one iteration of the source's loop (41_encoder.md R85, R88). -/
def encScan (s : State) : Host.Outcome State Fault Refusal :=
  let j := s.enc.job
  match s.memRead .encSrc j.i.toNat with
  | none => .fault (.readBeyondCapacity .encSrc j.i.toNat)
  | some c =>
    if j.i.toNat < j.runStart.toNat then .fault .negativeLength
    else
      let length := j.i.toNat - j.runStart.toNat
      if c ≠ j.runChar then
        (encFlush j.runChar length j.i s).andThen fun t => .next (encAdvance (encRestart c t))
      else if length = 255 then
        (encFlush j.runChar 255 j.i s).andThen fun t => .next (encAdvance (encRestart c t))
      else .next (encAdvance s)

/-- `enc_complete` (41_encoder.md R91). -/
def encComplete (s : State) : State :=
  (s.setIdle .enc).updRegs .enc (Regs.recordDone s.enc.job.outPos)

/-- TAIL: flush the last run and complete (41_encoder.md R90). -/
def encTail (s : State) : Host.Outcome State Fault Refusal :=
  let j := s.enc.job
  if j.n.toNat < j.runStart.toNat then .fault .negativeLength
  else (encFlush j.runChar (j.n.toNat - j.runStart.toNat) j.n s).andThen fun t => .next (encComplete t)

/-- One step of ENC, chosen by its phase. "An IDLE engine takes no step" (10_state.md R30). -/
def encStep (s : State) : Host.Outcome State Fault Refusal :=
  match s.enc.phase with
  | .idle => .next s
  | .header => encHeader s
  | .scan => encScan s
  | .tail => encTail s

end Sys2Proof.Machine
end

