-- ==== Sys2Proof/Machine/Control.lean ====
section
/-! DEFINITION. The meanings of the host's operations (spec/40_control.md R69 to R78). -/

namespace Sys2Proof.Machine

/-- RD32: hand the register's value to the host; a read has no side effect (40_control.md R69). -/
def execRd32 (e : Engine) (r : Reg) (s : State) : Host.Outcome State Fault Refusal :=
  .next (s.giveHost (.word (s.readReg e r)))

/-- START of either engine (40_control.md R71). -/
def startJob (e : Engine) (s : State) : State :=
  match e with
  | .enc => startEnc s
  | .dec => startDec s

/-- `command(E, data[1:0])`: START wins over CLR, data[31:2] is ignored (40_control.md R70; 30_encoding.md R64). -/
def command (e : Engine) (data : Word) (s : State) : State :=
  if data.getLsbD 0 then startJob e s
  else if data.getLsbD 1 then s.acknowledge e
  else s

/-- WR32: the general row, by the case distinction of 40_control.md R70; a register that is none of the cases is not
written (R76). -/
def execWr32 (e : Engine) (r : Reg) (data : Word) (s : State) : Host.Outcome State Fault Refusal :=
  match r with
  | .ctrl => .next (command e data s)
  | .irqEn => .next (s.writeIrqEn e data)
  | .srcLenLo => .next (s.writeSrcLen e .lo data)
  | .srcLenHi => .next (s.writeSrcLen e .hi data)
  | .status => .next s
  | .reserved0C => .next s
  | .outLenLo => .next s
  | .outLenHi => .next s
  | .errPosLo => .next s
  | .errPosHi => .next s
  | .srcCapLo => .next s
  | .srcCapHi => .next s
  | .dstCapLo => .next s
  | .dstCapHi => .next s
  | .hdrLen => .next s
  | .reserved3C => .next s

/-- ENC.START (40_control.md R71; 41_encoder.md R79, R80); data[31:1] is ignored. -/
def execEncStart (_data : Word) (s : State) : Host.Outcome State Fault Refusal := .next (startEnc s)

/-- DEC.START (40_control.md R71; 42_decoder.md R97, R98); data[31:1] is ignored. -/
def execDecStart (_data : Word) (s : State) : Host.Outcome State Fault Refusal := .next (startDec s)

/-- ENC.CLR (40_control.md R72); data[31:2] is ignored. -/
def execEncClr (_data : Word) (s : State) : Host.Outcome State Fault Refusal := .next (s.acknowledge .enc)

/-- DEC.CLR (40_control.md R72); data[31:2] is ignored. -/
def execDecClr (_data : Word) (s : State) : Host.Outcome State Fault Refusal := .next (s.acknowledge .dec)

/-- ENC.NOP: `skip` (40_control.md R73). -/
def execEncNop (_data : Word) (s : State) : Host.Outcome State Fault Refusal := .next s

/-- DEC.NOP: `skip` (40_control.md R73). -/
def execDecNop (_data : Word) (s : State) : Host.Outcome State Fault Refusal := .next s

/-- IRQ_EN.WR (40_control.md R74); data[31:2] is ignored. -/
def execIrqEnWr (e : Engine) (data : Word) (s : State) : Host.Outcome State Fault Refusal :=
  .next (s.writeIrqEn e data)

/-- SRC_LEN.WR (40_control.md R75); the running job keeps the length it latched (10_state.md R22). -/
def execSrcLenWr (e : Engine) (h : Half) (data : Word) (s : State) : Host.Outcome State Fault Refusal :=
  .next (s.writeSrcLen e h data)

/-- RO.WR: no effect, no bus error (40_control.md R76). -/
def execRoWr (_e : Engine) (_r : Reg) (_data : Word) (s : State) : Host.Outcome State Fault Refusal := .next s

/-- RDB: hand the byte to the host; an index at or above the capacity is refused (40_control.md R77;
60_exceptions.md R135). Reading a byte nothing has written gives the free value of 20_memory.md R39. -/
def execRdb (b : Buffer) (idx : Word64) (s : State) : Host.Outcome State Fault Refusal :=
  match s.memRead b idx.toNat with
  | some v => .next (s.giveHost (.byte v))
  | none => .refused (.indexBeyondCapacity b idx)

/-- WRB: write the byte; refused at or above the capacity (40_control.md R78; 60_exceptions.md R135) and for a buffer
of a busy engine, a move the host does not have (70_reset_and_hazards.md R140; notes/assumptions/10.md). -/
def execWrb (b : Buffer) (idx : Word64) (data : Byte) (s : State) : Host.Outcome State Fault Refusal :=
  if s.busy b.engine then .refused (.bufferOfBusyEngine b)
  else
    match s.memWrite b idx.toNat data with
    | some t => .next t
    | none => .refused (.indexBeyondCapacity b idx)

end Sys2Proof.Machine
end

