-- ==== Sys2Proof/Machine/Dispatch.lean ====
section
/-! DEFINITION. One arm per instruction, each one call of its meaning. -/

namespace Sys2Proof.Machine

def exec (i : Instr) (s : State) : Host.Outcome State Fault Refusal :=
  match i with
  | .hdr originalLength => Sys2Proof.Machine.execHdr originalLength s
  | .lit v => Sys2Proof.Machine.execLit v s
  | .esc v count => Sys2Proof.Machine.execEsc v count s
  | .rd32 e r => Sys2Proof.Machine.execRd32 e r s
  | .wr32 e r data => Sys2Proof.Machine.execWr32 e r data s
  | .encStart data => Sys2Proof.Machine.execEncStart data s
  | .decStart data => Sys2Proof.Machine.execDecStart data s
  | .encClr data => Sys2Proof.Machine.execEncClr data s
  | .decClr data => Sys2Proof.Machine.execDecClr data s
  | .encNop data => Sys2Proof.Machine.execEncNop data s
  | .decNop data => Sys2Proof.Machine.execDecNop data s
  | .irqEnWr e data => Sys2Proof.Machine.execIrqEnWr e data s
  | .srcLenWr e h data => Sys2Proof.Machine.execSrcLenWr e h data s
  | .roWr e r data => Sys2Proof.Machine.execRoWr e r data s
  | .rdb b idx => Sys2Proof.Machine.execRdb b idx s
  | .wrb b idx data => Sys2Proof.Machine.execWrb b idx data s

end Sys2Proof.Machine
end

