-- ==== Sys2Proof/Machine/Fetch.lean ====
section
/-! DEFINITION. Which agent moves next and what its move is: the host's next line, or an engine's next step
(spec/10_state.md R30, R33; spec/20_memory.md R47; spec/30_encoding.md R59, R68; spec/70_reset_and_hazards.md R146). -/

namespace Sys2Proof.Machine

/-- What the next move is: run an instruction on a state that has been moved past it, or a move without an
instruction, already ended. -/
inductive Fetched where
  | instr (i : Instr) (s : State)
  | ended (o : Host.Outcome State Fault Refusal)

/-- Who moves when no interleaving is listed: a busy engine before the host, ENC before DEC; nobody when both
engines are idle and the host has no line left. So a busy engine always gets its step once the listed interleaving
is used up (70_reset_and_hazards.md R146). DESIGN CHOICE, notes/assumptions/5.md. -/
def defaultAgent (s : State) : Option Agent :=
  if s.enc.phase.busy then some .enc
  else if s.dec.phase.busy then some .dec
  else match s.program with
    | [] => none
    | _ :: _ => some .host

/-- The agent that moves next, and the state with that choice taken from the listed interleaving
(20_memory.md R47; notes/assumptions/5.md). -/
def chooseAgent (s : State) : Option Agent × State :=
  match s.schedule with
  | a :: rest => (some a, { s with schedule := rest })
  | [] => (defaultAgent s, s)

/-- One iteration of POLL: "`RD32 E.REG -> t`; repeat while `(t & mask) != value`". The line is done when the masked
value matches and stands again otherwise (30_encoding.md R68). A read changes no register, so the value can be looked at
before it is returned. -/
def fetchPoll (e : Engine) (r : Reg) (mask value : Operand) (rest : List HostLine) (s : State) : Fetched :=
  let t := s.bindName pollName (.word (s.readReg e r))
  match t.operand mask, t.operand value with
  | some m, some v =>
    if (s.readReg e r).toNat &&& m = v then .instr (.rd32 e r) { t with program := rest } else .instr (.rd32 e r) t
  | _, _ => .ended (.refused .unboundName)

/-- A bus access of the host, from the state moved past its line. -/
def fetchAccess (a : BusAccess) (s : State) : Fetched :=
  match decodeBus a with
  | .ok i => .instr i s
  | .error err => .ended (.refused (.busError err))

/-- The host's move: its next line. A host with no line left does nothing; an EXPECT "is not a bus operation and has no
effect on the block" (30_encoding.md R68). -/
def fetchHost (s : State) : Fetched :=
  match s.program with
  | [] => .ended (.next s)
  | .access a :: rest => fetchAccess a { s with program := rest }
  | .named op :: rest =>
    match s.accessOf op with
    | some a => fetchAccess a { s.bindRead op with program := rest }
    | none => .ended (.refused .unboundName)
  | .poll e r mask value :: rest => fetchPoll e r mask value rest s
  | .expect equations :: rest =>
    match s.expectHolds equations with
    | some ok => .ended (.next { s with program := rest, checks := ok :: s.checks })
    | none => .ended (.refused .unboundName)
  | .reset :: rest => .ended (.next ({ s with program := rest } : State).applyReset)

/-- `count` MemReads from index `k` on; none if one of them is at or above the capacity. -/
def State.memReadAll (s : State) (b : Buffer) : (k count : Nat) → Option (List Byte)
  | _, 0 => some []
  | k, count + 1 =>
    match s.memRead b k, s.memReadAll b (k + 1) count with
    | some v, some vs => some (v :: vs)
    | _, _ => none

/-- The bytes of the unit at `i`, read as 30_encoding.md R59 and 42_decoder.md R102 read them: the second byte only if
`i + 2 < L`, the third only if the second equals the first. -/
def fetchUnitBytes (s : State) : Option (List Byte) :=
  let i := s.dec.job.i.toNat
  match s.memRead .decSrc i with
  | none => none
  | some c =>
    if i + 2 < s.dec.job.len.toNat then
      match s.memRead .decSrc (i + 1) with
      | none => none
      | some d =>
        if d = c then
          match s.memRead .decSrc (i + 2) with
          | none => none
          | some k => some [c, d, k]
        else some [c, d]
    else some [c]

/-- Decode the bytes DEC fetched at `pos`; none means an index at or above the capacity (20_memory.md R40). -/
def fetchStream (pos : StreamPos) (at0 : Nat) (bytes : Option (List Byte)) (s : State) : Fetched :=
  match bytes with
  | none => .ended (.fault (.readBeyondCapacity .decSrc at0))
  | some bs =>
    match decodeStream pos bs with
    | .ok (i, _) => .instr i s
    | .error err => .ended (.fault (.undecodable err))

/-- DEC's move: the instruction of its phase. CHECK has none; "an IDLE engine takes no step" (10_state.md R30). -/
def fetchDec (s : State) : Fetched :=
  match s.dec.phase with
  | .idle => .ended (.next s)
  | .header => fetchStream .header 0 (s.memReadAll .decSrc 0 4) s
  | .body => fetchStream .body s.dec.job.i.toNat (fetchUnitBytes s) s
  | .check => .ended (decCheck s)

/-- The next move of the machine. -/
def fetch (s : State) : Fetched :=
  match chooseAgent s with
  | (none, t) => .ended (.next t)
  | (some .host, t) => fetchHost t
  | (some .enc, t) => .ended (encStep t)
  | (some .dec, t) => fetchDec t

/-- Give DEC a stream unit to run next: the job is at that unit, in SRC, and the stream ends with it. The capacity
of DEC.SRC is raised where the unit would not fit (notes/assumptions/7.md). -/
def State.placeUnit (s : State) (pos : StreamPos) (bytes : List Byte) : State :=
  let at0 : Nat :=
    match pos with
    | .header => 0
    | .body => 4
  let len := BitVec.ofNat 64 (at0 + bytes.length)
  let t := s.setBytes .decSrc at0 bytes
  { t with
    caps := { t.caps with decSrc := if t.caps.decSrc.toNat < len.toNat then len else t.caps.decSrc },
    schedule := .dec :: t.schedule,
    dec := { t.dec with
      phase := (match pos with
        | .header => .header
        | .body => .body),
      job := { t.dec.job with i := BitVec.ofNat 64 at0, len := len } } }

/-- Give the host a bus access to make next (notes/assumptions/7.md). -/
def State.placeAccess (s : State) (a : BusAccess) : State :=
  { s with program := .access a :: s.program, schedule := .host :: s.schedule }

end Sys2Proof.Machine
end

