-- ==== Sys2Proof/Machine/Step.lean ====
section
/-! DEFINITION. One step of the machine: the next move of one agent (spec/10_state.md R33; spec/20_memory.md R47). -/

namespace Sys2Proof.Machine

/-- One step: the instruction of the next move is run by `exec`; a move without one is already ended. -/
def step (s : State) : Host.Outcome State Fault Refusal :=
  match fetch s with
  | .instr i t => exec i t
  | .ended o => o

/-- `s` with the instruction of a table word placed so that the very next step runs it: a stream unit is given to
DEC, a bus access to the host. Bytes that are no bus access become an access that the decoder refuses
(notes/assumptions/4.md, 7.md). -/
def State.withFetchWord (s : State) (nbits w : Nat) : State :=
  match tableWord nbits w with
  | .stream pos bytes => s.placeUnit pos bytes
  | .access (some a) => s.placeAccess a
  | .access none => s.placeAccess (.regRead 0 0#7)

end Sys2Proof.Machine
end

