-- ==== Sys2Proof/Machine/Assembly.lean ====
section
/-! DEFINITION. The assembly notations: encoded streams and host programs (spec/30_encoding.md R66 to R68). -/

namespace Sys2Proof.Machine

/-- A stream directive (30_encoding.md R66, R67). -/
inductive Directive where
  | hdr (n : Word)
  | lit (v : Byte)
  | esc (v k : Byte)
  | bytes (bs : List Byte)
  | run (v : Byte) (count : Nat)
  deriving DecidableEq, Repr

/-- The bytes of `.run V, R`: an ESC of 255 for each whole 255 copies, then the unit of the rest: nothing, a LIT or
an ESC (30_encoding.md R67; `units(c, r)` of 41_encoder.md R92). -/
def runBytes (v : Byte) (count : Nat) : List Byte :=
  (List.replicate (count / 255) [v, v, 255#8]).flatten ++ runUnit v (count % 255)

/-- The bytes of one directive. -/
def Directive.assemble : Directive → List Byte
  | .hdr n => leBytes n
  | .lit v => [v]
  | .esc v k => [v, v, k]
  | .bytes bs => bs
  | .run v count => runBytes v count

/-- The stream a list of directives stands for: "the concatenation of the directives' bytes" (30_encoding.md R66). -/
def assembleStream (ds : List Directive) : List Byte := (ds.map Directive.assemble).flatten

/-- A line of host assembly (30_encoding.md R68). -/
inductive HostAsm where
  | wr32 (e : Engine) (r : Reg) (imm : Operand)
  | rd32 (e : Engine) (r : Reg) (x : Name)
  | wrb (b : Buffer) (k imm : Operand)
  | rdb (b : Buffer) (k : Operand) (x : Name)
  | start (e : Engine)
  | clr (e : Engine)
  | setlen (e : Engine) (n : Operand)
  | load (e : Engine) (bs : List Operand)
  | poll (e : Engine) (r : Reg) (mask value : Operand)
  | expect (equations : List (Operand × Operand))
  | reset
  deriving DecidableEq, Repr

/-- The SRC buffer of an engine. -/
def srcOf : Engine → Buffer
  | .enc => .encSrc
  | .dec => .decSrc

/-- The DST buffer of an engine. -/
def dstOf : Engine → Buffer
  | .enc => .encDst
  | .dec => .decDst

/-- `WRB E.SRC[k], b_k` for k = 0, 1, ... over the bytes, in order. -/
def loadLines (b : Buffer) : (k : Nat) → List Operand → List HostLine
  | _, [] => []
  | k, v :: rest => .named (.wrb b (.imm k) v) :: loadLines b (k + 1) rest

/-- The bytes of a stream or a literal as the operands of LOAD. -/
def byteOperands (bs : List Byte) : List Operand := bs.map fun v => .imm v.toNat

/-- The host lines an assembly line stands for; START, CLR, SETLEN, LOAD are pseudo-instructions (30_encoding.md R68). -/
def HostAsm.lines : HostAsm → List HostLine
  | .wr32 e r imm => [.named (.wr32 e r imm)]
  | .rd32 e r x => [.named (.rd32 e r x)]
  | .wrb b k imm => [.named (.wrb b k imm)]
  | .rdb b k x => [.named (.rdb b k x)]
  | .start e => [.named (.wr32 e .ctrl (.imm 1))]
  | .clr e => [.named (.wr32 e .ctrl (.imm 2))]
  | .setlen e n => [.named (.wr32 e .srcLenLo n), .named (.wr32 e .srcLenHi (.high n))]
  | .load e bs => loadLines (srcOf e) 0 bs
  | .poll e r mask value => [.poll e r mask value]
  | .expect equations => [.expect equations]
  | .reset => [.reset]

/-- A host program, run in order. -/
def assembleHost (p : List HostAsm) : List HostLine := (p.map HostAsm.lines).flatten

end Sys2Proof.Machine
end

