-- ==== Sys2Proof/Machine/Codec.lean ====
section
/-! DEFINITION. The two engines' jobs as functions on byte sequences: the closed forms of spec/41_encoder.md R92 and
spec/42_decoder.md R112, the parse of spec/30_encoding.md R60, and the canonical form of spec/41_encoder.md R94. The
engines do not use them; statements compare the engines with them. -/

namespace Sys2Proof.Machine

/-! ### The encoder -/

/-- The maximal runs of a byte sequence, as (byte, length) (41_encoder.md R92; 00_scope.md R12 "run"). -/
def maximalRuns : List Byte → List (Byte × Nat)
  | [] => []
  | b :: rest =>
    match maximalRuns rest with
    | (c, r) :: more => if b = c then (c, r + 1) :: more else (b, 1) :: (c, r) :: more
    | [] => [(b, 1)]

/-- The body of the encoded stream: the units of each maximal run (41_encoder.md R92). -/
def compressBody (bs : List Byte) : List Byte :=
  ((maximalRuns bs).map fun (c, r) => runBytes c r).flatten

/-- `compress(b) = LE32(n) ++ units(c_1, r_1) ++ ... ++ units(c_p, r_p)` (41_encoder.md R92). -/
def compress (bs : List Byte) : List Byte := leBytes (BitVec.ofNat 32 bs.length) ++ compressBody bs

/-! ### Units -/

/-- An encoded unit of a body (30_encoding.md R56, R57). -/
inductive StreamUnit where
  | lit (v : Byte)
  | esc (v k : Byte)
  deriving DecidableEq, Repr

/-- The bytes of a unit. -/
def StreamUnit.bytes : StreamUnit → List Byte
  | .lit v => [v]
  | .esc v k => [v, v, k]

/-- What a unit stands for: one copy of `v`, or `k` copies (30_encoding.md R56, R57). -/
def StreamUnit.expand : StreamUnit → List Byte
  | .lit v => [v]
  | .esc v k => List.replicate k.toNat v

/-- The unit as an instruction. -/
def StreamUnit.instr : StreamUnit → Instr
  | .lit v => .lit v
  | .esc v k => .esc v k

/-- The units of a body, by the demultiplexer of 30_encoding.md R59 applied from its first byte on (R60). -/
def parseBody : List Byte → List StreamUnit
  | [] => []
  | [c] => [.lit c]
  | [c, d] => [.lit c, .lit d]
  | c :: d :: k :: rest => if d = c then .esc c k :: parseBody rest else .lit c :: parseBody (d :: k :: rest)

/-- A sequence of units splits a body as 30_encoding.md R59 demands: each unit is the one the demultiplexer finds where
the unit before it ended, and the last one ends the body. -/
def followsDemux : List StreamUnit → List Byte → Prop
  | [], bs => bs = []
  | u :: us, bs => ∃ rest, decodeUnit bs = .ok (u.instr, rest) ∧ followsDemux us rest

/-- The bytes of a sequence of units, in order. -/
def unitBytes (us : List StreamUnit) : List Byte := (us.map StreamUnit.bytes).flatten

/-- `units(c, r)` as units: an ESC of 255 for each whole 255 copies, then the rest (41_encoder.md R92). -/
def runUnits (c : Byte) (r : Nat) : List StreamUnit :=
  List.replicate (r / 255) (.esc c 255#8) ++
    (match r % 255 with
    | 0 => []
    | 1 => [.lit c]
    | k + 2 => [.esc c (BitVec.ofNat 8 (k + 2))])

/-- The units ENC emits for a byte sequence (41_encoder.md R92). -/
def compressUnits (bs : List Byte) : List StreamUnit :=
  ((maximalRuns bs).map fun (c, r) => runUnits c r).flatten

/-! ### The decoder -/

/-- `d(s)`: the expansions of a body's units, in order (42_decoder.md R112). -/
def expandUnits (us : List StreamUnit) : List Byte := (us.map StreamUnit.expand).flatten

/-- The end of a DEC job on a stream (42_decoder.md R112). -/
inductive DecodeResult where
  | done (bytes : List Byte)
  | overflow (pos : Nat)
  | underfill (pos : Nat)
  | shortHeader
  deriving DecidableEq, Repr

/-- The stream index of the unit whose expansion crosses `orig`, the first one to ask for a byte beyond it
(42_decoder.md R112): `at0` is the index of the first unit, `w` the bytes produced before it. -/
def crossingUnit (orig : Nat) : (at0 w : Nat) → List StreamUnit → Option Nat
  | _, _, [] => none
  | at0, w, u :: us =>
    if orig < w + u.expand.length then some at0
    else crossingUnit orig (at0 + u.bytes.length) (w + u.expand.length) us

/-- The result of decompressing a stream of which the buffers hold everything (42_decoder.md R112; R98 for a stream
shorter than its header). -/
def decompress : List Byte → DecodeResult
  | b0 :: b1 :: b2 :: b3 :: body =>
    let orig := (ofLeBytes b0 b1 b2 b3).toNat
    let us := parseBody body
    match crossingUnit orig 4 0 us with
    | some pos => .overflow pos
    | none =>
      if (expandUnits us).length = orig then .done (expandUnits us) else .underfill (4 + body.length)
  | _ => .shortHeader

/-! ### Canonical form and size -/

/-- The first byte of a unit. -/
def StreamUnit.first : StreamUnit → Byte
  | .lit v => v
  | .esc v _ => v

/-- May one unit of a canonical stream stand directly before another: after a LIT of `v`, and after an ESC of `v`
with a count below 255, no unit begins with `v` (41_encoder.md R94 (c), (d)). -/
def StreamUnit.mayPrecede (a b : StreamUnit) : Bool :=
  match a with
  | .lit v => decide (b.first ≠ v)
  | .esc v k => k == 255#8 || decide (b.first ≠ v)

/-- "Every ESC has count in [2, 255]" (41_encoder.md R94 (b)). -/
def StreamUnit.countOk : StreamUnit → Bool
  | .lit _ => true
  | .esc _ k => decide (2 ≤ k.toNat)

/-- The canonical form of a body's units (41_encoder.md R94 (b), (c), (d)). -/
def canonicalUnits : List StreamUnit → Bool
  | [] => true
  | [u] => u.countOk
  | u :: v :: rest => u.countOk && u.mayPrecede v && canonicalUnits (v :: rest)

/-- `f` of 41_encoder.md R93: the bytes the rest of a run takes. -/
def restSize : Nat → Nat
  | 0 => 0
  | 1 => 1
  | _ + 2 => 3

end Sys2Proof.Machine
end

