-- ==== Sys2Proof/Safety.lean ====
section
/-! DEFINITION. The invariant of the machine and the words the statements are written in
(spec/10_state.md R20; spec/41_encoder.md R86, R95; spec/42_decoder.md R106, R114; spec/20_memory.md R37). -/

namespace Sys2Proof.Machine

/-! ### The invariant -/

/-- The STATUS invariants of 10_state.md R20 on one engine: (a) at most one of BUSY, DONE, ERR; (b) ERRCODE is not 0
exactly when ERR = 1; (c) ERRDETAIL is not 0 only when ERRCODE = 2. Its (d), "OUT_LEN is not 0 only when DONE = 1", does
not hold after CLR, which clears DONE and keeps OUT_LEN (40_control.md R72). That is a conflict of the spec which it does
not settle itself; the model follows R72, from which R20 is derived (DEDUCED, notes/assumptions/19.md). What every step keeps is that OUT_LEN is 0 while BUSY = 1 and while ERR = 1. -/
def StatusOk (busy : Bool) (r : Regs) : Prop :=
  ¬ (busy = true ∧ r.done = true) ∧ ¬ (busy = true ∧ r.err = true) ∧ ¬ (r.done = true ∧ r.err = true) ∧
  (r.code ≠ .none ↔ r.err = true) ∧
  (r.detail ≠ .none → r.code = .malformedEncoding) ∧
  (r.outLen ≠ 0#64 → busy = false ∧ r.err = false)

/-- Every buffer is in canonical form and holds nothing at or above its capacity (20_memory.md R37). -/
def BuffersOk (s : State) : Prop := ∀ b : Buffer, (s.mem b).wf ∧ (s.mem b).within (s.cap b)

/-- The working registers of ENC between two steps of the scan: the counted run from `run_start` to `i - 1` is at most
255 bytes long, is not empty after the first byte, and is made of `run_char` (41_encoder.md R86, R87); the output is
within DST and within the bound of 41_encoder.md R95; HDR_LEN is `n` (10_state.md R26). -/
def EncScanOk (s : State) : Prop :=
  let j := s.enc.job
  j.n.toNat < 2 ^ 32 ∧ j.n.toNat ≤ s.cap .encSrc ∧
  j.runStart.toNat ≤ j.i.toNat ∧ j.i.toNat - j.runStart.toNat ≤ 255 ∧
  (0 < j.i.toNat → j.runStart.toNat < j.i.toNat) ∧
  (∀ k, j.runStart.toNat ≤ k → k < j.i.toNat → s.byteAt .encSrc k = j.runChar) ∧
  4 ≤ j.outPos.toNat ∧ j.outPos.toNat ≤ s.cap .encDst ∧ 2 * j.outPos.toNat ≤ 8 + 3 * j.runStart.toNat ∧
  s.enc.regs.hdrLen.toNat = j.n.toNat

/-- ENC's working registers fit its phase (41_encoder.md R79, R80, R85, R86, R95). -/
def EncJobOk (s : State) : Prop :=
  let j := s.enc.job
  match s.enc.phase with
  | .idle => True
  | .header =>
    j.n.toNat < 2 ^ 32 ∧ j.n.toNat ≤ s.cap .encSrc ∧
    j.i = 0#64 ∧ j.runStart = 0#64 ∧ j.runChar = 0#8 ∧ j.outPos = 0#64
  | .scan => j.i.toNat < j.n.toNat ∧ EncScanOk s
  | .tail => j.i = j.n ∧ EncScanOk s

/-- The working registers of DEC from the HEADER step on (42_decoder.md R106, R114; 10_state.md R26). -/
def DecBodyOk (s : State) : Prop :=
  let j := s.dec.job
  4 ≤ j.i.toNat ∧ j.len.toNat ≤ s.cap .decSrc ∧ j.w.toNat ≤ j.orig.toNat ∧ j.orig.toNat ≤ s.cap .decDst ∧
  s.dec.regs.hdrLen = j.orig

/-- DEC's working registers fit its phase (42_decoder.md R97, R98, R102, R108, R114). -/
def DecJobOk (s : State) : Prop :=
  let j := s.dec.job
  match s.dec.phase with
  | .idle => True
  | .header => 4 ≤ j.len.toNat ∧ j.len.toNat ≤ s.cap .decSrc ∧ j.i = 0#64 ∧ j.w = 0#64 ∧ j.orig = 0#32
  | .body => j.i.toNat < j.len.toNat ∧ DecBodyOk s
  | .check => j.i = j.len ∧ DecBodyOk s

/-- The codes each engine can record (60_exceptions.md R118; 42_decoder.md R99). -/
def CodesOk (s : State) : Prop :=
  s.enc.regs.code ≠ .malformedEncoding ∧ s.dec.regs.code ≠ .inputTooLarge

/-- The invariant every step keeps. -/
structure Inv (s : State) : Prop where
  encStatus : StatusOk s.enc.phase.busy s.enc.regs
  decStatus : StatusOk s.dec.phase.busy s.dec.regs
  buffers : BuffersOk s
  encJob : EncJobOk s
  decJob : DecJobOk s
  codes : CodesOk s

/-! ### Words of the statements -/

/-- The buffer holds these bytes from index `at0` on. -/
def Holds (s : State) (b : Buffer) (at0 : Nat) (bs : List Byte) : Prop :=
  ∀ (j : Nat) (h : j < bs.length), s.byteAt b (at0 + j) = bs[j]

/-- Every byte of every buffer reads in `t` as in `s`. -/
def SameBytes (s t : State) : Prop := ∀ (b : Buffer) (k : Nat), t.byteAt b k = s.byteAt b k

/-- Every byte of every buffer reads in `t` as in `s`, but for the `size` bytes of buffer `b` from index `at0` on. -/
def SameBytesBut (b : Buffer) (at0 size : Nat) (s t : State) : Prop :=
  ∀ (b' : Buffer) (k : Nat), (b' ≠ b ∨ k < at0 ∨ at0 + size ≤ k) → t.byteAt b' k = s.byteAt b' k

/-- Every name but `x` is bound in `t` to what it is bound to in `s`, or is bound in neither (30_encoding.md R68). -/
def SameNamesBut (x : Name) (s t : State) : Prop := ∀ y : Name, y ≠ x → t.names.get y = s.names.get y

/-- The host's next line reads with `i` and binds `x`: an RD32 or an RDB with that name, at the index its operand gives,
or a POLL, whose RD32 binds its `t` (30_encoding.md R68). -/
def ReadBinds (s : State) (i : Instr) (x : Name) : Prop :=
  ∃ line p, s.program = line :: p ∧
    ((∃ e r, line = .named (.rd32 e r x) ∧ i = .rd32 e r) ∨
     (∃ b k n, line = .named (.rdb b k x) ∧ s.operand k = some n ∧ i = .rdb b (BitVec.ofNat 64 n)) ∨
     (x = pollName ∧ ∃ e r mask value, line = .poll e r mask value ∧ i = .rd32 e r))

/-- `k` moves in a row by one agent (00_scope.md R11; 70_reset_and_hazards.md R145 counts these). -/
def movesOf (a : Agent) : (k : Nat) → State → Host.Outcome State Fault Refusal
  | 0, s => .next s
  | k + 1, s =>
    match step { s with schedule := a :: s.schedule } with
    | .next t => movesOf a k t
    | .fault f => .fault f
    | .refused r => .refused r

/-- The value a read of a register returns, field by field (10_state.md R17 to R27). -/
def RegisterReads (s : State) (e : Engine) (r : Reg) (v : Word) : Prop :=
  match r with
  | .ctrl => v = 0#32
  | .status =>
    v.getLsbD 0 = s.busy e ∧ v.getLsbD 1 = (s.regs e).done ∧ v.getLsbD 2 = (s.regs e).err ∧
    v.getLsbD 3 = (((s.regs e).done && (s.regs e).doneIe) || ((s.regs e).err && (s.regs e).errIe)) ∧
    v.extractLsb' 4 4 = (s.regs e).code.bits ∧ v.extractLsb' 8 4 = (s.regs e).detail.bits ∧
    v.extractLsb' 12 20 = 0#20
  | .irqEn => v.getLsbD 0 = (s.regs e).doneIe ∧ v.getLsbD 1 = (s.regs e).errIe ∧ v.extractLsb' 2 30 = 0#30
  | .reserved0C => v = 0#32
  | .srcLenLo => v.toNat = (s.regs e).srcLen.toNat % 2 ^ 32
  | .srcLenHi => v.toNat = (s.regs e).srcLen.toNat / 2 ^ 32
  | .outLenLo => v.toNat = (s.regs e).outLen.toNat % 2 ^ 32
  | .outLenHi => v.toNat = (s.regs e).outLen.toNat / 2 ^ 32
  | .errPosLo => v.toNat = (s.regs e).errPos.toNat % 2 ^ 32
  | .errPosHi => v.toNat = (s.regs e).errPos.toNat / 2 ^ 32
  | .srcCapLo => v.toNat = s.cap (srcOf e) % 2 ^ 32
  | .srcCapHi => v.toNat = s.cap (srcOf e) / 2 ^ 32
  | .dstCapLo => v.toNat = s.cap (dstOf e) % 2 ^ 32
  | .dstCapHi => v.toNat = s.cap (dstOf e) / 2 ^ 32
  | .hdrLen => v = (s.regs e).hdrLen
  | .reserved3C => v = 0#32

end Sys2Proof.Machine
end

