-- ==== Sys2Proof/Certificates/Slice0/Obligations.lean ====
section
/-! DEFINITION. The statements for the provers, from the numbered rules of spec/. -/

open Sys2Proof Sys2Proof.Machine

/-! ### Encodings -/

/-- Decoding what the encoder makes of a well-formed instruction gives that instruction back, every operand at every
value; a WR32 comes back as the more specific row its register and data match, notes/assumptions/8.md
(30_encoding.md, "Host command encoding" and "The wire format"). -/
def Obligations.DecodeOfEncodeIsTheInstruction : Prop :=
  ∀ i : Instr, i.wellFormed = true →
    decode (encode i) = .ok i.specific ∧ ((∀ e r data, i ≠ .wr32 e r data) → i.specific = i)

/-- Words written out from the spec: the header and units of V-S01, and bus operations of P1 and P2
(95_test_vectors.md). -/
def Obligations.WordsOfTheSpecDecode : Prop :=
  decode (.stream .header [0x13#8, 0x00#8, 0x00#8, 0x00#8]) = .ok (.hdr 19#32) ∧
  decode (.stream .body [0x63#8]) = .ok (.lit 0x63#8) ∧
  decode (.stream .body [0x61#8, 0x61#8, 0x05#8]) = .ok (.esc 0x61#8 0x05#8) ∧
  decode (.bus (.regWrite 32 0x00#7 0x00000001#32)) = .ok (.encStart 0x00000001#32) ∧
  decode (.bus (.regWrite 32 0x40#7 0x00000002#32)) = .ok (.decClr 0x00000002#32) ∧
  decode (.bus (.regWrite 32 0x48#7 0x00000001#32)) = .ok (.irqEnWr .dec 0x00000001#32) ∧
  decode (.bus (.regWrite 32 0x14#7 0x00000000#32)) = .ok (.srcLenWr .enc .hi 0x00000000#32) ∧
  decode (.bus (.regRead 32 0x58#7)) = .ok (.rd32 .dec .outLenLo)

/-- A register access decodes exactly when it is 32 bits wide at an offset that is a multiple of 4, a buffer access
always; the host's move is refused otherwise, and so is an RDB or WRB at or above the capacity
(20_memory.md R43; 60_exceptions.md R135). -/
def Obligations.BusErrorsAreRefused : Prop :=
  (∀ (width : Nat) (off : BitVec 7),
    (∃ i, decodeBus (.regRead width off) = .ok i) ↔ (width = 32 ∧ off.toNat % 4 = 0)) ∧
  (∀ (width : Nat) (off : BitVec 7) (data : Word),
    (∃ i, decodeBus (.regWrite width off data) = .ok i) ↔ (width = 32 ∧ off.toNat % 4 = 0)) ∧
  (∀ (b : Buffer) (idx : Word64) (data : Byte),
    decodeBus (.bufRead b idx) = .ok (.rdb b idx) ∧ decodeBus (.bufWrite b idx data) = .ok (.wrb b idx data)) ∧
  (∀ (s : State) (a : BusAccess) (err : DecodeError) (p : List HostLine) (rest : List Agent),
    decodeBus a = .error err → s.program = .access a :: p → s.schedule = .host :: rest →
    step s = .refused (.busError err)) ∧
  (∀ (s : State) (b : Buffer) (idx : Word64) (data : Byte), s.cap b ≤ idx.toNat →
    exec (.rdb b idx) s = .refused (.indexBeyondCapacity b idx) ∧
    ∃ r, exec (.wrb b idx data) s = .refused r)

/-- A CTRL write is the command that `data[1:0]` selects, for both engines (30_encoding.md R64). -/
def Obligations.CtrlCommandIsSelectedByTwoBits : Prop :=
  ∀ data : Word,
    (data &&& 1#32 = 1#32 →
      decodeBus (.regWrite 32 0x00#7 data) = .ok (.encStart data) ∧
      decodeBus (.regWrite 32 0x40#7 data) = .ok (.decStart data)) ∧
    (data &&& 3#32 = 2#32 →
      decodeBus (.regWrite 32 0x00#7 data) = .ok (.encClr data) ∧
      decodeBus (.regWrite 32 0x40#7 data) = .ok (.decClr data)) ∧
    (data &&& 3#32 = 0#32 →
      decodeBus (.regWrite 32 0x00#7 data) = .ok (.encNop data) ∧
      decodeBus (.regWrite 32 0x40#7 data) = .ok (.decNop data))

/-- The unit that starts at stream index `i` is an ESC exactly when two more bytes follow and the next one is equal,
else a LIT (30_encoding.md R59). -/
def Obligations.UnitKindByTheNextByte : Prop :=
  ∀ (stream : List Byte) (i : Nat), i < stream.length →
    (i + 2 < stream.length ∧ stream.getD (i + 1) 0#8 = stream.getD i 0#8 →
      decodeUnit (stream.drop i) =
        .ok (.esc (stream.getD i 0#8) (stream.getD (i + 2) 0#8), stream.drop (i + 3))) ∧
    (¬ (i + 2 < stream.length ∧ stream.getD (i + 1) 0#8 = stream.getD i 0#8) →
      decodeUnit (stream.drop i) = .ok (.lit (stream.getD i 0#8), stream.drop (i + 1)))

/-- Every body splits into units in exactly one way, and the units' bytes are the body (30_encoding.md, "The wire
format": "The parse is total and unique"). -/
def Obligations.BodyParsesInExactlyOneWay : Prop :=
  ∀ body : List Byte,
    (∀ us : List StreamUnit, followsDemux us body ↔ us = parseBody body) ∧ unitBytes (parseBody body) = body

/-- The parse gives back the units of a canonical stream (41_encoder.md, "Canonical form"). -/
def Obligations.CanonicalUnitsParseBack : Prop :=
  ∀ us : List StreamUnit, canonicalUnits us = true → parseBody (unitBytes us) = us

/-! ### The codec as functions -/

/-- The streams of the closed form are canonical: the header is the length, counts are 2 to 255, no LIT or short ESC is
followed by a unit of the same byte, and the body parses into exactly the units emitted, which expand to the input
(41_encoder.md R94). -/
def Obligations.CompressedStreamsAreCanonical : Prop :=
  ∀ b : List Byte, b.length < 2 ^ 32 →
    (∃ b0 b1 b2 b3, compress b = b0 :: b1 :: b2 :: b3 :: compressBody b ∧ (ofLeBytes b0 b1 b2 b3).toNat = b.length) ∧
    canonicalUnits (compressUnits b) = true ∧
    parseBody (compressBody b) = compressUnits b ∧
    expandUnits (compressUnits b) = b

/-- "for all byte sequences b with len(b) < 2^32, decompress(compress(b)) == b", on the closed forms of both engines
(41_encoder.md, 42_decoder.md "the laws it keeps"). -/
def Obligations.DecompressOfCompressIsTheInput : Prop :=
  ∀ b : List Byte, b.length < 2 ^ 32 → decompress (compress b) = .done b

/-- The exact output size, its bound, and the inputs that reach the bound (41_encoder.md R93). -/
def Obligations.CompressedSizeIsBounded : Prop :=
  (∀ b : List Byte,
    (compress b).length = 4 + ((maximalRuns b).map fun p => 3 * (p.2 / 255) + restSize (p.2 % 255)).sum ∧
    (compress b).length ≤ 4 + 3 * b.length / 2) ∧
  (∀ b : List Byte, (∀ p ∈ maximalRuns b, p.2 = 1 ∨ p.2 = 2) → ((maximalRuns b).filter fun p => p.2 = 1).length ≤ 1 →
    (compress b).length = 4 + 3 * b.length / 2) ∧
  (∀ b : List Byte, b.length ≤ 2 ^ 32 - 1 → (compress b).length ≤ 6442450946)

/-! ### Host operations -/

/-- RD32 completes in every state, hands the host the register's value and changes nothing else
(40_control.md RD32; 10_state.md, the register map). -/
def Obligations.ReadRegisterReturnsItsFields : Prop :=
  ∀ (s : State) (e : Engine) (r : Reg),
    ∃ v, exec (.rd32 e r) s = .next { s with reads := .word v :: s.reads } ∧ RegisterReads s e r v

/-- The interrupt line is `(DONE & DONE_IE) | (ERR & ERR_IE)` in every state, and STATUS.IRQ reads the same value
(10_state.md R29). -/
def Obligations.InterruptLineFollowsItsCauses : Prop :=
  ∀ (s : State) (e : Engine),
    s.irqLine e = (((s.regs e).done && (s.regs e).doneIe) || ((s.regs e).err && (s.regs e).errIe)) ∧
    (s.readReg e .status).getLsbD 3 = s.irqLine e

/-- WR32 completes in every state, does what its most specific row does, and that is the case of 40_control.md WR32
the register selects. -/
def Obligations.WriteRegisterByOffset : Prop :=
  ∀ (s : State) (e : Engine) (r : Reg) (data : Word),
    ∃ t, exec (.wr32 e r data) s = .next t ∧ exec (decodeWrite e r data) s = .next t ∧
      (r = .ctrl → exec (decodeCommand e data) s = .next t) ∧
      (r = .irqEn → t = s.updRegs e fun g => { g with doneIe := data.getLsbD 0, errIe := data.getLsbD 1 }) ∧
      (r = .srcLenLo → t = s.updRegs e fun g =>
        { g with srcLen := BitVec.ofNat 64 (g.srcLen.toNat / 2 ^ 32 * 2 ^ 32 + data.toNat) }) ∧
      (r = .srcLenHi → t = s.updRegs e fun g =>
        { g with srcLen := BitVec.ofNat 64 (data.toNat * 2 ^ 32 + g.srcLen.toNat % 2 ^ 32) }) ∧
      (r ≠ .ctrl → r ≠ .irqEn → r ≠ .srcLenLo → r ≠ .srcLenHi → t = s)

/-- ENC.START on an idle ENC: the length is latched, the status cleared and the working registers set; then
InputTooLarge from 2^32 on, else BufferBounds above the capacity, else the job begins
(41_encoder.md R79, R80, R81). Everything else is unchanged. -/
def Obligations.EncStartChecksTheLength : Prop :=
  ∀ (s : State) (data : Word), s.enc.phase = .idle →
    let job : EncJob := { n := s.enc.regs.srcLen, i := 0#64, runStart := 0#64, runChar := 0#8, outPos := 0#64 }
    let cleared : Regs := { s.enc.regs with
      done := false, err := false, code := .none, detail := .none, errPos := 0#64, outLen := 0#64, hdrLen := 0#32 }
    (s.enc.regs.srcLen.toNat < 2 ^ 32 → s.enc.regs.srcLen.toNat ≤ s.cap .encSrc →
      exec (.encStart data) s =
        .next { s with enc := { s.enc with phase := .header, regs := cleared, job := job } }) ∧
    (2 ^ 32 ≤ s.enc.regs.srcLen.toNat →
      exec (.encStart data) s =
        .next { s with enc := { s.enc with
          phase := .idle, regs := { cleared with err := true, code := .inputTooLarge }, job := job } }) ∧
    (s.enc.regs.srcLen.toNat < 2 ^ 32 → s.cap .encSrc < s.enc.regs.srcLen.toNat →
      exec (.encStart data) s =
        .next { s with enc := { s.enc with
          phase := .idle, regs := { cleared with err := true, code := .bufferBounds }, job := job } })

/-- DEC.START on an idle DEC: the length is latched, the status cleared and the working registers cleared; then
BufferBounds above the capacity, else SHORT_HEADER below 4, else the job begins; no length is too large
(42_decoder.md R97, R98, R99). Everything else is unchanged. -/
def Obligations.DecStartChecksTheLength : Prop :=
  ∀ (s : State) (data : Word), s.dec.phase = .idle →
    let job : DecJob := { len := s.dec.regs.srcLen, i := 0#64, w := 0#64, orig := 0#32 }
    let cleared : Regs := { s.dec.regs with
      done := false, err := false, code := .none, detail := .none, errPos := 0#64, outLen := 0#64, hdrLen := 0#32 }
    (4 ≤ s.dec.regs.srcLen.toNat → s.dec.regs.srcLen.toNat ≤ s.cap .decSrc →
      exec (.decStart data) s =
        .next { s with dec := { s.dec with phase := .header, regs := cleared, job := job } }) ∧
    (s.cap .decSrc < s.dec.regs.srcLen.toNat →
      exec (.decStart data) s =
        .next { s with dec := { s.dec with
          phase := .idle, regs := { cleared with err := true, code := .bufferBounds }, job := job } }) ∧
    (s.dec.regs.srcLen.toNat ≤ s.cap .decSrc → s.dec.regs.srcLen.toNat < 4 →
      exec (.decStart data) s =
        .next { s with dec := { s.dec with
          phase := .idle, regs := { cleared with err := true, code := .malformedEncoding, detail := .shortHeader },
          job := job } })

/-- A START written while the engine is busy is ignored without any report (70_reset_and_hazards.md R141). -/
def Obligations.StartWhileBusyIsIgnored : Prop :=
  ∀ (s : State) (data : Word),
    (s.busy .enc = true → exec (.encStart data) s = .next s) ∧
    (s.busy .dec = true → exec (.decStart data) s = .next s)

/-- CLR is the CTRL write with `data[1:0] = 10`. On an idle engine it clears DONE, ERR, ERRCODE, ERRDETAIL and ERR_POS,
drops the interrupt line and leaves everything else, OUT_LEN and HDR_LEN included; a busy engine ignores it
(40_control.md R72). -/
def Obligations.ClearDropsTheStatusOnly : Prop :=
  ∀ (s : State) (data : Word),
    (s.enc.phase = .idle →
      exec (.encClr data) s = .next { s with enc := { s.enc with regs := { s.enc.regs with
        done := false, err := false, code := .none, detail := .none, errPos := 0#64 } } } ∧
      ∀ t, exec (.encClr data) s = .next t → t.irqLine .enc = false) ∧
    (s.dec.phase = .idle →
      exec (.decClr data) s = .next { s with dec := { s.dec with regs := { s.dec.regs with
        done := false, err := false, code := .none, detail := .none, errPos := 0#64 } } } ∧
      ∀ t, exec (.decClr data) s = .next t → t.irqLine .dec = false) ∧
    (s.busy .enc = true → exec (.encClr data) s = .next s) ∧
    (s.busy .dec = true → exec (.decClr data) s = .next s) ∧
    (data &&& 3#32 = 2#32 → decodeBus (.regWrite 32 0x00#7 data) = .ok (.encClr data) ∧
      decodeBus (.regWrite 32 0x40#7 data) = .ok (.decClr data))

/-- A CTRL write with `data[1:0] = 00` changes nothing (40_control.md R73). -/
def Obligations.NopChangesNothing : Prop :=
  ∀ (s : State) (data : Word),
    exec (.encNop data) s = .next s ∧ exec (.decNop data) s = .next s ∧
    (data &&& 3#32 = 0#32 → decodeBus (.regWrite 32 0x00#7 data) = .ok (.encNop data) ∧
      decodeBus (.regWrite 32 0x40#7 data) = .ok (.decNop data))

/-- An IRQ_EN write, a WR32 at 0x08 or 0x48, stores `data[1:0]` and nothing else; the register then reads `data & 3` and
the line follows at once (40_control.md R74). -/
def Obligations.IrqEnableWriteTakesEffectAtOnce : Prop :=
  (∀ data : Word, decodeBus (.regWrite 32 0x08#7 data) = .ok (.irqEnWr .enc data) ∧
    decodeBus (.regWrite 32 0x48#7 data) = .ok (.irqEnWr .dec data)) ∧
  ∀ (s : State) (e : Engine) (data : Word),
    ∃ t, exec (.irqEnWr e data) s = .next t ∧
      t = (s.updRegs e fun g => { g with doneIe := data.getLsbD 0, errIe := data.getLsbD 1 }) ∧
      t.readReg e .irqEn = data &&& 3#32 ∧
      t.irqLine e = (((s.regs e).done && data.getLsbD 0) || ((s.regs e).err && data.getLsbD 1))

/-- A SRC_LEN write, a WR32 at 0x10 or 0x14 (ENC), 0x50 or 0x54 (DEC), replaces one 32-bit half of SRC_LEN and nothing
else, so a running job keeps the length it latched; the halves of a number written low then high make SRC_LEN that number (40_control.md R75; 30_encoding.md, SETLEN). -/
def Obligations.SourceLengthIsWrittenByHalves : Prop :=
  (∀ data : Word, decodeBus (.regWrite 32 0x10#7 data) = .ok (.srcLenWr .enc .lo data) ∧
    decodeBus (.regWrite 32 0x14#7 data) = .ok (.srcLenWr .enc .hi data) ∧
    decodeBus (.regWrite 32 0x50#7 data) = .ok (.srcLenWr .dec .lo data) ∧
    decodeBus (.regWrite 32 0x54#7 data) = .ok (.srcLenWr .dec .hi data)) ∧
  (∀ (s : State) (e : Engine) (data : Word),
    exec (.srcLenWr e .lo data) s = .next (s.updRegs e fun g =>
      { g with srcLen := BitVec.ofNat 64 (g.srcLen.toNat / 2 ^ 32 * 2 ^ 32 + data.toNat) }) ∧
    exec (.srcLenWr e .hi data) s = .next (s.updRegs e fun g =>
      { g with srcLen := BitVec.ofNat 64 (data.toNat * 2 ^ 32 + g.srcLen.toNat % 2 ^ 32) })) ∧
  (∀ (s : State) (e : Engine) (n : Word64),
    ∃ t, exec (.srcLenWr e .lo (n.extractLsb' 0 32)) s = .next t ∧
      exec (.srcLenWr e .hi (n.extractLsb' 32 32)) t = .next (s.updRegs e fun g => { g with srcLen := n }))

/-- A write to a read-only register or a reserved offset has no effect and raises nothing (40_control.md R76). -/
def Obligations.ReadOnlyRegistersIgnoreWrites : Prop :=
  ∀ (s : State) (e : Engine) (r : Reg) (data : Word), r.readOnly = true →
    decodeBus (.regWrite 32 (Reg.offset e r) data) = .ok (.roWr e r data) ∧ exec (.roWr e r data) s = .next s

/-- RDB below the capacity completes, hands the host the byte and changes nothing else, whether the engine is busy or
not; at or above the capacity it is refused (40_control.md R77). -/
def Obligations.ReadByteReturnsTheByte : Prop :=
  ∀ (s : State) (b : Buffer) (idx : Word64),
    decodeBus (.bufRead b idx) = .ok (.rdb b idx) ∧
    (idx.toNat < s.cap b → exec (.rdb b idx) s = .next { s with reads := .byte (s.byteAt b idx.toNat) :: s.reads }) ∧
    (s.cap b ≤ idx.toNat → exec (.rdb b idx) s = .refused (.indexBeyondCapacity b idx))

/-- WRB below the capacity to an idle engine's buffer completes: that byte reads as the data, every other byte of
every buffer and all the rest of the state as before; at or above the capacity it is refused (40_control.md R78). The
write to a busy engine's buffer, which R78 leaves to a duty of the host, is Obligations.BusyBufferWritesAreRefused. -/
def Obligations.WriteByteChangesOneByte : Prop :=
  ∀ (s : State) (b : Buffer) (idx : Word64) (data : Byte),
    (s.busy b.engine = false → idx.toNat < s.cap b →
      ∃ t, exec (.wrb b idx data) s = .next t ∧ t.byteAt b idx.toNat = data ∧
        SameBytesBut b idx.toNat 1 s t ∧ t = s.setMem b (t.mem b)) ∧
    decodeBus (.bufWrite b idx data) = .ok (.wrb b idx data) ∧
    (s.busy b.engine = false → s.cap b ≤ idx.toNat →
      exec (.wrb b idx data) s = .refused (.indexBeyondCapacity b idx))

/-- In every state, an RDB of a buffer byte that nothing has written since the last reset hands the host the free value
of 20_memory.md (R39) and changes nothing else, whatever that value is: the statement holds for every value of it
(notes/assumptions/2.md, 3.md). After reset every byte is such a byte. That the value read stands in `reads` is the
model's choice (notes/assumptions/6.md). -/
def Obligations.UnwrittenByteReadsAsTheFreeValue : Prop :=
  (∀ (s : State) (b : Buffer) (idx : Word64), (s.mem b).get idx.toNat = none → idx.toNat < s.cap b →
    exec (.rdb b idx) s = .next { s with reads := .byte (Config.freeByte s.epoch b idx.toNat) :: s.reads }) ∧
  (∀ (caps : Capacities) (b : Buffer) (k : Nat), ((State.resetWith caps).mem b).get k = none) ∧
  (∀ (s : State) (b : Buffer) (k : Nat), (s.applyReset.mem b).get k = none)

/-! ### DEC's instructions and steps -/

/-- HDR sets HDR_LEN and the job's `original_length`; it faults with AllocationFailure where DST is smaller, keeping
HDR_LEN, else the body begins at 4, or the check where the stream ends there. Everything else is unchanged
(42_decoder.md, HEADER step). That is the spec's in phase HEADER, the only phase in which a step runs HDR; in another
phase the meaning is the model's choice (notes/assumptions/14.md). -/
def Obligations.HeaderUnitSetsTheLength : Prop :=
  ∀ (s : State) (orig : Word),
    (orig.toNat ≤ s.cap .decDst →
      exec (.hdr orig) s = .next { s with dec := { s.dec with
        phase := if s.dec.job.len = 4#64 then .check else .body,
        regs := { s.dec.regs with hdrLen := orig },
        job := { s.dec.job with i := 4#64, w := 0#64, orig := orig } } }) ∧
    (s.cap .decDst < orig.toNat →
      exec (.hdr orig) s = .next { s with dec := { s.dec with
        phase := .idle,
        regs := { s.dec.regs with
          hdrLen := orig, err := true, code := .allocationFailure, detail := .none, errPos := 0#64 },
        job := { s.dec.job with orig := orig } } })

/-- LIT appends its byte at `w` and moves `i` on by 1; at a full output it raises OVERFLOW at `i` and writes nothing.
Everything else is unchanged (42_decoder.md, Append and the LIT case). That is the spec's in phase BODY, the only phase
in which a step runs LIT; in another phase the meaning is the model's choice (notes/assumptions/14.md). -/
def Obligations.LiteralUnitAppendsOneByte : Prop :=
  ∀ (s : State) (v : Byte),
    (s.dec.job.w.toNat < s.dec.job.orig.toNat → s.dec.job.orig.toNat ≤ s.cap .decDst →
      ∃ t, exec (.lit v) s = .next t ∧
        t = { s with dec := { s.dec with
          phase := if s.dec.job.i + 1#64 = s.dec.job.len then .check else s.dec.phase,
          job := { s.dec.job with i := s.dec.job.i + 1#64, w := s.dec.job.w + 1#64 },
          dst := t.dec.dst } } ∧
        Holds t .decDst s.dec.job.w.toNat [v] ∧ SameBytesBut .decDst s.dec.job.w.toNat 1 s t) ∧
    (s.dec.job.orig.toNat ≤ s.dec.job.w.toNat →
      exec (.lit v) s = .next { s with dec := { s.dec with
        phase := .idle,
        regs := { s.dec.regs with
          err := true, code := .malformedEncoding, detail := .overflow, errPos := s.dec.job.i } } })

/-- ESC appends `count` copies, 0 to 255, and moves `i` on by 3; where they do not all fit, the copies that fit stay
written and OVERFLOW is raised at `i`. Everything else is unchanged (42_decoder.md, the ESC case and its counts). That
is the spec's in phase BODY, the only phase in which a step runs ESC; in another phase the meaning is the model's choice
(notes/assumptions/14.md). -/
def Obligations.EscapeUnitAppendsItsCopies : Prop :=
  ∀ (s : State) (v count : Byte), s.dec.job.orig.toNat ≤ s.cap .decDst →
    (s.dec.job.w.toNat + count.toNat ≤ s.dec.job.orig.toNat →
      ∃ t, exec (.esc v count) s = .next t ∧
        t = { s with dec := { s.dec with
          phase := if s.dec.job.i + 3#64 = s.dec.job.len then .check else s.dec.phase,
          job := { s.dec.job with
            i := s.dec.job.i + 3#64, w := BitVec.ofNat 64 (s.dec.job.w.toNat + count.toNat) },
          dst := t.dec.dst } } ∧
        Holds t .decDst s.dec.job.w.toNat (List.replicate count.toNat v) ∧
        SameBytesBut .decDst s.dec.job.w.toNat count.toNat s t) ∧
    (s.dec.job.w.toNat ≤ s.dec.job.orig.toNat → s.dec.job.orig.toNat < s.dec.job.w.toNat + count.toNat →
      ∃ t, exec (.esc v count) s = .next t ∧
        t = { s with dec := { s.dec with
          phase := .idle,
          regs := { s.dec.regs with
            err := true, code := .malformedEncoding, detail := .overflow, errPos := s.dec.job.i },
          job := { s.dec.job with w := s.dec.job.orig.setWidth 64 },
          dst := t.dec.dst } } ∧
        Holds t .decDst s.dec.job.w.toNat (List.replicate (s.dec.job.orig.toNat - s.dec.job.w.toNat) v) ∧
        SameBytesBut .decDst s.dec.job.w.toNat (s.dec.job.orig.toNat - s.dec.job.w.toNat) s t)

/-- DEC's HEADER step runs the header that SRC[0..3] holds, little-endian (42_decoder.md R100 with 30_encoding.md R58). -/
def Obligations.HeaderStepRunsTheFetchedHeader : Prop :=
  ∀ (s : State) (rest : List Agent), s.schedule = .dec :: rest → s.dec.phase = .header → 4 ≤ s.cap .decSrc →
    ∃ orig : Word,
      orig.toNat = (s.byteAt .decSrc 0).toNat + 2 ^ 8 * (s.byteAt .decSrc 1).toNat +
        2 ^ 16 * (s.byteAt .decSrc 2).toNat + 2 ^ 24 * (s.byteAt .decSrc 3).toNat ∧
      step s = exec (.hdr orig) { s with schedule := rest }

/-- DEC's BODY step runs the unit that stands at `i` (42_decoder.md R102; 30_encoding.md R59). -/
def Obligations.BodyStepRunsTheFetchedUnit : Prop :=
  ∀ (s : State) (rest : List Agent), s.schedule = .dec :: rest → s.dec.phase = .body →
    s.dec.job.i.toNat < s.dec.job.len.toNat → s.dec.job.len.toNat ≤ s.cap .decSrc →
    let i := s.dec.job.i.toNat
    (i + 2 < s.dec.job.len.toNat ∧ s.byteAt .decSrc (i + 1) = s.byteAt .decSrc i →
      step s = exec (.esc (s.byteAt .decSrc i) (s.byteAt .decSrc (i + 2))) { s with schedule := rest }) ∧
    (¬ (i + 2 < s.dec.job.len.toNat ∧ s.byteAt .decSrc (i + 1) = s.byteAt .decSrc i) →
      step s = exec (.lit (s.byteAt .decSrc i)) { s with schedule := rest })

/-- DEC's CHECK step completes the job where exactly `original_length` bytes were produced and raises UNDERFILL at `L`
otherwise (42_decoder.md R110, R111). Everything else is unchanged. -/
def Obligations.CheckStepDemandsAnExactFill : Prop :=
  ∀ (s : State) (rest : List Agent), s.schedule = .dec :: rest → s.dec.phase = .check →
    (s.dec.job.w.toNat = s.dec.job.orig.toNat →
      step s = .next { s with
        schedule := rest,
        dec := { s.dec with
          phase := .idle,
          regs := { s.dec.regs with done := true, outLen := s.dec.job.orig.setWidth 64 } } }) ∧
    (s.dec.job.w.toNat ≠ s.dec.job.orig.toNat →
      step s = .next { s with
        schedule := rest,
        dec := { s.dec with
          phase := .idle,
          regs := { s.dec.regs with
            err := true, code := .malformedEncoding, detail := .underfill, errPos := s.dec.job.len } } })

/-! ### ENC's steps -/

/-- ENC's HEADER step writes the length little-endian to DST[0..3] and sets HDR_LEN; with fewer than 4 bytes of DST it
raises AllocationFailure at 0 and writes nothing (41_encoder.md R82). Everything else is unchanged. -/
def Obligations.EncHeaderStepWritesTheLength : Prop :=
  ∀ (s : State) (rest : List Agent), s.schedule = .enc :: rest → s.enc.phase = .header →
    let n := s.enc.job.n
    (4 ≤ s.cap .encDst →
      ∃ t, step s = .next t ∧
        t = { s with
          schedule := rest,
          enc := { s.enc with
            phase := if n = 0#64 then .tail else .scan,
            regs := { s.enc.regs with hdrLen := n.setWidth 32 },
            job := { s.enc.job with outPos := 4#64 },
            dst := t.enc.dst } } ∧
        Holds t .encDst 0 [n.extractLsb' 0 8, n.extractLsb' 8 8, n.extractLsb' 16 8, n.extractLsb' 24 8] ∧
        SameBytesBut .encDst 0 4 s t) ∧
    (s.cap .encDst < 4 →
      step s = .next { s with
        schedule := rest,
        enc := { s.enc with
          phase := .idle,
          regs := { s.enc.regs with err := true, code := .allocationFailure, detail := .none, errPos := 0#64 } } })

/-- ENC's SCAN step: a byte that continues a run shorter than 255 only moves `i` on. Any other byte first flushes the
run, as nothing, a LIT or an ESC by its length, and then starts a new run at `i`; where the unit does not fit, nothing
of it is written and AllocationFailure is raised at `i` (41_encoder.md R83, R84, R85, R88). Everything else is
unchanged. -/
def Obligations.EncScanStepTakesOneByte : Prop :=
  ∀ (s : State) (rest : List Agent), s.schedule = .enc :: rest → s.enc.phase = .scan →
    s.enc.job.i.toNat < s.cap .encSrc → s.enc.job.runStart.toNat ≤ s.enc.job.i.toNat →
    s.enc.job.outPos.toNat ≤ s.cap .encDst →
    let j := s.enc.job
    let c := s.byteAt .encSrc j.i.toNat
    let length := j.i.toNat - j.runStart.toNat
    let u := if length = 0 then [] else if length = 1 then [j.runChar]
      else [j.runChar, j.runChar, BitVec.ofNat 8 length]
    let phase' := if j.i + 1#64 = j.n then EncPhase.tail else EncPhase.scan
    (c = j.runChar → length ≠ 255 →
      step s = .next { s with
        schedule := rest, enc := { s.enc with phase := phase', job := { j with i := j.i + 1#64 } } }) ∧
    (c ≠ j.runChar ∨ length = 255 → j.outPos.toNat + u.length ≤ s.cap .encDst →
      ∃ t, step s = .next t ∧
        t = { s with
          schedule := rest,
          enc := { s.enc with
            phase := phase',
            job := { j with
              i := j.i + 1#64, runStart := j.i, runChar := c,
              outPos := BitVec.ofNat 64 (j.outPos.toNat + u.length) },
            dst := t.enc.dst } } ∧
        Holds t .encDst j.outPos.toNat u ∧ SameBytesBut .encDst j.outPos.toNat u.length s t) ∧
    (c ≠ j.runChar ∨ length = 255 → s.cap .encDst < j.outPos.toNat + u.length →
      step s = .next { s with
        schedule := rest,
        enc := { s.enc with
          phase := .idle,
          regs := { s.enc.regs with err := true, code := .allocationFailure, detail := .none, errPos := j.i } } })

/-- ENC's TAIL step flushes the last run, whose length is `n - run_start`, and completes with OUT_LEN the bytes written;
where the unit does not fit, AllocationFailure is raised at `n` (41_encoder.md R90, R91). Everything else is
unchanged. -/
def Obligations.EncTailStepCompletes : Prop :=
  ∀ (s : State) (rest : List Agent), s.schedule = .enc :: rest → s.enc.phase = .tail →
    s.enc.job.runStart.toNat ≤ s.enc.job.n.toNat → s.enc.job.outPos.toNat ≤ s.cap .encDst →
    let j := s.enc.job
    let length := j.n.toNat - j.runStart.toNat
    let u := if length = 0 then [] else if length = 1 then [j.runChar]
      else [j.runChar, j.runChar, BitVec.ofNat 8 length]
    (j.outPos.toNat + u.length ≤ s.cap .encDst →
      ∃ t, step s = .next t ∧
        t = { s with
          schedule := rest,
          enc := { s.enc with
            phase := .idle,
            regs := { s.enc.regs with done := true, outLen := BitVec.ofNat 64 (j.outPos.toNat + u.length) },
            job := { j with outPos := BitVec.ofNat 64 (j.outPos.toNat + u.length) },
            dst := t.enc.dst } } ∧
        Holds t .encDst j.outPos.toNat u ∧ SameBytesBut .encDst j.outPos.toNat u.length s t) ∧
    (s.cap .encDst < j.outPos.toNat + u.length →
      step s = .next { s with
        schedule := rest,
        enc := { s.enc with
          phase := .idle,
          regs := { s.enc.regs with err := true, code := .allocationFailure, detail := .none, errPos := j.n } } })

/-! ### Steps of the machine -/

/-- The host's move runs the instruction its next line decodes to, on the state moved past that line; a POLL runs its
RD32 -> t and stands until the masked value matches; a host with no line left changes nothing but the listed interleaving
(30_encoding.md, "Host program assembly"; the interleaving is the model's, notes/assumptions/4.md, 5.md). -/
def Obligations.StepRunsTheHostsLine : Prop :=
  ∀ (s : State) (rest : List Agent), s.schedule = .host :: rest →
    (∀ a i p, s.program = .access a :: p → decodeBus a = .ok i →
      step s = exec i { s with schedule := rest, program := p }) ∧
    (∀ e r mask value p, s.program = .poll e r mask value :: p →
      let t := s.bindName pollName (.word (s.readReg e r))
      ∀ m v, t.operand mask = some m → t.operand value = some v →
        step s = exec (.rd32 e r)
          { t with schedule := rest, program := if (s.readReg e r).toNat &&& m = v then p else s.program }) ∧
    (s.program = [] → step s = .next { s with schedule := rest })

/-- With no interleaving listed, a busy ENC moves, else a busy DEC, else the host, and with nothing left to do nothing
changes: "after reset both engines are IDLE and take no step until the host writes START". The order is the model's
choice, notes/assumptions/5.md (70_reset_and_hazards.md, "Timing and progress"). -/
def Obligations.DefaultOrderServesBusyEnginesFirst : Prop :=
  ∀ s : State, s.schedule = [] →
    (s.busy .enc = true → step s = step { s with schedule := [.enc] }) ∧
    (s.busy .enc = false → s.busy .dec = true → step s = step { s with schedule := [.dec] }) ∧
    (s.busy .enc = false → s.busy .dec = false → s.program ≠ [] → step s = step { s with schedule := [.host] }) ∧
    (s.busy .enc = false → s.busy .dec = false → s.program = [] → step s = .next s)

/-- LOAD writes its bytes, literals or bytes that earlier lines read, into the engine's SRC from index 0 on and touches
nothing else of the block (30_encoding.md, the pseudo-instruction LOAD). -/
def Obligations.LoadFillsTheSourceBuffer : Prop :=
  ∀ (s : State) (e : Engine) (os : List Operand) (bs : List Byte) (p : List HostLine) (rest : List Agent),
    s.busy e = false → bs.length ≤ s.cap (srcOf e) →
    (os.map fun o => s.operand o) = (bs.map fun v => some v.toNat) →
    s.program = HostAsm.lines (.load e os) ++ p → s.schedule = List.replicate bs.length .host ++ rest →
    ∃ t, Host.Core.run Sys2Proof.core bs.length s = .next t ∧ Holds t (srcOf e) 0 bs ∧
      SameBytesBut (srcOf e) 0 bs.length s t ∧
      t = { s.setMem (srcOf e) (t.mem (srcOf e)) with program := p, schedule := rest }

/-- After reset: both engines idle, every readable register 0 but the capacities, the interrupt lines low, the working
registers 0, and every buffer byte unspecified, whatever the capacities (10_state.md R36). -/
def Obligations.ResetValuesAreTheSpecs : Prop :=
  ∀ caps : Capacities,
    let s := State.resetWith caps
    s.enc.phase = .idle ∧ s.dec.phase = .idle ∧
    (∀ e r, r ≠ .srcCapLo → r ≠ .srcCapHi → r ≠ .dstCapLo → r ≠ .dstCapHi → s.readReg e r = 0#32) ∧
    s.readReg .enc .srcCapLo = caps.encSrc.extractLsb' 0 32 ∧ s.readReg .enc .srcCapHi = caps.encSrc.extractLsb' 32 32 ∧
    s.readReg .enc .dstCapLo = caps.encDst.extractLsb' 0 32 ∧ s.readReg .enc .dstCapHi = caps.encDst.extractLsb' 32 32 ∧
    s.readReg .dec .srcCapLo = caps.decSrc.extractLsb' 0 32 ∧ s.readReg .dec .srcCapHi = caps.decSrc.extractLsb' 32 32 ∧
    s.readReg .dec .dstCapLo = caps.decDst.extractLsb' 0 32 ∧ s.readReg .dec .dstCapHi = caps.decDst.extractLsb' 32 32 ∧
    s.irqLine .enc = false ∧ s.irqLine .dec = false ∧
    s.enc.job = { n := 0#64, i := 0#64, runStart := 0#64, runChar := 0#8, outPos := 0#64 } ∧
    s.dec.job = { len := 0#64, i := 0#64, w := 0#64, orig := 0#32 } ∧
    (∀ b k, s.byteAt b k = Config.freeByte s.epoch b k)

/-- The reset input puts both engines into their reset state whatever they were doing, makes every buffer byte
unspecified anew, and leaves the capacities (70_reset_and_hazards.md, "Reset"); the host's own lines, read values, names
and checks stay, which is the model's choice (notes/assumptions/13.md). -/
def Obligations.ResetInputWinsOverEverything : Prop :=
  ∀ (s : State) (p : List HostLine) (rest : List Agent), s.program = .reset :: p → s.schedule = .host :: rest →
    ∃ t, step s = .next t ∧
      t = { State.resetWith s.caps with
        epoch := s.epoch + 1, program := p, schedule := rest, reads := s.reads, names := s.names,
        checks := s.checks } ∧
      (∀ e, t.readReg e .status = 0#32 ∧ t.irqLine e = false) ∧
      (∀ b k, t.byteAt b k = Config.freeByte (s.epoch + 1) b k)

/-! ### Invariants and rules of the whole machine -/

/-- The reset state meets the invariant, whatever the capacities (10_state.md; 41_encoder.md; 42_decoder.md). -/
def Obligations.InvariantHoldsAtReset : Prop := ∀ caps : Capacities, Inv (State.resetWith caps)

/-- Every step keeps the invariant: STATUS consistent, buffers canonical and within capacity, ENC's run of at most
255 equal bytes and its output bound, DEC's indices within the stream and the output
(10_state.md, 41_encoder.md, 42_decoder.md: the scan invariant, the bounds). -/
def Obligations.EveryStepKeepsTheInvariant : Prop :=
  ∀ s t : State, Inv s → step s = .next t → Inv t

/-- From a state of the invariant no step meets an access beyond a buffer, a negative length or an undecodable
stream: the engines never leave their buffers (20_memory.md, 41_encoder.md, 42_decoder.md: the bounds). -/
def Obligations.EnginesNeverLeaveTheirBuffers : Prop :=
  ∀ (s : State) (f : Fault), Inv s → step s ≠ .fault f

/-- STATUS stays consistent, for both engines, said of what a read of STATUS and OUT_LEN returns (10_state.md, "Flags" and
the STATUS invariants): after reset and after every step at most one of BUSY, DONE, ERR is 1; ERRCODE is not 0 exactly when
ERR = 1; ERRDETAIL is not 0 only when ERRCODE = 2; OUT_LEN is not 0 only when BUSY = 0 and ERR = 0. The spec's own clause
(d), OUT_LEN is not 0 only when DONE = 1, is kept by every step but a CLR, which keeps OUT_LEN and clears DONE by
40_control.md R72: a conflict of the spec, in which the model follows R72 (notes/assumptions/19.md). -/
def Obligations.StatusBitsStayConsistent : Prop :=
  let ok (s : State) (e : Engine) : Prop :=
    let v := s.readReg e .status
    ¬ (v.getLsbD 0 = true ∧ v.getLsbD 1 = true) ∧ ¬ (v.getLsbD 0 = true ∧ v.getLsbD 2 = true) ∧
    ¬ (v.getLsbD 1 = true ∧ v.getLsbD 2 = true) ∧
    (v.extractLsb' 4 4 ≠ 0#4 ↔ v.getLsbD 2 = true) ∧
    (v.extractLsb' 8 4 ≠ 0#4 → v.extractLsb' 4 4 = 2#4) ∧
    (s.readReg e .outLenLo ≠ 0#32 ∨ s.readReg e .outLenHi ≠ 0#32 → v.getLsbD 0 = false ∧ v.getLsbD 2 = false)
  let okd (s : State) (e : Engine) : Prop :=
    s.readReg e .outLenLo ≠ 0#32 ∨ s.readReg e .outLenHi ≠ 0#32 → (s.readReg e .status).getLsbD 1 = true
  (∀ caps e, ok (State.resetWith caps) e ∧ okd (State.resetWith caps) e) ∧
  (∀ s t : State, (∀ e, ok s e) → step s = .next t → ∀ e, ok t e) ∧
  (∀ s t : State, (∀ e, ok s e ∧ okd s e) → step s = .next t →
    (okd t .enc ∨ ∃ data u, fetch s = .instr (.encClr data) u) ∧
    (okd t .dec ∨ ∃ data u, fetch s = .instr (.decClr data) u))

/-- The capacity registers read the halves of the engine's capacities, and no event changes them (10_state.md R25). -/
def Obligations.CapacitiesNeverChange : Prop :=
  (∀ (s : State) (e : Engine),
    (s.readReg e .srcCapHi).toNat * 2 ^ 32 + (s.readReg e .srcCapLo).toNat = s.cap (srcOf e) ∧
    (s.readReg e .dstCapHi).toNat * 2 ^ 32 + (s.readReg e .dstCapLo).toNat = s.cap (dstOf e)) ∧
  ∀ s t : State, step s = .next t →
    t.caps = s.caps ∧
    ∀ e, t.readReg e .srcCapLo = s.readReg e .srcCapLo ∧ t.readReg e .srcCapHi = s.readReg e .srcCapHi ∧
      t.readReg e .dstCapLo = s.readReg e .dstCapLo ∧ t.readReg e .dstCapHi = s.readReg e .dstCapHi

/-- An engine's step changes nothing of the other engine, no SRC byte, no IRQ_EN, no SRC_LEN, and no DST byte but those
from its write index before the step up to its write index after it (20_memory.md, access rights and footprints;
10_state.md, IRQ_EN and SRC_LEN). -/
def Obligations.EngineStepsStayInTheirFootprint : Prop :=
  ∀ (s t : State) (rest : List Agent), Inv s →
    (s.schedule = .enc :: rest → step s = .next t →
      t.dec = s.dec ∧ t.caps = s.caps ∧ t.epoch = s.epoch ∧ t.program = s.program ∧ t.schedule = rest ∧
      t.reads = s.reads ∧ t.names = s.names ∧ t.checks = s.checks ∧ t.enc.src = s.enc.src ∧ t.enc.regs.doneIe = s.enc.regs.doneIe ∧
      t.enc.regs.errIe = s.enc.regs.errIe ∧ t.enc.regs.srcLen = s.enc.regs.srcLen ∧
      s.enc.job.outPos.toNat ≤ t.enc.job.outPos.toNat ∧ s.enc.job.i.toNat ≤ t.enc.job.i.toNat ∧
      SameBytesBut .encDst s.enc.job.outPos.toNat (t.enc.job.outPos.toNat - s.enc.job.outPos.toNat) s t) ∧
    (s.schedule = .dec :: rest → step s = .next t →
      t.enc = s.enc ∧ t.caps = s.caps ∧ t.epoch = s.epoch ∧ t.program = s.program ∧ t.schedule = rest ∧
      t.reads = s.reads ∧ t.names = s.names ∧ t.checks = s.checks ∧ t.dec.src = s.dec.src ∧ t.dec.regs.doneIe = s.dec.regs.doneIe ∧
      t.dec.regs.errIe = s.dec.regs.errIe ∧ t.dec.regs.srcLen = s.dec.regs.srcLen ∧
      s.dec.job.w.toNat ≤ t.dec.job.w.toNat ∧ s.dec.job.i.toNat ≤ t.dec.job.i.toNat ∧
      SameBytesBut .decDst s.dec.job.w.toNat (t.dec.job.w.toNat - s.dec.job.w.toNat) s t)

/-- What an engine's step makes of the engine depends on that engine, its capacities and the unwritten bytes of its own
reset only: two states that agree there and differ anywhere in the other engine give the same engine
(10_state.md R13, "share no state"; 60_exceptions.md, engine independence). -/
def Obligations.EnginesShareNoState : Prop :=
  ∀ (s s' t : State) (rest rest' : List Agent), s'.caps = s.caps → s'.epoch = s.epoch →
    (s.schedule = .enc :: rest → s'.schedule = .enc :: rest' → s'.enc = s.enc → step s = .next t →
      ∃ t', step s' = .next t' ∧ t'.enc = t.enc ∧ t'.dec = s'.dec) ∧
    (s.schedule = .dec :: rest → s'.schedule = .dec :: rest' → s'.dec = s.dec → step s = .next t →
      ∃ t', step s' = .next t' ∧ t'.dec = t.dec ∧ t'.enc = s'.enc)

/-- "ENC and DEC touch disjoint state, so their interleaving affects no value either of them computes": the two orders
of one step of each give the same state (20_memory.md, "Ordering between host and engine", (d)). -/
def Obligations.EngineInterleavingDoesNotMatter : Prop :=
  ∀ (s : State) (rest : List Agent), Inv s →
    Host.Core.run Sys2Proof.core 2 { s with schedule := .enc :: .dec :: rest } =
      Host.Core.run Sys2Proof.core 2 { s with schedule := .dec :: .enc :: rest }

/-- Only an accepted START moves an engine out of IDLE: a step that does so ran that engine's START
(60_exceptions.md, "Power states"). -/
def Obligations.OnlyStartLeavesIdle : Prop :=
  ∀ s t : State, step s = .next t →
    (s.enc.phase = .idle → t.enc.phase ≠ .idle → ∃ data u, fetch s = .instr (.encStart data) u ∧ t.enc.phase = .header) ∧
    (s.dec.phase = .idle → t.dec.phase ≠ .idle → ∃ data u, fetch s = .instr (.decStart data) u ∧ t.dec.phase = .header)

/-- Every fault of the block comes from a site of the list, with that site's code, detail and position, ends the job and
leaves OUT_LEN 0 and DONE 0: a step after which ERR = 1 either left the recorded fault as it was or was at such a site
(60_exceptions.md R120; the sites are those of its fault list). -/
def Obligations.FaultsComeFromTheListedSites : Prop :=
  ∀ s t : State, Inv s → step s = .next t →
    (t.enc.regs.err = true →
      (s.enc.regs.err = true ∧ t.enc.regs.code = s.enc.regs.code ∧ t.enc.regs.detail = s.enc.regs.detail ∧
        t.enc.regs.errPos = s.enc.regs.errPos) ∨
      (t.enc.phase = .idle ∧ t.enc.regs.done = false ∧ t.enc.regs.outLen = 0#64 ∧ t.enc.regs.detail = .none ∧
      ((s.enc.phase = .idle ∧ (∃ data u, fetch s = .instr (.encStart data) u) ∧ t.enc.regs.errPos = 0#64 ∧
          (t.enc.regs.code = .inputTooLarge ∨ t.enc.regs.code = .bufferBounds)) ∨
       (s.enc.phase = .header ∧ t.enc.regs.code = .allocationFailure ∧ t.enc.regs.errPos = 0#64) ∨
       (s.enc.phase = .scan ∧ t.enc.regs.code = .allocationFailure ∧ t.enc.regs.errPos = s.enc.job.i) ∨
       (s.enc.phase = .tail ∧ t.enc.regs.code = .allocationFailure ∧ t.enc.regs.errPos = s.enc.job.n)))) ∧
    (t.dec.regs.err = true →
      (s.dec.regs.err = true ∧ t.dec.regs.code = s.dec.regs.code ∧ t.dec.regs.detail = s.dec.regs.detail ∧
        t.dec.regs.errPos = s.dec.regs.errPos) ∨
      (t.dec.phase = .idle ∧ t.dec.regs.done = false ∧ t.dec.regs.outLen = 0#64 ∧
      ((s.dec.phase = .idle ∧ (∃ data u, fetch s = .instr (.decStart data) u) ∧ t.dec.regs.errPos = 0#64 ∧
          ((t.dec.regs.code = .bufferBounds ∧ t.dec.regs.detail = .none) ∨
           (t.dec.regs.code = .malformedEncoding ∧ t.dec.regs.detail = .shortHeader))) ∨
       (s.dec.phase = .header ∧ t.dec.regs.code = .allocationFailure ∧ t.dec.regs.detail = .none ∧
          t.dec.regs.errPos = 0#64) ∨
       (s.dec.phase = .body ∧ t.dec.regs.code = .malformedEncoding ∧ t.dec.regs.detail = .overflow ∧
          t.dec.regs.errPos = s.dec.job.i) ∨
       (s.dec.phase = .check ∧ t.dec.regs.code = .malformedEncoding ∧ t.dec.regs.detail = .underfill ∧
          t.dec.regs.errPos = s.dec.job.len))))

/-- DONE goes to 1 only at successful completion: ENC's TAIL step or DEC's CHECK step, which end the job
(10_state.md, "Flags"). -/
def Obligations.OnlyCompletionSetsDone : Prop :=
  ∀ s t : State, step s = .next t →
    (s.enc.regs.done = false → t.enc.regs.done = true →
      s.enc.phase = .tail ∧ t.enc.phase = .idle ∧ t.enc.regs.outLen = t.enc.job.outPos) ∧
    (s.dec.regs.done = false → t.dec.regs.done = true →
      s.dec.phase = .check ∧ t.dec.phase = .idle ∧ s.dec.job.w.toNat = s.dec.job.orig.toNat)

/-! ### Whole jobs -/

/-- An ENC job on input `b`: after START and `n + 2` engine steps it has written exactly the closed form of `b` where
DST holds it, and otherwise ended in AllocationFailure; DEC and every other byte are untouched (41_encoder.md R92;
70_reset_and_hazards.md, the step count). -/
def Obligations.EncJobComputesCompress : Prop :=
  ∀ (s : State) (b : List Byte) (data : Word), s.enc.phase = .idle → b.length < 2 ^ 32 →
    s.enc.regs.srcLen = BitVec.ofNat 64 b.length → b.length ≤ s.cap .encSrc → Holds s .encSrc 0 b →
    ∃ t u, exec (.encStart data) s = .next t ∧ movesOf .enc (b.length + 2) t = .next u ∧
      u.enc.phase = .idle ∧ u.dec = s.dec ∧ u.enc.src = s.enc.src ∧
      ((compress b).length ≤ s.cap .encDst →
        u.enc.regs.done = true ∧ u.enc.regs.err = false ∧ u.enc.regs.outLen.toNat = (compress b).length ∧
        u.enc.regs.hdrLen.toNat = b.length ∧ Holds u .encDst 0 (compress b) ∧
        SameBytesBut .encDst 0 (compress b).length s u ∧
        ∀ k, k < b.length + 2 → ∃ v, movesOf .enc k t = .next v ∧ v.busy .enc = true) ∧
      (s.cap .encDst < (compress b).length →
        u.enc.regs.done = false ∧ u.enc.regs.err = true ∧ u.enc.regs.code = .allocationFailure ∧
        u.enc.regs.outLen = 0#64)

/-- A DEC job on a stream: after START and `U + 2` engine steps, `U` the number of its units, it has ended as the closed
form says: done with the output `d(s)`, OVERFLOW at the unit that crosses `original_length`, or UNDERFILL at `L`
(42_decoder.md R112; 70_reset_and_hazards.md, the step count). -/
def Obligations.DecJobComputesDecompress : Prop :=
  ∀ (s : State) (b0 b1 b2 b3 : Byte) (body : List Byte) (data : Word), s.dec.phase = .idle →
    body.length + 4 < 2 ^ 64 → s.dec.regs.srcLen = BitVec.ofNat 64 (body.length + 4) →
    body.length + 4 ≤ s.cap .decSrc → Holds s .decSrc 0 (b0 :: b1 :: b2 :: b3 :: body) →
    (ofLeBytes b0 b1 b2 b3).toNat ≤ s.cap .decDst →
    ∃ t u, exec (.decStart data) s = .next t ∧ movesOf .dec ((parseBody body).length + 2) t = .next u ∧
      u.dec.phase = .idle ∧ u.enc = s.enc ∧ u.dec.src = s.dec.src ∧ u.dec.regs.hdrLen = ofLeBytes b0 b1 b2 b3 ∧
      (∀ bs, decompress (b0 :: b1 :: b2 :: b3 :: body) = .done bs →
        u.dec.regs.done = true ∧ u.dec.regs.err = false ∧ u.dec.regs.outLen.toNat = bs.length ∧
        Holds u .decDst 0 bs ∧ SameBytesBut .decDst 0 bs.length s u) ∧
      (∀ pos, decompress (b0 :: b1 :: b2 :: b3 :: body) = .overflow pos →
        u.dec.regs.done = false ∧ u.dec.regs.err = true ∧ u.dec.regs.code = .malformedEncoding ∧
        u.dec.regs.detail = .overflow ∧ u.dec.regs.errPos.toNat = pos ∧ u.dec.regs.outLen = 0#64) ∧
      (∀ pos, decompress (b0 :: b1 :: b2 :: b3 :: body) = .underfill pos →
        u.dec.regs.done = false ∧ u.dec.regs.err = true ∧ u.dec.regs.code = .malformedEncoding ∧
        u.dec.regs.detail = .underfill ∧ u.dec.regs.errPos.toNat = pos ∧ u.dec.regs.outLen = 0#64)

/-- The round trip on the block: where an ENC job on `b` has ended in `u`, and DEC of any state is given ENC's output as
its stream, with room for both, the DEC job ends with DONE, OUT_LEN = |b| and DST[0, |b|) = b (42_decoder.md R113). -/
def Obligations.RoundTripOnTheBlock : Prop :=
  ∀ (s u s' : State) (b : List Byte) (data data' : Word),
    s.enc.phase = .idle → b.length < 2 ^ 32 → s.enc.regs.srcLen = BitVec.ofNat 64 b.length →
    b.length ≤ s.cap .encSrc → Holds s .encSrc 0 b → (compress b).length ≤ s.cap .encDst →
    (∃ t, exec (.encStart data) s = .next t ∧ movesOf .enc (b.length + 2) t = .next u) →
    s'.dec.phase = .idle → s'.dec.regs.srcLen = u.enc.regs.outLen →
    (∀ k, k < u.enc.regs.outLen.toNat → s'.byteAt .decSrc k = u.byteAt .encDst k) →
    u.enc.regs.outLen.toNat ≤ s'.cap .decSrc → b.length ≤ s'.cap .decDst →
    ∃ t' u' steps, exec (.decStart data') s' = .next t' ∧ movesOf .dec steps t' = .next u' ∧
      u'.dec.phase = .idle ∧ u'.dec.regs.done = true ∧ u'.dec.regs.err = false ∧
      u'.dec.regs.outLen.toNat = b.length ∧ Holds u' .decDst 0 b

/-- Every job ends: from any state of the invariant, once the listed interleaving is used up, both engines are idle
after at most `n + L + 4` steps (70_reset_and_hazards.md, "Fairness" and the step counts; that busy engines move first
is the model's choice, notes/assumptions/5.md). -/
def Obligations.EveryJobEnds : Prop :=
  ∀ s : State, Inv s → s.schedule = [] →
    ∃ k t, k ≤ s.enc.job.n.toNat + s.dec.job.len.toNat + 4 ∧ Host.Core.run Sys2Proof.core k s = .next t ∧
      t.busy .enc = false ∧ t.busy .dec = false

/-! ### Names of the host's program, and the host's duty -/

/-- A WRB to a buffer of a busy engine is refused, at every index and before the index is looked at. That refusal is the
model's (DEDUCED, notes/assumptions/10.md): the spec gives the host a duty not to make this write, and "the model gives
the host no such move" (70_reset_and_hazards.md, "Hazards"). -/
def Obligations.BusyBufferWritesAreRefused : Prop :=
  ∀ (s : State) (b : Buffer) (idx : Word64) (data : Byte), s.busy b.engine = true →
    exec (.wrb b idx data) s = .refused (.bufferOfBusyEngine b)

/-- A host line `RD32 E.REG -> x` or `RDB buf[k] -> x` hands the host the value read and binds it to `x`: `x` then
stands for that value as an operand, every other name for what it stood for before, and nothing else changes
(30_encoding.md, "Host program assembly": "The value read is bound to `name` for later lines"). -/
def Obligations.NamedReadBindsItsValue : Prop :=
  ∀ (s : State) (rest : List Agent) (p : List HostLine) (x : Name), s.schedule = .host :: rest →
    (∀ e r, s.program = .named (.rd32 e r x) :: p →
      ∃ t, step s = .next t ∧ t.operand (.name x) = some (s.readReg e r).toNat ∧ SameNamesBut x s t ∧
        t = { s with
          schedule := rest, program := p, names := t.names, reads := .word (s.readReg e r) :: s.reads }) ∧
    (∀ b k n, s.program = .named (.rdb b k x) :: p → s.operand k = some n → n < s.cap b →
      ∃ t, step s = .next t ∧ t.operand (.name x) = some (s.byteAt b n).toNat ∧ SameNamesBut x s t ∧
        t = { s with schedule := rest, program := p, names := t.names, reads := .byte (s.byteAt b n) :: s.reads })

/-- A host line whose operands are names uses the values they are bound to: a WR32 writes the value, a WRB writes it at
the index, an RDB reads there; a line that uses an unbound name is refused, which is the model's choice
(30_encoding.md, "Host program assembly"; notes/assumptions/21.md). -/
def Obligations.LaterLinesUseTheBoundNames : Prop :=
  ∀ (s : State) (rest : List Agent) (p : List HostLine), s.schedule = .host :: rest →
    (∀ e r imm (data : Word), s.program = .named (.wr32 e r imm) :: p → s.operand imm = some data.toNat →
      step s = exec (decodeWrite e r data) { s with schedule := rest, program := p }) ∧
    (∀ b k imm (idx : Word64) (data : Byte), s.program = .named (.wrb b k imm) :: p →
      s.operand k = some idx.toNat → s.operand imm = some data.toNat →
      step s = exec (.wrb b idx data) { s with schedule := rest, program := p }) ∧
    (∀ b k x (idx : Word64), s.program = .named (.rdb b k x) :: p → s.operand k = some idx.toNat →
      step s = exec (.rdb b idx)
        { s.bindName x (.byte (s.byteAt b idx.toNat)) with schedule := rest, program := p }) ∧
    (∀ op, s.program = .named op :: p → s.accessOf op = none → step s = .refused .unboundName)

/-- A name stands for the value it was bound to until a line binds it anew: a step changes what a name stands for only
where it is the host's move, its line is a read that binds that name, or a POLL, which binds its `t`, and the instruction
it runs is that line's RD32 or RDB. Every step keeps the names in their canonical form
(30_encoding.md, "Host program assembly"; notes/assumptions/21.md). -/
def Obligations.NamesKeepTheirValues : Prop :=
  (∀ (s t : State) (x : Name), step s = .next t → t.operand (.name x) ≠ s.operand (.name x) →
    (chooseAgent s).1 = some .host ∧ ∃ i u, fetch s = .instr i u ∧ ReadBinds s i x) ∧
  (∀ s t : State, s.names.wf → step s = .next t → t.names.wf)

/-- EXPECT is no bus operation and has no effect on the block: the host moves past it, the block, the values read and
the names are unchanged, and whether all its equations hold is added to the checks, which is the model's way to say what
the check found (30_encoding.md, "Host program assembly"; notes/assumptions/18.md). -/
def Obligations.ExpectHasNoEffectOnTheBlock : Prop :=
  ∀ (s : State) (rest : List Agent) (equations : List (Operand × Operand)) (p : List HostLine),
    s.schedule = .host :: rest → s.program = .expect equations :: p →
    (∀ q ∈ equations, s.operand q.1 ≠ none ∧ s.operand q.2 ≠ none) →
    ∃ ok, step s = .next { s with schedule := rest, program := p, checks := ok :: s.checks } ∧
      (ok = true ↔ ∀ q ∈ equations, s.operand q.1 = s.operand q.2)

/-! ### Widths -/

/-- The counters of 00_scope.md R8. ENC's `i`, `run_start`, `out_pos` and DEC's `w` stay below 2^34 on every instance.
DEC's `i` does on every instance with DEC_SRC_CAP below 2^34, which the instance of State.reset is, and for every stream
shorter than 2^34 on any instance. On a longer stream DEC's `i` follows `L`, as 42_decoder.md R99 and R114 have it: a
conflict of the spec, in which that is the model's choice (notes/assumptions/20.md). That no counter wraps is
Obligations.EngineStepsStayInTheirFootprint: a counter never goes back in an engine's step. -/
def Obligations.CountersStayBelowTheBound : Prop :=
  let counters (s : State) : Prop :=
    s.enc.job.i.toNat < 2 ^ 34 ∧ s.enc.job.runStart.toNat < 2 ^ 34 ∧ s.enc.job.outPos.toNat < 2 ^ 34 ∧
    s.dec.job.w.toNat < 2 ^ 34
  State.reset.cap .decSrc < 2 ^ 34 ∧
  (∀ caps, counters (State.resetWith caps) ∧ (State.resetWith caps).dec.job.i.toNat < 2 ^ 34) ∧
  (∀ s t : State, Inv s → counters s → step s = .next t → counters t) ∧
  (∀ s t : State, Inv s → s.cap .decSrc < 2 ^ 34 ∨ s.dec.job.len.toNat < 2 ^ 34 → s.dec.job.i.toNat < 2 ^ 34 →
    step s = .next t → t.dec.job.i.toNat < 2 ^ 34)
end

