-- ==== Sys2Proof/Laws/State.lean ====
section
/-! SUPPORT. One lemma per field per update of the state: what each update writes and what it leaves. -/

namespace Sys2Proof.Machine

/-! ### setMem, setByte, setBytes -/

@[simp] theorem State.setMem_encPhase (s : State) (b : Buffer) (m : Memory) : (s.setMem b m).enc.phase = s.enc.phase := by cases b <;> rfl
@[simp] theorem State.setMem_encRegs (s : State) (b : Buffer) (m : Memory) : (s.setMem b m).enc.regs = s.enc.regs := by cases b <;> rfl
@[simp] theorem State.setMem_encJob (s : State) (b : Buffer) (m : Memory) : (s.setMem b m).enc.job = s.enc.job := by cases b <;> rfl
@[simp] theorem State.setMem_decPhase (s : State) (b : Buffer) (m : Memory) : (s.setMem b m).dec.phase = s.dec.phase := by cases b <;> rfl
@[simp] theorem State.setMem_decRegs (s : State) (b : Buffer) (m : Memory) : (s.setMem b m).dec.regs = s.dec.regs := by cases b <;> rfl
@[simp] theorem State.setMem_decJob (s : State) (b : Buffer) (m : Memory) : (s.setMem b m).dec.job = s.dec.job := by cases b <;> rfl
@[simp] theorem State.setMem_caps (s : State) (b : Buffer) (m : Memory) : (s.setMem b m).caps = s.caps := by cases b <;> rfl
@[simp] theorem State.setMem_epoch (s : State) (b : Buffer) (m : Memory) : (s.setMem b m).epoch = s.epoch := by cases b <;> rfl
@[simp] theorem State.setMem_program (s : State) (b : Buffer) (m : Memory) : (s.setMem b m).program = s.program := by cases b <;> rfl
@[simp] theorem State.setMem_schedule (s : State) (b : Buffer) (m : Memory) : (s.setMem b m).schedule = s.schedule := by cases b <;> rfl
@[simp] theorem State.setMem_reads (s : State) (b : Buffer) (m : Memory) : (s.setMem b m).reads = s.reads := by cases b <;> rfl
@[simp] theorem State.setMem_names (s : State) (b : Buffer) (m : Memory) : (s.setMem b m).names = s.names := by cases b <;> rfl
@[simp] theorem State.setMem_checks (s : State) (b : Buffer) (m : Memory) : (s.setMem b m).checks = s.checks := by cases b <;> rfl

@[simp] theorem State.mem_setMem_self (s : State) (b : Buffer) (m : Memory) : (s.setMem b m).mem b = m := by
  cases b <;> rfl

theorem State.mem_setMem_ne (s : State) (b c : Buffer) (m : Memory) (h : c ≠ b) : (s.setMem b m).mem c = s.mem c := by
  cases b <;> cases c <;> first | rfl | exact absurd rfl h

@[simp] theorem State.cap_setMem (s : State) (b c : Buffer) (m : Memory) : (s.setMem b m).cap c = s.cap c := by
  cases b <;> rfl

@[simp] theorem State.busy_setMem (s : State) (b : Buffer) (m : Memory) (e : Engine) :
    (s.setMem b m).busy e = s.busy e := by
  cases b <;> cases e <;> rfl

@[simp] theorem State.regs_setMem (s : State) (b : Buffer) (m : Memory) (e : Engine) :
    (s.setMem b m).regs e = s.regs e := by
  cases b <;> cases e <;> rfl

@[simp] theorem State.setByte_encPhase (s : State) (b : Buffer) (k : Nat) (v : Byte) : (s.setByte b k v).enc.phase = s.enc.phase := State.setMem_encPhase s b _
@[simp] theorem State.setByte_encRegs (s : State) (b : Buffer) (k : Nat) (v : Byte) : (s.setByte b k v).enc.regs = s.enc.regs := State.setMem_encRegs s b _
@[simp] theorem State.setByte_encJob (s : State) (b : Buffer) (k : Nat) (v : Byte) : (s.setByte b k v).enc.job = s.enc.job := State.setMem_encJob s b _
@[simp] theorem State.setByte_decPhase (s : State) (b : Buffer) (k : Nat) (v : Byte) : (s.setByte b k v).dec.phase = s.dec.phase := State.setMem_decPhase s b _
@[simp] theorem State.setByte_decRegs (s : State) (b : Buffer) (k : Nat) (v : Byte) : (s.setByte b k v).dec.regs = s.dec.regs := State.setMem_decRegs s b _
@[simp] theorem State.setByte_decJob (s : State) (b : Buffer) (k : Nat) (v : Byte) : (s.setByte b k v).dec.job = s.dec.job := State.setMem_decJob s b _
@[simp] theorem State.setByte_caps (s : State) (b : Buffer) (k : Nat) (v : Byte) : (s.setByte b k v).caps = s.caps := State.setMem_caps s b _
@[simp] theorem State.setByte_epoch (s : State) (b : Buffer) (k : Nat) (v : Byte) : (s.setByte b k v).epoch = s.epoch := State.setMem_epoch s b _
@[simp] theorem State.setByte_program (s : State) (b : Buffer) (k : Nat) (v : Byte) : (s.setByte b k v).program = s.program := State.setMem_program s b _
@[simp] theorem State.setByte_schedule (s : State) (b : Buffer) (k : Nat) (v : Byte) : (s.setByte b k v).schedule = s.schedule := State.setMem_schedule s b _
@[simp] theorem State.setByte_reads (s : State) (b : Buffer) (k : Nat) (v : Byte) : (s.setByte b k v).reads = s.reads := State.setMem_reads s b _
@[simp] theorem State.setByte_names (s : State) (b : Buffer) (k : Nat) (v : Byte) : (s.setByte b k v).names = s.names := State.setMem_names s b _
@[simp] theorem State.setByte_checks (s : State) (b : Buffer) (k : Nat) (v : Byte) : (s.setByte b k v).checks = s.checks := State.setMem_checks s b _

@[simp] theorem State.cap_setByte (s : State) (b c : Buffer) (k : Nat) (v : Byte) :
    (s.setByte b k v).cap c = s.cap c := State.cap_setMem s b c _

@[simp] theorem State.setBytes_encPhase (s : State) (b : Buffer) (k : Nat) (vs : List Byte) : (s.setBytes b k vs).enc.phase = s.enc.phase := State.setMem_encPhase s b _
@[simp] theorem State.setBytes_encRegs (s : State) (b : Buffer) (k : Nat) (vs : List Byte) : (s.setBytes b k vs).enc.regs = s.enc.regs := State.setMem_encRegs s b _
@[simp] theorem State.setBytes_encJob (s : State) (b : Buffer) (k : Nat) (vs : List Byte) : (s.setBytes b k vs).enc.job = s.enc.job := State.setMem_encJob s b _
@[simp] theorem State.setBytes_decPhase (s : State) (b : Buffer) (k : Nat) (vs : List Byte) : (s.setBytes b k vs).dec.phase = s.dec.phase := State.setMem_decPhase s b _
@[simp] theorem State.setBytes_decRegs (s : State) (b : Buffer) (k : Nat) (vs : List Byte) : (s.setBytes b k vs).dec.regs = s.dec.regs := State.setMem_decRegs s b _
@[simp] theorem State.setBytes_decJob (s : State) (b : Buffer) (k : Nat) (vs : List Byte) : (s.setBytes b k vs).dec.job = s.dec.job := State.setMem_decJob s b _
@[simp] theorem State.setBytes_caps (s : State) (b : Buffer) (k : Nat) (vs : List Byte) : (s.setBytes b k vs).caps = s.caps := State.setMem_caps s b _
@[simp] theorem State.setBytes_epoch (s : State) (b : Buffer) (k : Nat) (vs : List Byte) : (s.setBytes b k vs).epoch = s.epoch := State.setMem_epoch s b _
@[simp] theorem State.setBytes_program (s : State) (b : Buffer) (k : Nat) (vs : List Byte) : (s.setBytes b k vs).program = s.program := State.setMem_program s b _
@[simp] theorem State.setBytes_schedule (s : State) (b : Buffer) (k : Nat) (vs : List Byte) : (s.setBytes b k vs).schedule = s.schedule := State.setMem_schedule s b _
@[simp] theorem State.setBytes_reads (s : State) (b : Buffer) (k : Nat) (vs : List Byte) : (s.setBytes b k vs).reads = s.reads := State.setMem_reads s b _
@[simp] theorem State.setBytes_names (s : State) (b : Buffer) (k : Nat) (vs : List Byte) : (s.setBytes b k vs).names = s.names := State.setMem_names s b _
@[simp] theorem State.setBytes_checks (s : State) (b : Buffer) (k : Nat) (vs : List Byte) : (s.setBytes b k vs).checks = s.checks := State.setMem_checks s b _
@[simp] theorem State.cap_setBytes (s : State) (b c : Buffer) (k : Nat) (vs : List Byte) :
    (s.setBytes b k vs).cap c = s.cap c := State.cap_setMem s b c _

@[simp] theorem State.setBytes_encDst_dec (s : State) (k : Nat) (vs : List Byte) : (s.setBytes .encDst k vs).dec = s.dec := rfl
@[simp] theorem State.setBytes_encDst_src (s : State) (k : Nat) (vs : List Byte) : (s.setBytes .encDst k vs).enc.src = s.enc.src := rfl
@[simp] theorem State.setBytes_decDst_enc (s : State) (k : Nat) (vs : List Byte) : (s.setBytes .decDst k vs).enc = s.enc := rfl
@[simp] theorem State.setBytes_decDst_src (s : State) (k : Nat) (vs : List Byte) : (s.setBytes .decDst k vs).dec.src = s.dec.src := rfl

/-! ### giveHost -/

@[simp] theorem State.giveHost_enc (s : State) (v : ReadValue) : (s.giveHost v).enc = s.enc := rfl
@[simp] theorem State.giveHost_dec (s : State) (v : ReadValue) : (s.giveHost v).dec = s.dec := rfl
@[simp] theorem State.giveHost_caps (s : State) (v : ReadValue) : (s.giveHost v).caps = s.caps := rfl
@[simp] theorem State.giveHost_epoch (s : State) (v : ReadValue) : (s.giveHost v).epoch = s.epoch := rfl
@[simp] theorem State.giveHost_program (s : State) (v : ReadValue) : (s.giveHost v).program = s.program := rfl
@[simp] theorem State.giveHost_schedule (s : State) (v : ReadValue) : (s.giveHost v).schedule = s.schedule := rfl
@[simp] theorem State.giveHost_reads (s : State) (v : ReadValue) : (s.giveHost v).reads = v :: s.reads := rfl
@[simp] theorem State.giveHost_names (s : State) (v : ReadValue) : (s.giveHost v).names = s.names := rfl
@[simp] theorem State.giveHost_checks (s : State) (v : ReadValue) : (s.giveHost v).checks = s.checks := rfl

/-! ### bindName -/

@[simp] theorem State.bindName_enc (s : State) (x : Name) (v : ReadValue) : (s.bindName x v).enc = s.enc := rfl
@[simp] theorem State.bindName_dec (s : State) (x : Name) (v : ReadValue) : (s.bindName x v).dec = s.dec := rfl
@[simp] theorem State.bindName_caps (s : State) (x : Name) (v : ReadValue) : (s.bindName x v).caps = s.caps := rfl
@[simp] theorem State.bindName_epoch (s : State) (x : Name) (v : ReadValue) : (s.bindName x v).epoch = s.epoch := rfl
@[simp] theorem State.bindName_program (s : State) (x : Name) (v : ReadValue) : (s.bindName x v).program = s.program := rfl
@[simp] theorem State.bindName_schedule (s : State) (x : Name) (v : ReadValue) : (s.bindName x v).schedule = s.schedule := rfl
@[simp] theorem State.bindName_reads (s : State) (x : Name) (v : ReadValue) : (s.bindName x v).reads = s.reads := rfl
@[simp] theorem State.bindName_names (s : State) (x : Name) (v : ReadValue) : (s.bindName x v).names = s.names.set x v := rfl
@[simp] theorem State.bindName_checks (s : State) (x : Name) (v : ReadValue) : (s.bindName x v).checks = s.checks := rfl

/-! ### updRegs, setIdle, raiseFault -/

@[simp] theorem State.updRegs_encPhase (s : State) (e : Engine) (g : Regs → Regs) : (s.updRegs e g).enc.phase = s.enc.phase := by cases e <;> rfl
@[simp] theorem State.updRegs_encRegs (s : State) (g : Regs → Regs) : (s.updRegs .enc g).enc.regs = g s.enc.regs := rfl
@[simp] theorem State.updRegs_encRegs_other (s : State) (g : Regs → Regs) : (s.updRegs .dec g).enc.regs = s.enc.regs := rfl
@[simp] theorem State.updRegs_encJob (s : State) (e : Engine) (g : Regs → Regs) : (s.updRegs e g).enc.job = s.enc.job := by cases e <;> rfl
@[simp] theorem State.updRegs_decPhase (s : State) (e : Engine) (g : Regs → Regs) : (s.updRegs e g).dec.phase = s.dec.phase := by cases e <;> rfl
@[simp] theorem State.updRegs_decRegs (s : State) (g : Regs → Regs) : (s.updRegs .dec g).dec.regs = g s.dec.regs := rfl
@[simp] theorem State.updRegs_decRegs_other (s : State) (g : Regs → Regs) : (s.updRegs .enc g).dec.regs = s.dec.regs := rfl
@[simp] theorem State.updRegs_decJob (s : State) (e : Engine) (g : Regs → Regs) : (s.updRegs e g).dec.job = s.dec.job := by cases e <;> rfl
@[simp] theorem State.updRegs_caps (s : State) (e : Engine) (g : Regs → Regs) : (s.updRegs e g).caps = s.caps := by cases e <;> rfl
@[simp] theorem State.updRegs_epoch (s : State) (e : Engine) (g : Regs → Regs) : (s.updRegs e g).epoch = s.epoch := by cases e <;> rfl
@[simp] theorem State.updRegs_program (s : State) (e : Engine) (g : Regs → Regs) : (s.updRegs e g).program = s.program := by cases e <;> rfl
@[simp] theorem State.updRegs_schedule (s : State) (e : Engine) (g : Regs → Regs) : (s.updRegs e g).schedule = s.schedule := by cases e <;> rfl
@[simp] theorem State.updRegs_reads (s : State) (e : Engine) (g : Regs → Regs) : (s.updRegs e g).reads = s.reads := by cases e <;> rfl
@[simp] theorem State.updRegs_names (s : State) (e : Engine) (g : Regs → Regs) : (s.updRegs e g).names = s.names := by cases e <;> rfl
@[simp] theorem State.updRegs_checks (s : State) (e : Engine) (g : Regs → Regs) : (s.updRegs e g).checks = s.checks := by cases e <;> rfl

@[simp] theorem State.mem_updRegs (s : State) (e : Engine) (g : Regs → Regs) (b : Buffer) :
    (s.updRegs e g).mem b = s.mem b := by
  cases e <;> cases b <;> rfl

@[simp] theorem State.cap_updRegs (s : State) (e : Engine) (g : Regs → Regs) (b : Buffer) :
    (s.updRegs e g).cap b = s.cap b := by
  cases e <;> rfl

@[simp] theorem State.regs_updRegs (s : State) (e : Engine) (g : Regs → Regs) :
    (s.updRegs e g).regs e = g (s.regs e) := by
  cases e <;> rfl

@[simp] theorem State.setIdle_encPhase (s : State) : (s.setIdle .enc).enc.phase = .idle := rfl
@[simp] theorem State.setIdle_encPhase_other (s : State) : (s.setIdle .dec).enc.phase = s.enc.phase := rfl
@[simp] theorem State.setIdle_encRegs (s : State) (e : Engine) : (s.setIdle e).enc.regs = s.enc.regs := by cases e <;> rfl
@[simp] theorem State.setIdle_encJob (s : State) (e : Engine) : (s.setIdle e).enc.job = s.enc.job := by cases e <;> rfl
@[simp] theorem State.setIdle_decPhase (s : State) : (s.setIdle .dec).dec.phase = .idle := rfl
@[simp] theorem State.setIdle_decPhase_other (s : State) : (s.setIdle .enc).dec.phase = s.dec.phase := rfl
@[simp] theorem State.setIdle_decRegs (s : State) (e : Engine) : (s.setIdle e).dec.regs = s.dec.regs := by cases e <;> rfl
@[simp] theorem State.setIdle_decJob (s : State) (e : Engine) : (s.setIdle e).dec.job = s.dec.job := by cases e <;> rfl
@[simp] theorem State.setIdle_caps (s : State) (e : Engine) : (s.setIdle e).caps = s.caps := by cases e <;> rfl
@[simp] theorem State.setIdle_epoch (s : State) (e : Engine) : (s.setIdle e).epoch = s.epoch := by cases e <;> rfl
@[simp] theorem State.setIdle_program (s : State) (e : Engine) : (s.setIdle e).program = s.program := by cases e <;> rfl
@[simp] theorem State.setIdle_schedule (s : State) (e : Engine) : (s.setIdle e).schedule = s.schedule := by cases e <;> rfl
@[simp] theorem State.setIdle_reads (s : State) (e : Engine) : (s.setIdle e).reads = s.reads := by cases e <;> rfl
@[simp] theorem State.setIdle_names (s : State) (e : Engine) : (s.setIdle e).names = s.names := by cases e <;> rfl
@[simp] theorem State.setIdle_checks (s : State) (e : Engine) : (s.setIdle e).checks = s.checks := by cases e <;> rfl

@[simp] theorem State.mem_setIdle (s : State) (e : Engine) (b : Buffer) : (s.setIdle e).mem b = s.mem b := by
  cases e <;> cases b <;> rfl

@[simp] theorem State.cap_setIdle (s : State) (e : Engine) (b : Buffer) : (s.setIdle e).cap b = s.cap b := by
  cases e <;> rfl

@[simp] theorem State.mem_raiseFault (s : State) (e : Engine) (c : ErrCode) (d : ErrDetail) (p : Word64) (b : Buffer) :
    (s.raiseFault e c d p).mem b = s.mem b := by
  simp [State.raiseFault]

@[simp] theorem State.cap_raiseFault (s : State) (e : Engine) (c : ErrCode) (d : ErrDetail) (p : Word64) (b : Buffer) :
    (s.raiseFault e c d p).cap b = s.cap b := by
  simp [State.raiseFault]

@[simp] theorem State.raiseFault_epoch (s : State) (e : Engine) (c : ErrCode) (d : ErrDetail) (p : Word64) :
    (s.raiseFault e c d p).epoch = s.epoch := by
  simp [State.raiseFault]

end Sys2Proof.Machine
end

