-- ==== Sys2Proof/Laws/Memory.lean ====
section
/-! SUPPORT. The laws of the buffers: read after write, the canonical form, and the bound by the capacity. -/

namespace Sys2Proof.Machine

/-! ### One buffer -/

@[simp] theorem Memory.get_set_self (m : Memory) (k : Nat) (v : Byte) : (Memory.set m k v).get k = some v := by
  induction m with
  | nil => simp [Memory.set, Memory.get]
  | cons x rest ih =>
    obtain ⟨b, u⟩ := x
    simp only [Memory.set]
    split
    · simp [Memory.get]
    · split
      · simp [Memory.get]
      · rename_i h; simp [Memory.get, h, ih]

theorem Memory.get_set_ne (m : Memory) (k j : Nat) (v : Byte) (h : j ≠ k) :
    (Memory.set m k v).get j = m.get j := by
  induction m with
  | nil => simp [Memory.set, Memory.get, h]
  | cons x rest ih =>
    obtain ⟨b, u⟩ := x
    simp only [Memory.set]
    split
    · simp [Memory.get, h]
    · split
      · subst k; simp [Memory.get, h]
      · simp [Memory.get, ih]

theorem Memory.mem_set (m : Memory) (k : Nat) (v : Byte) (x : Host.Cell) (h : x ∈ Memory.set m k v) :
    x = (k, v) ∨ x ∈ m := by
  induction m with
  | nil => simpa [Memory.set] using h
  | cons y rest ih =>
    obtain ⟨b, u⟩ := y
    simp only [Memory.set] at h
    split at h
    · simpa using h
    · split at h
      · rcases List.mem_cons.1 h with h | h
        · exact .inl h
        · exact .inr (List.mem_cons_of_mem _ h)
      · rcases List.mem_cons.1 h with h | h
        · exact .inr (h ▸ List.mem_cons_self)
        · exact (ih h).imp id (List.mem_cons_of_mem _)

/-- A write keeps the canonical form. -/
theorem Memory.set_wf (m : Memory) (k : Nat) (v : Byte) (h : m.wf) : (Memory.set m k v).wf := by
  induction m with
  | nil => simp [Memory.set, Memory.wf]
  | cons y rest ih =>
    obtain ⟨b, u⟩ := y
    have hrest := (List.pairwise_cons.1 h).2
    have hall := (List.pairwise_cons.1 h).1
    simp only [Memory.set]
    split
    · rename_i hk
      refine List.pairwise_cons.2 ⟨fun x hx => ?_, h⟩
      rcases List.mem_cons.1 hx with rfl | hx
      · exact hk
      · exact Nat.lt_trans hk (hall x hx)
    · split
      · rename_i hk
        subst hk
        exact List.pairwise_cons.2 ⟨hall, hrest⟩
      · refine List.pairwise_cons.2 ⟨fun x hx => ?_, ih hrest⟩
        rcases Memory.mem_set _ _ _ _ hx with rfl | hx
        · simp; omega
        · exact hall x hx

theorem Memory.set_within (m : Memory) (k : Nat) (v : Byte) (cap : Nat) (h : m.within cap) (hk : k < cap) :
    (Memory.set m k v).within cap := by
  intro x hx
  rcases Memory.mem_set _ _ _ _ hx with rfl | hx
  · exact hk
  · exact h x hx

/-- Read after writing several bytes. -/
theorem Memory.get_setAll (vs : List Byte) (m : Memory) (k j : Nat) :
    (Memory.setAll m k vs).get j = if h : k ≤ j ∧ j - k < vs.length then some vs[j - k] else m.get j := by
  induction vs generalizing m k with
  | nil => simp [Memory.setAll]
  | cons v rest ih =>
    simp only [Memory.setAll, ih, List.length_cons]
    by_cases h1 : k + 1 ≤ j ∧ j - (k + 1) < rest.length
    · have h2 : k ≤ j ∧ j - k < rest.length + 1 := by omega
      have h3 : j - k = (j - (k + 1)) + 1 := by omega
      simp [h1, h2, h3]
    · by_cases h4 : j = k
      · subst h4; simp
      · have h5 : ¬ (k ≤ j ∧ j - k < rest.length + 1) := by omega
        rw [dif_neg h1, dif_neg h5, Memory.get_set_ne _ _ _ _ h4]

theorem Memory.setAll_wf (vs : List Byte) (m : Memory) (k : Nat) (h : m.wf) : (Memory.setAll m k vs).wf := by
  induction vs generalizing m k with
  | nil => exact h
  | cons v rest ih => exact ih _ _ (Memory.set_wf _ _ _ h)

theorem Memory.setAll_within (vs : List Byte) (m : Memory) (k cap : Nat) (h : m.within cap) (hk : k + vs.length ≤ cap) :
    (Memory.setAll m k vs).within cap := by
  induction vs generalizing m k with
  | nil => exact h
  | cons v rest ih =>
    simp only [List.length_cons] at hk
    exact ih _ _ (Memory.set_within _ _ _ _ h (by omega)) (by omega)

/-- Appending one byte after writing several is writing them all. -/
theorem Memory.setAll_append (vs ws : List Byte) (m : Memory) (k : Nat) :
    Memory.setAll m k (vs ++ ws) = Memory.setAll (Memory.setAll m k vs) (k + vs.length) ws := by
  induction vs generalizing m k with
  | nil => rfl
  | cons v rest ih =>
    simp only [List.cons_append, Memory.setAll, ih, List.length_cons]
    congr 1; omega

/-! ### The four buffers -/

/-- A byte of a buffer depends on the buffer's written bytes and on the reset it belongs to, and on nothing else. -/
theorem State.byteAt_congr {s t : State} {b : Buffer} (hm : t.mem b = s.mem b) (he : t.epoch = s.epoch) (k : Nat) :
    t.byteAt b k = s.byteAt b k := by
  simp [State.byteAt, hm, he]

/-- Read after write, in the same place and elsewhere. -/
theorem State.byteAt_setByte (s : State) (b c : Buffer) (k j : Nat) (v : Byte) :
    (s.setByte b k v).byteAt c j = if c = b ∧ j = k then v else s.byteAt c j := by
  by_cases hc : c = b
  · subst hc
    by_cases hj : j = k
    · subst hj; simp [State.byteAt, State.setByte]
    · simp [State.byteAt, State.setByte, Memory.get_set_ne _ _ _ _ hj, hj]
  · simp [State.byteAt, State.setByte, State.mem_setMem_ne _ _ _ _ hc, hc]

/-- Read after writing several bytes: the byte written last at that index, else the byte before. -/
theorem State.byteAt_setBytes (s : State) (b c : Buffer) (k j : Nat) (vs : List Byte) :
    (s.setBytes b k vs).byteAt c j =
      if h : c = b ∧ k ≤ j ∧ j - k < vs.length then vs[j - k] else s.byteAt c j := by
  by_cases hc : c = b
  · subst hc
    by_cases h : k ≤ j ∧ j - k < vs.length
    · simp [State.byteAt, State.setBytes, Memory.get_setAll, h]
    · rw [dif_neg (fun h' => h h'.2)]
      simp only [State.byteAt, State.setBytes, State.mem_setMem_self, Memory.get_setAll, dif_neg h, State.setMem_epoch]
  · simp [State.byteAt, State.setBytes, State.mem_setMem_ne _ _ _ _ hc, hc]

theorem State.holds_setBytes (s : State) (b : Buffer) (k : Nat) (vs : List Byte) : Holds (s.setBytes b k vs) b k vs := by
  intro j h
  simp [State.byteAt_setBytes, h]

theorem State.sameBytesBut_setBytes (s : State) (b : Buffer) (k : Nat) (vs : List Byte) :
    SameBytesBut b k vs.length s (s.setBytes b k vs) := by
  intro c j h
  have : ¬ (c = b ∧ k ≤ j ∧ j - k < vs.length) := by
    rintro ⟨rfl, h1, h2⟩
    rcases h with h | h | h
    · exact h rfl
    · omega
    · omega
  simp [State.byteAt_setBytes, this]

theorem State.buffersOk_setMem {s : State} {b : Buffer} {m : Memory} (h : BuffersOk s) (hw : m.wf)
    (hm : m.within (s.cap b)) : BuffersOk (s.setMem b m) := by
  intro c
  by_cases hc : c = b
  · subst hc; rw [State.mem_setMem_self, State.cap_setMem]; exact ⟨hw, hm⟩
  · rw [State.mem_setMem_ne _ _ _ _ hc, State.cap_setMem]; exact h c

theorem State.buffersOk_setByte {s : State} {b : Buffer} {k : Nat} {v : Byte} (h : BuffersOk s) (hk : k < s.cap b) :
    BuffersOk (s.setByte b k v) :=
  State.buffersOk_setMem h (Memory.set_wf _ _ _ (h b).1) (Memory.set_within _ _ _ _ (h b).2 hk)

theorem State.buffersOk_setBytes {s : State} {b : Buffer} {k : Nat} {vs : List Byte} (h : BuffersOk s)
    (hk : k + vs.length ≤ s.cap b) : BuffersOk (s.setBytes b k vs) :=
  State.buffersOk_setMem h (Memory.setAll_wf _ _ _ (h b).1) (Memory.setAll_within _ _ _ _ (h b).2 hk)

theorem State.buffersOk_congr {s t : State} (hm : ∀ b, t.mem b = s.mem b) (hc : ∀ b, t.cap b = s.cap b)
    (h : BuffersOk s) : BuffersOk t := by
  intro b; rw [hm, hc]; exact h b

theorem State.mem_setBytes_ne (s : State) {b c : Buffer} (hc : c ≠ b) (k : Nat) (vs : List Byte) :
    (s.setBytes b k vs).mem c = s.mem c :=
  State.mem_setMem_ne s b c _ hc

end Sys2Proof.Machine
end

