-- ==== Sys2Proof/Laws/Ops.lean ====
section
/-! SUPPORT. What each shared operation can do, said once: ENC's Emit and Flush, DEC's Append, the fetch of a unit's
bytes. Later proofs cite these and unfold none of the operations. -/

namespace Sys2Proof.Machine

/-! ### Append -/

/-- The state after DEC has appended `count` copies of `c`. -/
def decAppended (c : Byte) (count : Nat) (s : State) : State :=
  let t := s.setBytes .decDst s.dec.job.w.toNat (List.replicate count c)
  { t with dec := { t.dec with job := { t.dec.job with w := BitVec.ofNat 64 (s.dec.job.w.toNat + count) } } }

theorem decAppended_zero (c : Byte) (s : State) : decAppended c 0 s = s := by
  simp [decAppended, State.setBytes, Memory.setAll, State.setMem, State.mem]

/-- Appending one copy and then `count` more is appending `count + 1`. -/
theorem decAppended_succ (c : Byte) (count : Nat) (s : State) (h : s.dec.job.w.toNat + 1 < 2 ^ 64) :
    decAppended c count (decAppended c 1 s) = decAppended c (count + 1) s := by
  have hw : (BitVec.ofNat 64 (s.dec.job.w.toNat + 1)).toNat = s.dec.job.w.toNat + 1 := by
    rw [BitVec.toNat_ofNat, Nat.mod_eq_of_lt h]
  simp only [decAppended, State.setBytes, State.setMem, State.mem, hw, List.replicate, Memory.setAll]
  congr 3
  congr 1
  omega

/-- One Append that fits (42_decoder.md R101). -/
theorem decAppend_fits (c : Byte) (pos : Word64) (s : State) (h : s.dec.job.w.toNat < s.dec.job.orig.toNat)
    (hc : s.dec.job.orig.toNat ≤ s.cap .decDst) : decAppend c pos s = .go (decAppended c 1 s) := by
  have h1 : ¬ s.dec.job.orig.toNat ≤ s.dec.job.w.toNat := by omega
  have h2 : s.dec.job.w.toNat < s.cap .decDst := by omega
  simp [decAppend, h1, State.memWrite, h2, decAppended, State.setByte, State.setBytes, Memory.setAll]

/-- An Append at the end of the output raises OVERFLOW (42_decoder.md R101). -/
theorem decAppend_full (c : Byte) (pos : Word64) (s : State) (h : s.dec.job.orig.toNat ≤ s.dec.job.w.toNat) :
    decAppend c pos s = .halt (s.raiseFault .dec .malformedEncoding .overflow pos) := by
  simp [decAppend, h]

@[simp] theorem decAppended_decW (c : Byte) (count : Nat) (s : State) :
    (decAppended c count s).dec.job.w = BitVec.ofNat 64 (s.dec.job.w.toNat + count) := rfl
@[simp] theorem decAppended_decOrig (c : Byte) (count : Nat) (s : State) :
    (decAppended c count s).dec.job.orig = s.dec.job.orig := rfl
@[simp] theorem decAppended_decI (c : Byte) (count : Nat) (s : State) :
    (decAppended c count s).dec.job.i = s.dec.job.i := rfl
@[simp] theorem decAppended_decLen (c : Byte) (count : Nat) (s : State) :
    (decAppended c count s).dec.job.len = s.dec.job.len := rfl
@[simp] theorem decAppended_decPhase (c : Byte) (count : Nat) (s : State) :
    (decAppended c count s).dec.phase = s.dec.phase := rfl
@[simp] theorem decAppended_decRegs (c : Byte) (count : Nat) (s : State) :
    (decAppended c count s).dec.regs = s.dec.regs := rfl
@[simp] theorem decAppended_decSrc (c : Byte) (count : Nat) (s : State) :
    (decAppended c count s).dec.src = s.dec.src := rfl
@[simp] theorem decAppended_enc (c : Byte) (count : Nat) (s : State) : (decAppended c count s).enc = s.enc := rfl
@[simp] theorem decAppended_caps (c : Byte) (count : Nat) (s : State) : (decAppended c count s).caps = s.caps := rfl
@[simp] theorem decAppended_epoch (c : Byte) (count : Nat) (s : State) : (decAppended c count s).epoch = s.epoch := rfl
@[simp] theorem decAppended_cap (c : Byte) (count : Nat) (s : State) (b : Buffer) :
    (decAppended c count s).cap b = s.cap b := rfl
@[simp] theorem decAppended_program (c : Byte) (count : Nat) (s : State) :
    (decAppended c count s).program = s.program := rfl
@[simp] theorem decAppended_schedule (c : Byte) (count : Nat) (s : State) :
    (decAppended c count s).schedule = s.schedule := rfl
@[simp] theorem decAppended_reads (c : Byte) (count : Nat) (s : State) :
    (decAppended c count s).reads = s.reads := rfl
@[simp] theorem decAppended_names (c : Byte) (count : Nat) (s : State) :
    (decAppended c count s).names = s.names := rfl
@[simp] theorem decAppended_checks (c : Byte) (count : Nat) (s : State) :
    (decAppended c count s).checks = s.checks := rfl

theorem decAppended_mem (c : Byte) (count : Nat) (s : State) (b : Buffer) :
    (decAppended c count s).mem b = (s.setBytes .decDst s.dec.job.w.toNat (List.replicate count c)).mem b := by
  cases b <;> rfl

theorem decAppended_byteAt (c : Byte) (count : Nat) (s : State) (b : Buffer) (k : Nat) :
    (decAppended c count s).byteAt b k =
      (s.setBytes .decDst s.dec.job.w.toNat (List.replicate count c)).byteAt b k :=
  State.byteAt_congr (decAppended_mem c count s b) (by simp) k

/-- All copies fit: they are appended (42_decoder.md R104). -/
theorem decAppendMany_fits (c : Byte) (pos : Word64) (count : Nat) (s : State)
    (h : s.dec.job.w.toNat + count ≤ s.dec.job.orig.toNat) (hc : s.dec.job.orig.toNat ≤ s.cap .decDst) :
    decAppendMany c pos count s = .go (decAppended c count s) := by
  induction count generalizing s with
  | zero => simp [decAppendMany, decAppended_zero]
  | succ count ih =>
    have ho : s.dec.job.orig.toNat < 2 ^ 32 := s.dec.job.orig.isLt
    have hw : s.dec.job.w.toNat + 1 < 2 ^ 64 := by omega
    rw [decAppendMany, decAppend_fits c pos s (by omega) hc]
    simp only
    rw [ih _ (by simp; omega) (by simpa using hc), decAppended_succ c count s hw]

/-- Too many copies: those that fit stay written, the next one raises OVERFLOW (42_decoder.md R104;
60_exceptions.md R124). -/
theorem decAppendMany_overflows (c : Byte) (pos : Word64) (count : Nat) (s : State)
    (hw : s.dec.job.w.toNat ≤ s.dec.job.orig.toNat) (h : s.dec.job.orig.toNat < s.dec.job.w.toNat + count)
    (hc : s.dec.job.orig.toNat ≤ s.cap .decDst) :
    decAppendMany c pos count s =
      .halt ((decAppended c (s.dec.job.orig.toNat - s.dec.job.w.toNat) s).raiseFault .dec .malformedEncoding
        .overflow pos) := by
  induction count generalizing s with
  | zero => omega
  | succ count ih =>
    have ho : s.dec.job.orig.toNat < 2 ^ 32 := s.dec.job.orig.isLt
    by_cases hf : s.dec.job.orig.toNat ≤ s.dec.job.w.toNat
    · rw [decAppendMany, decAppend_full c pos s hf]
      have : s.dec.job.orig.toNat - s.dec.job.w.toNat = 0 := by omega
      simp [this, decAppended_zero]
    · have h1 : s.dec.job.w.toNat + 1 < 2 ^ 64 := by omega
      rw [decAppendMany, decAppend_fits c pos s (by omega) hc]
      simp only
      rw [ih _ (by simp; omega) (by simp; omega) (by simpa using hc)]
      simp only [decAppended_decW, decAppended_decOrig, BitVec.toNat_ofNat, Nat.mod_eq_of_lt h1]
      rw [decAppended_succ c _ s h1]
      congr 3
      omega

/-! ### Emit and Flush -/

/-- The state after ENC has emitted the bytes `u`. -/
def encEmitted (u : List Byte) (s : State) : State :=
  let t := s.setBytes .encDst s.enc.job.outPos.toNat u
  { t with enc := { t.enc with job := { t.enc.job with outPos := BitVec.ofNat 64 (s.enc.job.outPos.toNat + u.length) } } }

theorem encEmitted_nil (s : State) : encEmitted [] s = s := by
  simp [encEmitted, State.setBytes, Memory.setAll, State.setMem, State.mem]

@[simp] theorem encEmitted_encPhase (u : List Byte) (s : State) : (encEmitted u s).enc.phase = s.enc.phase := rfl
@[simp] theorem encEmitted_encRegs (u : List Byte) (s : State) : (encEmitted u s).enc.regs = s.enc.regs := rfl
@[simp] theorem encEmitted_encJob (u : List Byte) (s : State) :
    (encEmitted u s).enc.job =
      { s.enc.job with outPos := BitVec.ofNat 64 (s.enc.job.outPos.toNat + u.length) } := rfl
@[simp] theorem encEmitted_encSrc (u : List Byte) (s : State) : (encEmitted u s).enc.src = s.enc.src := rfl
@[simp] theorem encEmitted_dec (u : List Byte) (s : State) : (encEmitted u s).dec = s.dec := rfl
@[simp] theorem encEmitted_caps (u : List Byte) (s : State) : (encEmitted u s).caps = s.caps := rfl
@[simp] theorem encEmitted_epoch (u : List Byte) (s : State) : (encEmitted u s).epoch = s.epoch := rfl
@[simp] theorem encEmitted_cap (u : List Byte) (s : State) (b : Buffer) : (encEmitted u s).cap b = s.cap b := rfl
@[simp] theorem encEmitted_program (u : List Byte) (s : State) : (encEmitted u s).program = s.program := rfl
@[simp] theorem encEmitted_schedule (u : List Byte) (s : State) : (encEmitted u s).schedule = s.schedule := rfl
@[simp] theorem encEmitted_reads (u : List Byte) (s : State) : (encEmitted u s).reads = s.reads := rfl
@[simp] theorem encEmitted_names (u : List Byte) (s : State) : (encEmitted u s).names = s.names := rfl
@[simp] theorem encEmitted_checks (u : List Byte) (s : State) : (encEmitted u s).checks = s.checks := rfl

theorem encEmitted_mem (u : List Byte) (s : State) (b : Buffer) :
    (encEmitted u s).mem b = (s.setBytes .encDst s.enc.job.outPos.toNat u).mem b := by
  cases b <;> rfl

theorem encEmitted_byteAt (u : List Byte) (s : State) (b : Buffer) (k : Nat) :
    (encEmitted u s).byteAt b k = (s.setBytes .encDst s.enc.job.outPos.toNat u).byteAt b k :=
  State.byteAt_congr (encEmitted_mem u s b) (by simp) k

/-- Emit is all or nothing (41_encoder.md R83). -/
theorem encEmit_cases (u : List Byte) (pos : Word64) (s : State) :
    encEmit u pos s =
      if s.enc.job.outPos.toNat + u.length ≤ s.cap .encDst then .go (encEmitted u s)
      else .halt (s.raiseFault .enc .allocationFailure .none pos) := by
  by_cases h : s.enc.job.outPos.toNat + u.length ≤ s.cap .encDst
  · have h1 : ¬ s.cap .encDst < s.enc.job.outPos.toNat + u.length := by omega
    simp [encEmit, h1, State.memWriteAll, h, encEmitted]
  · have h1 : s.cap .encDst < s.enc.job.outPos.toNat + u.length := by omega
    simp [encEmit, h1, h]

/-- Flush emits the unit of the run, which is nothing for an empty run (41_encoder.md R84). -/
theorem encFlush_cases (ch : Byte) (len : Nat) (pos : Word64) (s : State)
    (h : s.enc.job.outPos.toNat ≤ s.cap .encDst) :
    encFlush ch len pos s =
      if s.enc.job.outPos.toNat + (runUnit ch len).length ≤ s.cap .encDst then .go (encEmitted (runUnit ch len) s)
      else .halt (s.raiseFault .enc .allocationFailure .none pos) := by
  match len with
  | 0 => simp [encFlush, runUnit, h, encEmitted_nil]
  | 1 => simp [encFlush, encEmit_cases]
  | len + 2 => simp [encFlush, encEmit_cases]

/-- A run costs nothing, one byte, or three (41_encoder.md R84). -/
theorem runUnit_length (ch : Byte) (len : Nat) :
    (runUnit ch len).length = if len = 0 then 0 else if len = 1 then 1 else 3 := by
  match len with
  | 0 => rfl
  | 1 => rfl
  | len + 2 => simp [runUnit]

/-! ### Reads -/

theorem State.memRead_of_lt {s : State} {b : Buffer} {k : Nat} (h : k < s.cap b) :
    s.memRead b k = some (s.byteAt b k) := by
  simp [State.memRead, h]

/-- The header bytes DEC fetches. -/
theorem State.memReadAll_four {s : State} {b : Buffer} (h : 4 ≤ s.cap b) :
    s.memReadAll b 0 4 = some [s.byteAt b 0, s.byteAt b 1, s.byteAt b 2, s.byteAt b 3] := by
  have h0 : 0 < s.cap b := by omega
  have h1 : 1 < s.cap b := by omega
  have h2 : 2 < s.cap b := by omega
  have h3 : 3 < s.cap b := by omega
  simp [State.memReadAll, State.memRead, h0, h1, h2, h3]

/-- The bytes DEC fetches for the unit at `i` decode to the unit of 30_encoding.md R59. -/
theorem fetchUnitBytes_decodes {s : State} (hi : s.dec.job.i.toNat < s.dec.job.len.toNat)
    (hL : s.dec.job.len.toNat ≤ s.cap .decSrc) :
    ∃ bs rest, fetchUnitBytes s = some bs ∧
      decodeUnit bs = .ok (
        if s.dec.job.i.toNat + 2 < s.dec.job.len.toNat ∧
            s.byteAt .decSrc (s.dec.job.i.toNat + 1) = s.byteAt .decSrc s.dec.job.i.toNat then
          .esc (s.byteAt .decSrc s.dec.job.i.toNat) (s.byteAt .decSrc (s.dec.job.i.toNat + 2))
        else .lit (s.byteAt .decSrc s.dec.job.i.toNat), rest) := by
  have h0 : s.dec.job.i.toNat < s.cap .decSrc := by omega
  by_cases h2 : s.dec.job.i.toNat + 2 < s.dec.job.len.toNat
  · have h1 : s.dec.job.i.toNat + 1 < s.cap .decSrc := by omega
    have h3 : s.dec.job.i.toNat + 2 < s.cap .decSrc := by omega
    by_cases he : s.byteAt .decSrc (s.dec.job.i.toNat + 1) = s.byteAt .decSrc s.dec.job.i.toNat
    · simp [fetchUnitBytes, State.memRead, h0, h1, h2, h3, he, decodeUnit]
    · simp [fetchUnitBytes, State.memRead, h0, h1, h2, he, decodeUnit]
  · simp [fetchUnitBytes, State.memRead, h0, h2, decodeUnit]

end Sys2Proof.Machine
end

