-- ==== Sys2Proof/Laws/Step.lean ====
section
/-! SUPPORT. What a step can do, said once: which agent moves, and what its move is. -/

namespace Sys2Proof.Machine

/-- Two states with the same block: engines, capacities and reset number. The host's lines, the interleaving and the
values read are not the block's. -/
structure SameBlock (s u : State) : Prop where
  enc : u.enc = s.enc
  dec : u.dec = s.dec
  caps : u.caps = s.caps
  epoch : u.epoch = s.epoch

theorem SameBlock.refl (s : State) : SameBlock s s := ⟨rfl, rfl, rfl, rfl⟩

theorem SameBlock.mem {s u : State} (h : SameBlock s u) (b : Buffer) : u.mem b = s.mem b := by
  cases b <;> simp [State.mem, h.enc, h.dec]

theorem SameBlock.cap {s u : State} (h : SameBlock s u) (b : Buffer) : u.cap b = s.cap b := by
  simp [State.cap, h.caps]

theorem SameBlock.byteAt {s u : State} (h : SameBlock s u) (b : Buffer) (k : Nat) : u.byteAt b k = s.byteAt b k :=
  State.byteAt_congr (h.mem b) h.epoch k

/-- ENC's part of the invariant is about ENC, the capacities and the reset number. -/
theorem EncJobOk.congr {s t : State} (he : t.enc = s.enc) (hc : t.caps = s.caps) (hn : t.epoch = s.epoch)
    (h : EncJobOk s) : EncJobOk t := by
  have hcap : ∀ b, t.cap b = s.cap b := fun b => by simp [State.cap, hc]
  have hb : ∀ k, t.byteAt .encSrc k = s.byteAt .encSrc k := fun k => State.byteAt_congr (by simp [State.mem, he]) hn k
  simpa only [EncJobOk, EncScanOk, he, hcap, hb] using h

/-- DEC's part of the invariant is about DEC and the capacities. -/
theorem DecJobOk.congr {s t : State} (hd : t.dec = s.dec) (hc : t.caps = s.caps) (h : DecJobOk s) : DecJobOk t := by
  have hcap : ∀ b, t.cap b = s.cap b := fun b => by simp [State.cap, hc]
  simpa only [DecJobOk, DecBodyOk, hd, hcap] using h

/-- The invariant is about the block alone. -/
theorem SameBlock.inv {s u : State} (h : SameBlock s u) (hi : Inv s) : Inv u where
  encStatus := h.enc ▸ hi.encStatus
  decStatus := h.dec ▸ hi.decStatus
  buffers := State.buffersOk_congr h.mem h.cap hi.buffers
  encJob := hi.encJob.congr h.enc h.caps h.epoch
  decJob := hi.decJob.congr h.dec h.caps
  codes := by
    have := hi.codes
    simpa only [CodesOk, h.enc, h.dec] using this

/-- The instructions a line of the host decodes to: its operations. The others are the stream units, which DEC runs, and
WR32, of which every word decodes to a more specific row (notes/assumptions/8.md). -/
def hostOperation : Instr → Bool
  | .hdr _ => false
  | .lit _ => false
  | .esc _ _ => false
  | .rd32 _ _ => true
  | .wr32 _ _ _ => false
  | .encStart _ => true
  | .decStart _ => true
  | .encClr _ => true
  | .decClr _ => true
  | .encNop _ => true
  | .decNop _ => true
  | .irqEnWr _ _ => true
  | .srcLenWr _ _ _ => true
  | .roWr _ _ _ => true
  | .rdb _ _ => true
  | .wrb _ _ _ => true

theorem hostOperation_decodeCommand (e : Engine) (data : Word) : hostOperation (decodeCommand e data) = true := by
  unfold decodeCommand; split <;> rfl

theorem hostOperation_decodeWrite (e : Engine) (r : Reg) (data : Word) : hostOperation (decodeWrite e r data) = true := by
  cases r <;> first | rfl | exact hostOperation_decodeCommand e data

/-- A bus access decodes to a host operation. -/
theorem hostOperation_of_decodeBus {a : BusAccess} {i : Instr} (h : decodeBus a = .ok i) : hostOperation i = true := by
  cases a with
  | regRead width off =>
    simp only [decodeBus] at h
    split at h
    · cases h; rfl
    · cases h
  | regWrite width off data =>
    simp only [decodeBus] at h
    split at h
    · cases h; exact hostOperation_decodeWrite _ _ _
    · cases h
  | bufRead b idx => cases h; rfl
  | bufWrite b idx data => cases h; rfl

/-- Choosing the agent leaves everything but the listed interleaving. -/
theorem chooseAgent_same (s : State) :
    SameBlock s (chooseAgent s).2 ∧ (chooseAgent s).2.program = s.program ∧ (chooseAgent s).2.reads = s.reads := by
  unfold chooseAgent
  split <;> exact ⟨⟨rfl, rfl, rfl, rfl⟩, rfl, rfl⟩

/-- Moving past a line and binding what it reads leaves the block and the values read. -/
theorem bindRead_same (s : State) (op : NamedOp) :
    SameBlock s (s.bindRead op) ∧ (s.bindRead op).reads = s.reads ∧ (s.bindRead op).program = s.program ∧
      (s.bindRead op).schedule = s.schedule ∧ (s.bindRead op).checks = s.checks := by
  cases op with
  | rd32 e r x => exact ⟨⟨rfl, rfl, rfl, rfl⟩, rfl, rfl, rfl, rfl⟩
  | wr32 e r imm => exact ⟨⟨rfl, rfl, rfl, rfl⟩, rfl, rfl, rfl, rfl⟩
  | rdb b k x => simp only [State.bindRead]; split <;> exact ⟨⟨rfl, rfl, rfl, rfl⟩, rfl, rfl, rfl, rfl⟩
  | wrb b k imm => exact ⟨⟨rfl, rfl, rfl, rfl⟩, rfl, rfl, rfl, rfl⟩

/-- A bus access is one host operation, or a bus error. -/
theorem fetchAccess_cases (a : BusAccess) (s : State) :
    (∃ i, decodeBus a = .ok i ∧ hostOperation i = true ∧ fetchAccess a s = .instr i s) ∨
    (∃ err, decodeBus a = .error err ∧ fetchAccess a s = .ended (.refused (.busError err))) := by
  unfold fetchAccess
  cases h : decodeBus a with
  | ok i => exact .inl ⟨i, rfl, hostOperation_of_decodeBus h, rfl⟩
  | error err => exact .inr ⟨err, rfl, rfl⟩

/-- Everything the host's next line can be: a move that leaves the block, the reset input, a refusal, or one host
operation. -/
theorem fetchHost_cases (s : State) :
    ∃ u, SameBlock s u ∧ u.reads = s.reads ∧
      (fetchHost s = .ended (.next u) ∨
       fetchHost s = .ended (.next u.applyReset) ∨
       (∃ r, fetchHost s = .ended (.refused r)) ∨
       (∃ i, hostOperation i = true ∧ fetchHost s = .instr i u)) := by
  unfold fetchHost
  split
  · exact ⟨s, .refl s, rfl, .inl rfl⟩
  · rename_i a rest _
    refine ⟨{ s with program := rest }, ⟨rfl, rfl, rfl, rfl⟩, rfl, .inr (.inr ?_)⟩
    rcases fetchAccess_cases a { s with program := rest } with ⟨i, _, hi, h⟩ | ⟨err, _, h⟩
    · exact .inr ⟨i, hi, h⟩
    · exact .inl ⟨_, h⟩
  · rename_i op rest _
    obtain ⟨hb, hr, _⟩ := bindRead_same s op
    refine ⟨{ s.bindRead op with program := rest }, ⟨hb.enc, hb.dec, hb.caps, hb.epoch⟩, hr, .inr (.inr ?_)⟩
    split
    · rename_i a _
      rcases fetchAccess_cases a { s.bindRead op with program := rest } with ⟨i, _, hi, h⟩ | ⟨err, _, h⟩
      · exact .inr ⟨i, hi, h⟩
      · exact .inl ⟨_, h⟩
    · exact .inl ⟨_, rfl⟩
  · rename_i e r mask value rest _
    simp only [fetchPoll]
    split
    · split
      · exact ⟨{ s.bindName pollName (.word (s.readReg e r)) with program := rest }, ⟨rfl, rfl, rfl, rfl⟩, rfl,
          .inr (.inr (.inr ⟨_, rfl, rfl⟩))⟩
      · exact ⟨s.bindName pollName (.word (s.readReg e r)), ⟨rfl, rfl, rfl, rfl⟩, rfl,
          .inr (.inr (.inr ⟨_, rfl, rfl⟩))⟩
    · exact ⟨s, .refl s, rfl, .inr (.inr (.inl ⟨_, rfl⟩))⟩
  · rename_i equations rest _
    split
    · rename_i ok _
      exact ⟨{ s with program := rest, checks := ok :: s.checks }, ⟨rfl, rfl, rfl, rfl⟩, rfl, .inl rfl⟩
    · exact ⟨s, .refl s, rfl, .inr (.inr (.inl ⟨_, rfl⟩))⟩
  · rename_i rest _
    exact ⟨{ s with program := rest }, ⟨rfl, rfl, rfl, rfl⟩, rfl, .inr (.inl rfl)⟩

/-- Everything the next move can be. -/
theorem fetch_cases (s : State) :
    ∃ u, SameBlock s u ∧ u.reads = s.reads ∧
      (fetch s = .ended (.next u) ∨
       fetch s = .ended (.next u.applyReset) ∨
       (∃ r, fetch s = .ended (.refused r)) ∨
       (∃ i, hostOperation i = true ∧ fetch s = .instr i u) ∨
       fetch s = .ended (encStep u) ∨
       fetch s = fetchDec u) := by
  obtain ⟨hs, hp, hr⟩ := chooseAgent_same s
  unfold fetch
  generalize chooseAgent s = p at hs hp hr
  obtain ⟨a, t⟩ := p
  simp only at hs hp hr
  match a with
  | none => exact ⟨t, hs, hr, .inl rfl⟩
  | some .enc => exact ⟨t, hs, hr, .inr (.inr (.inr (.inr (.inl rfl))))⟩
  | some .dec => exact ⟨t, hs, hr, .inr (.inr (.inr (.inr (.inr rfl))))⟩
  | some .host =>
    obtain ⟨u, hu, hr', h⟩ := fetchHost_cases t
    refine ⟨u, ⟨hu.enc.trans hs.enc, hu.dec.trans hs.dec, hu.caps.trans hs.caps, hu.epoch.trans hs.epoch⟩,
      hr'.trans hr, ?_⟩
    rcases h with h | h | h | h
    · exact .inl h
    · exact .inr (.inl h)
    · exact .inr (.inr (.inl h))
    · exact .inr (.inr (.inr (.inl h)))

/-- A stream unit is fetched by DEC only, in the phase it belongs to. -/
theorem fetchDec_cases (u : State) :
    (u.dec.phase = .idle ∧ fetchDec u = .ended (.next u)) ∨
    (u.dec.phase = .header ∧ fetchDec u = fetchStream .header 0 (u.memReadAll .decSrc 0 4) u) ∨
    (u.dec.phase = .body ∧ fetchDec u = fetchStream .body u.dec.job.i.toNat (fetchUnitBytes u) u) ∨
    (u.dec.phase = .check ∧ fetchDec u = .ended (decCheck u)) := by
  unfold fetchDec
  cases u.dec.phase <;> simp

/-- A listed move of ENC is one encoder step. -/
theorem step_enc (s : State) : step { s with schedule := .enc :: s.schedule } = encStep s := rfl

/-- A listed move of DEC is DEC's own next move. -/
theorem step_dec (s : State) :
    step { s with schedule := .dec :: s.schedule } =
      match fetchDec s with
      | .instr i t => exec i t
      | .ended o => o := rfl

/-- A listed move of DEC in phase HEADER runs the header its first four bytes hold (42_decoder.md R100). -/
theorem step_dec_header {s : State} (hp : s.dec.phase = .header) (h : 4 ≤ s.cap .decSrc) :
    step { s with schedule := .dec :: s.schedule } =
      execHdr (ofLeBytes (s.byteAt .decSrc 0) (s.byteAt .decSrc 1) (s.byteAt .decSrc 2) (s.byteAt .decSrc 3)) s := by
  rw [step_dec, fetchDec, hp]
  simp only [State.memReadAll_four h, fetchStream, decodeStream, decodeHeader]
  rfl

/-- A listed move of DEC in phase BODY runs the unit at `i` (42_decoder.md R102). -/
theorem step_dec_body {s : State} (hp : s.dec.phase = .body) (hi : s.dec.job.i.toNat < s.dec.job.len.toNat)
    (hL : s.dec.job.len.toNat ≤ s.cap .decSrc) :
    step { s with schedule := .dec :: s.schedule } =
      if s.dec.job.i.toNat + 2 < s.dec.job.len.toNat ∧
          s.byteAt .decSrc (s.dec.job.i.toNat + 1) = s.byteAt .decSrc s.dec.job.i.toNat then
        execEsc (s.byteAt .decSrc s.dec.job.i.toNat) (s.byteAt .decSrc (s.dec.job.i.toNat + 2)) s
      else execLit (s.byteAt .decSrc s.dec.job.i.toNat) s := by
  obtain ⟨bs, rest, hf, hd⟩ := fetchUnitBytes_decodes hi hL
  rw [step_dec, fetchDec, hp]
  simp only [hf, fetchStream, decodeStream, hd]
  split <;> rfl

end Sys2Proof.Machine
end

