-- ==== Sys2Proof/Laws/Engines.lean ====
section
/-! SUPPORT. Everything one move of an engine can do, said once, from any state: the cases of ENC's step and of DEC's
step, with the guard and the whole next state of each. -/

namespace Sys2Proof.Machine

/-! ### ENC -/

/-- The unit a flush at index `pos` emits: the run from `run_start` to `pos - 1` (41_encoder.md R84). -/
def encRun (s : State) (pos : Word64) : List Byte :=
  runUnit s.enc.job.runChar (pos.toNat - s.enc.job.runStart.toNat)

/-- The state after ENC's HEADER step has written the header (41_encoder.md R82). -/
def encHeaderDone (s : State) : State :=
  let t := s.setBytes .encDst 0 (leBytes (s.enc.job.n.extractLsb' 0 32))
  { t with enc := { t.enc with
      phase := if s.enc.job.n.toNat = 0 then .tail else .scan,
      regs := { t.enc.regs with hdrLen := s.enc.job.n.extractLsb' 0 32 },
      job := { t.enc.job with outPos := 4#64 } } }

theorem encHeader_cases (s : State) :
    encHeader s = .next (if 4 ≤ s.cap .encDst then encHeaderDone s
      else s.raiseFault .enc .allocationFailure .none 0#64) := by
  by_cases h : 4 ≤ s.cap .encDst
  · have h1 : ¬ s.cap .encDst < 4 := by omega
    have h2 : 0 + (leBytes (s.enc.job.n.extractLsb' 0 32)).length ≤ s.cap .encDst := by simpa [leBytes] using h
    simp only [encHeader, h1, State.memWriteAll, h2, h, encHeaderDone, if_true, if_false, State.setBytes_encJob]
  · have h1 : s.cap .encDst < 4 := by omega
    simp [encHeader, h1, h]

/-- A flush ends in the unit emitted or in AllocationFailure, from any state; the first needs room for the unit. -/
theorem encFlush_ends (ch : Byte) (len : Nat) (pos : Word64) (s : State) :
    (encFlush ch len pos s = .go (encEmitted (runUnit ch len) s) ∧
      (len = 0 ∨ s.enc.job.outPos.toNat + (runUnit ch len).length ≤ s.cap .encDst)) ∨
    (encFlush ch len pos s = .halt (s.raiseFault .enc .allocationFailure .none pos) ∧ 0 < len ∧
      s.cap .encDst < s.enc.job.outPos.toNat + (runUnit ch len).length) := by
  match len with
  | 0 => exact .inl ⟨by simp [encFlush, runUnit, encEmitted_nil], .inl rfl⟩
  | len + 1 =>
    by_cases h : s.enc.job.outPos.toNat + (runUnit ch (len + 1)).length ≤ s.cap .encDst
    · exact .inl ⟨by simp [encFlush, encEmit_cases, h], .inr h⟩
    · exact .inr ⟨by simp [encFlush, encEmit_cases, h], by omega, by omega⟩

/-- Everything a step of ENC that answers a next state can do. -/
inductive EncMove (s : State) : State → Prop where
  | idle : s.enc.phase = .idle → EncMove s s
  | headerFault : s.enc.phase = .header → s.cap .encDst < 4 →
      EncMove s (s.raiseFault .enc .allocationFailure .none 0#64)
  | header : s.enc.phase = .header → 4 ≤ s.cap .encDst → EncMove s (encHeaderDone s)
  | extend : s.enc.phase = .scan → s.enc.job.i.toNat < s.cap .encSrc →
      s.enc.job.runStart.toNat ≤ s.enc.job.i.toNat →
      s.byteAt .encSrc s.enc.job.i.toNat = s.enc.job.runChar →
      s.enc.job.i.toNat - s.enc.job.runStart.toNat ≠ 255 → EncMove s (encAdvance s)
  | flush : s.enc.phase = .scan → s.enc.job.i.toNat < s.cap .encSrc →
      s.enc.job.runStart.toNat ≤ s.enc.job.i.toNat →
      (s.byteAt .encSrc s.enc.job.i.toNat ≠ s.enc.job.runChar ∨
        s.enc.job.i.toNat - s.enc.job.runStart.toNat = 255) →
      (s.enc.job.i.toNat = s.enc.job.runStart.toNat ∨
        s.enc.job.outPos.toNat + (encRun s s.enc.job.i).length ≤ s.cap .encDst) →
      EncMove s (encAdvance (encRestart (s.byteAt .encSrc s.enc.job.i.toNat) (encEmitted (encRun s s.enc.job.i) s)))
  | scanFault : s.enc.phase = .scan → s.enc.job.i.toNat < s.cap .encSrc →
      s.enc.job.runStart.toNat < s.enc.job.i.toNat →
      (s.byteAt .encSrc s.enc.job.i.toNat ≠ s.enc.job.runChar ∨
        s.enc.job.i.toNat - s.enc.job.runStart.toNat = 255) →
      s.cap .encDst < s.enc.job.outPos.toNat + (encRun s s.enc.job.i).length →
      EncMove s (s.raiseFault .enc .allocationFailure .none s.enc.job.i)
  | complete : s.enc.phase = .tail → s.enc.job.runStart.toNat ≤ s.enc.job.n.toNat →
      (s.enc.job.n.toNat = s.enc.job.runStart.toNat ∨
        s.enc.job.outPos.toNat + (encRun s s.enc.job.n).length ≤ s.cap .encDst) →
      EncMove s (encComplete (encEmitted (encRun s s.enc.job.n) s))
  | tailFault : s.enc.phase = .tail → s.enc.job.runStart.toNat < s.enc.job.n.toNat →
      s.cap .encDst < s.enc.job.outPos.toNat + (encRun s s.enc.job.n).length →
      EncMove s (s.raiseFault .enc .allocationFailure .none s.enc.job.n)

/-- A move of ENC leaves DEC, the instance and the host alone (20_memory.md R52). -/
theorem EncMove.others {s t : State} (h : EncMove s t) :
    t.dec = s.dec ∧ t.caps = s.caps ∧ t.epoch = s.epoch ∧ t.program = s.program ∧ t.schedule = s.schedule ∧
      t.reads = s.reads ∧ t.names = s.names ∧ t.checks = s.checks := by
  cases h <;> exact ⟨rfl, rfl, rfl, rfl, rfl, rfl, rfl, rfl⟩

/-- ENC's step makes one of its moves, or meets a fault of the model: reading SRC beyond its capacity, or a run that
starts after its end. -/
theorem encStep_cases (s : State) :
    (∃ t, encStep s = .next t ∧ EncMove s t) ∨
    (encStep s = .fault (.readBeyondCapacity .encSrc s.enc.job.i.toNat) ∧ s.enc.phase = .scan ∧
      s.cap .encSrc ≤ s.enc.job.i.toNat) ∨
    (encStep s = .fault .negativeLength ∧
      ((s.enc.phase = .scan ∧ s.enc.job.i.toNat < s.enc.job.runStart.toNat) ∨
       (s.enc.phase = .tail ∧ s.enc.job.n.toNat < s.enc.job.runStart.toNat))) := by
  cases hp : s.enc.phase with
  | idle => exact .inl ⟨s, by simp [encStep, hp], .idle hp⟩
  | header =>
    refine .inl ⟨_, by rw [encStep, hp]; exact encHeader_cases s, ?_⟩
    split
    · exact .header hp ‹_›
    · exact .headerFault hp (by omega)
  | scan =>
    by_cases hi : s.enc.job.i.toNat < s.cap .encSrc
    · by_cases hr : s.enc.job.i.toNat < s.enc.job.runStart.toNat
      · exact .inr (.inr ⟨by simp [encStep, hp, encScan, State.memRead_of_lt hi, hr], .inl ⟨rfl, hr⟩⟩)
      · have hr' : s.enc.job.runStart.toNat ≤ s.enc.job.i.toNat := by omega
        left
        by_cases hb : s.byteAt .encSrc s.enc.job.i.toNat = s.enc.job.runChar
        · by_cases hl : s.enc.job.i.toNat - s.enc.job.runStart.toNat = 255
          · rcases encFlush_ends s.enc.job.runChar 255 s.enc.job.i s with ⟨hf, hg⟩ | ⟨hf, h0, hg⟩
            · refine ⟨encAdvance (encRestart (s.byteAt .encSrc s.enc.job.i.toNat)
                (encEmitted (encRun s s.enc.job.i) s)), ?_, .flush hp hi hr' (.inr hl) (.inr ?_)⟩
              · simp only [encStep, hp, encScan, State.memRead_of_lt hi, if_neg hr, hb, ne_eq, not_true_eq_false,
                  if_false, hl, if_true, hf, Progress.andThen, encRun]
              · simpa [encRun, hl] using hg
            · refine ⟨_, ?_, .scanFault hp hi (by omega) (.inr hl) (by simpa [encRun, hl] using hg)⟩
              simp only [encStep, hp, encScan, State.memRead_of_lt hi, if_neg hr, hb, ne_eq, not_true_eq_false,
                if_false, hl, if_true, hf, Progress.andThen]
          · exact ⟨_, by simp only [encStep, hp, encScan, State.memRead_of_lt hi, if_neg hr, hb, ne_eq,
              not_true_eq_false, if_false, hl], .extend hp hi hr' hb hl⟩
        · rcases encFlush_ends s.enc.job.runChar (s.enc.job.i.toNat - s.enc.job.runStart.toNat) s.enc.job.i s with
            ⟨hf, hg⟩ | ⟨hf, h0, hg⟩
          · refine ⟨encAdvance (encRestart (s.byteAt .encSrc s.enc.job.i.toNat)
              (encEmitted (encRun s s.enc.job.i) s)), ?_, .flush hp hi hr' (.inl hb) (hg.imp (by omega) id)⟩
            simp only [encStep, hp, encScan, State.memRead_of_lt hi, if_neg hr, hb, ne_eq, not_false_eq_true,
              if_true, hf, Progress.andThen, encRun]
          · refine ⟨_, ?_, .scanFault hp hi (by omega) (.inl hb) hg⟩
            simp only [encStep, hp, encScan, State.memRead_of_lt hi, if_neg hr, hb, ne_eq, not_false_eq_true,
              if_true, hf, Progress.andThen]
    · exact .inr (.inl ⟨by simp [encStep, hp, encScan, State.memRead, hi], rfl, by omega⟩)
  | tail =>
    by_cases hr : s.enc.job.n.toNat < s.enc.job.runStart.toNat
    · exact .inr (.inr ⟨by simp [encStep, hp, encTail, hr], .inr ⟨rfl, hr⟩⟩)
    · have hr' : s.enc.job.runStart.toNat ≤ s.enc.job.n.toNat := by omega
      left
      rcases encFlush_ends s.enc.job.runChar (s.enc.job.n.toNat - s.enc.job.runStart.toNat) s.enc.job.n s with
        ⟨hf, hg⟩ | ⟨hf, h0, hg⟩
      · exact ⟨_, by simp only [encStep, hp, encTail, if_neg hr, hf, Progress.andThen, encRun],
          .complete hp hr' (hg.imp (by omega) id)⟩
      · exact ⟨_, by simp only [encStep, hp, encTail, if_neg hr, hf, Progress.andThen],
          .tailFault hp (by omega) hg⟩

/-! ### DEC -/

/-- Appending copies ends, from any state, in all copies appended, in OVERFLOW after those that fit, or at a DST that
is smaller than `original_length`. -/
theorem decAppendMany_ends (c : Byte) (pos : Word64) (count : Nat) (s : State) :
    (decAppendMany c pos count s = .go (decAppended c count s) ∧
      (count = 0 ∨ s.dec.job.w.toNat + count ≤ s.dec.job.orig.toNat)) ∨
    (∃ k, k < count ∧
      decAppendMany c pos count s = .halt ((decAppended c k s).raiseFault .dec .malformedEncoding .overflow pos) ∧
      (k = 0 ∨ s.dec.job.w.toNat + k ≤ s.dec.job.orig.toNat) ∧
      s.dec.job.orig.toNat ≤ s.dec.job.w.toNat + k) ∨
    (∃ k, decAppendMany c pos count s = .stuck (.writeBeyondCapacity .decDst k) ∧
      s.cap .decDst < s.dec.job.orig.toNat) := by
  induction count generalizing s with
  | zero => exact .inl ⟨by simp [decAppendMany, decAppended_zero], .inl rfl⟩
  | succ count ih =>
    have ho : s.dec.job.orig.toNat < 2 ^ 32 := s.dec.job.orig.isLt
    by_cases hf : s.dec.job.orig.toNat ≤ s.dec.job.w.toNat
    · refine .inr (.inl ⟨0, by omega, ?_, .inl rfl, by omega⟩)
      rw [decAppendMany, decAppend_full c pos s hf]
      simp [decAppended_zero]
    · have h1 : s.dec.job.w.toNat + 1 < 2 ^ 64 := by omega
      by_cases hc : s.dec.job.w.toNat < s.cap .decDst
      · have ha : decAppend c pos s = .go (decAppended c 1 s) := by
          simp [decAppend, hf, State.memWrite, hc, decAppended, State.setByte, State.setBytes, Memory.setAll]
        rw [decAppendMany, ha]
        simp only
        rcases ih (decAppended c 1 s) with ⟨h, hg⟩ | ⟨k, hk, h, hg, hl⟩ | ⟨k, h, hl⟩
        · refine .inl ⟨by rw [h, decAppended_succ c count s h1], .inr ?_⟩
          simp only [decAppended_decW, decAppended_decOrig, BitVec.toNat_ofNat, Nat.mod_eq_of_lt h1] at hg
          omega
        · refine .inr (.inl ⟨k + 1, by omega, by rw [h, decAppended_succ c k s h1], .inr ?_, ?_⟩)
          · simp only [decAppended_decW, decAppended_decOrig, BitVec.toNat_ofNat, Nat.mod_eq_of_lt h1] at hg
            omega
          · simp only [decAppended_decW, decAppended_decOrig, BitVec.toNat_ofNat, Nat.mod_eq_of_lt h1] at hl
            omega
        · exact .inr (.inr ⟨k, h, by simpa using hl⟩)
      · refine .inr (.inr ⟨s.dec.job.w.toNat, ?_, by omega⟩)
        rw [decAppendMany]
        simp [decAppend, hf, State.memWrite, hc]

/-- The state after DEC's HEADER step has accepted `original_length` (42_decoder.md R100). -/
def decHeaderDone (orig : Word) (s : State) : State :=
  { s with dec := { s.dec with
      phase := if s.dec.job.len = 4#64 then .check else .body,
      regs := { s.dec.regs with hdrLen := orig },
      job := { s.dec.job with i := 4#64, w := 0#64, orig := orig } } }

/-- The state after DEC's HEADER step has refused `original_length` (42_decoder.md R100; 10_state.md R26). -/
def decHeaderFault (orig : Word) (s : State) : State :=
  State.raiseFault
    { s with dec := { s.dec with
        regs := { s.dec.regs with hdrLen := orig }, job := { s.dec.job with orig := orig } } }
    .dec .allocationFailure .none 0#64

theorem execHdr_cases (orig : Word) (s : State) :
    exec (.hdr orig) s = .next (if orig.toNat ≤ s.cap .decDst then decHeaderDone orig s else decHeaderFault orig s) := by
  have hc : ∀ r j, State.cap { s with dec := { s.dec with regs := r, job := j } } .decDst = s.cap .decDst :=
    fun _ _ => rfl
  by_cases h : orig.toNat ≤ s.cap .decDst
  · have h1 : ¬ s.cap .decDst < orig.toNat := by omega
    simp [exec, execHdr, hc, h1, h, decHeaderDone]
  · have h1 : s.cap .decDst < orig.toNat := by omega
    simp [exec, execHdr, hc, h1, h, decHeaderFault]

/-- Everything a move of DEC that answers a next state can do. The unit at `i` stands for `count` copies of `c` and
takes `size` bytes: one copy and one byte for a LIT, any count and three bytes for an ESC. -/
inductive DecMove (s : State) : State → Prop where
  | idle : s.dec.phase = .idle → DecMove s s
  | header (orig : Word) : s.dec.phase = .header → orig.toNat ≤ s.cap .decDst → DecMove s (decHeaderDone orig s)
  | headerFault (orig : Word) : s.dec.phase = .header → s.cap .decDst < orig.toNat → DecMove s (decHeaderFault orig s)
  | unit (c : Byte) (count size : Nat) : s.dec.phase = .body →
      (size = 1 ∧ count = 1 ∨ size = 3 ∧ count < 256 ∧ s.dec.job.i.toNat + 2 < s.dec.job.len.toNat) →
      (count = 0 ∨ s.dec.job.w.toNat + count ≤ s.dec.job.orig.toNat) →
      DecMove s (decAdvance size (decAppended c count s))
  | overflow (c : Byte) (k : Nat) : s.dec.phase = .body → k < 256 →
      (k = 0 ∨ s.dec.job.w.toNat + k ≤ s.dec.job.orig.toNat) → s.dec.job.orig.toNat ≤ s.dec.job.w.toNat + k →
      DecMove s ((decAppended c k s).raiseFault .dec .malformedEncoding .overflow s.dec.job.i)
  | complete : s.dec.phase = .check → s.dec.job.w.toNat = s.dec.job.orig.toNat → DecMove s (decComplete s)
  | underfill : s.dec.phase = .check → s.dec.job.w.toNat ≠ s.dec.job.orig.toNat →
      DecMove s (s.raiseFault .dec .malformedEncoding .underfill s.dec.job.len)

/-- A move of DEC leaves ENC, the instance and the host alone (20_memory.md R52). -/
theorem DecMove.others {s t : State} (h : DecMove s t) :
    t.enc = s.enc ∧ t.caps = s.caps ∧ t.epoch = s.epoch ∧ t.program = s.program ∧ t.schedule = s.schedule ∧
      t.reads = s.reads ∧ t.names = s.names ∧ t.checks = s.checks := by
  cases h <;> exact ⟨rfl, rfl, rfl, rfl, rfl, rfl, rfl, rfl⟩

/-- DEC's move on the engine's own state. -/
def decStep (s : State) : Host.Outcome State Fault Refusal :=
  match fetchDec s with
  | .instr i t => exec i t
  | .ended o => o

/-- A LIT is one Append. -/
theorem execLit_eq_many (v : Byte) (s : State) :
    exec (.lit v) s = (decAppendMany v s.dec.job.i 1 s).andThen fun t => .next (decAdvance 1 t) := by
  simp only [exec, execLit, decAppendMany]
  cases decAppend v s.dec.job.i s <;> rfl

/-- What DEC's fetch of a unit finds, from any state: a LIT; an ESC, of which all three bytes lie below `L`; or an index
at or above the capacity. -/
theorem fetchUnitBytes_ends (s : State) :
    (∃ v bs rest, fetchUnitBytes s = some bs ∧ decodeUnit bs = .ok (.lit v, rest)) ∨
    (∃ v k bs rest, fetchUnitBytes s = some bs ∧ decodeUnit bs = .ok (.esc v k, rest) ∧
      s.dec.job.i.toNat + 2 < s.dec.job.len.toNat) ∨
    (fetchUnitBytes s = none ∧ (s.cap .decSrc ≤ s.dec.job.i.toNat ∨ s.cap .decSrc < s.dec.job.len.toNat)) := by
  by_cases h0 : s.dec.job.i.toNat < s.cap .decSrc
  · by_cases h2 : s.dec.job.i.toNat + 2 < s.dec.job.len.toNat
    · by_cases h3 : s.dec.job.len.toNat ≤ s.cap .decSrc
      · obtain ⟨bs, rest, hf, hd⟩ := fetchUnitBytes_decodes (by omega) h3
        split at hd
        · exact .inr (.inl ⟨_, _, _, _, hf, hd, h2⟩)
        · exact .inl ⟨_, _, _, hf, hd⟩
      · by_cases h1 : s.dec.job.i.toNat + 1 < s.cap .decSrc
        · by_cases he : s.byteAt .decSrc (s.dec.job.i.toNat + 1) = s.byteAt .decSrc s.dec.job.i.toNat
          · by_cases h4 : s.dec.job.i.toNat + 2 < s.cap .decSrc
            · exact .inr (.inl ⟨s.byteAt .decSrc s.dec.job.i.toNat, s.byteAt .decSrc (s.dec.job.i.toNat + 2), _, [],
                by simp only [fetchUnitBytes, State.memRead, h0, h2, h1, he, h4, if_true]; rfl,
                by simp [decodeUnit], h2⟩)
            · exact .inr (.inr ⟨by simp only [fetchUnitBytes, State.memRead, h0, h2, h1, he, h4, if_true, if_false],
                .inr (by omega)⟩)
          · exact .inl ⟨s.byteAt .decSrc s.dec.job.i.toNat, _, _,
              by simp only [fetchUnitBytes, State.memRead, h0, h2, h1, he, if_true, if_false]; rfl, rfl⟩
        · exact .inr (.inr ⟨by simp only [fetchUnitBytes, State.memRead, h0, h2, h1, if_true, if_false],
            .inr (by omega)⟩)
    · exact .inl ⟨s.byteAt .decSrc s.dec.job.i.toNat, _, _,
        by simp only [fetchUnitBytes, State.memRead, h0, h2, if_true, if_false]; rfl, rfl⟩
  · exact .inr (.inr ⟨by simp only [fetchUnitBytes, State.memRead, h0, if_false], .inl (by omega)⟩)

/-- The header's four MemReads give four bytes, or one of them is at or above the capacity. -/
theorem State.memReadAll_four_ends (s : State) (b : Buffer) :
    (∃ b0 b1 b2 b3, s.memReadAll b 0 4 = some [b0, b1, b2, b3]) ∨ (s.memReadAll b 0 4 = none ∧ s.cap b < 4) := by
  by_cases h : 4 ≤ s.cap b
  · exact .inl ⟨_, _, _, _, State.memReadAll_four h⟩
  · refine .inr ⟨?_, by omega⟩
    have h3 : ¬ 3 < s.cap b := by omega
    simp [State.memReadAll, State.memRead, h3]

/-- DEC's move makes one of its moves, or meets a fault of the model: reading SRC beyond its capacity, or a DST smaller
than `original_length` after the header accepted it. -/
theorem decStep_cases (s : State) :
    (∃ t, decStep s = .next t ∧ DecMove s t) ∨
    (∃ f, decStep s = .fault f ∧
      ((s.dec.phase = .header ∧ s.cap .decSrc < 4) ∨
       (s.dec.phase = .body ∧ (s.cap .decSrc ≤ s.dec.job.i.toNat ∨ s.cap .decSrc < s.dec.job.len.toNat ∨
         s.cap .decDst < s.dec.job.orig.toNat)))) := by
  have units : ∀ (c : Byte) (count size : Nat), s.dec.phase = .body →
      (size = 1 ∧ count = 1 ∨ size = 3 ∧ count < 256 ∧ s.dec.job.i.toNat + 2 < s.dec.job.len.toNat) →
      (∃ t, ((decAppendMany c s.dec.job.i count s).andThen fun t => .next (decAdvance size t)) = .next t ∧ DecMove s t) ∨
      (∃ f, ((decAppendMany c s.dec.job.i count s).andThen fun t => .next (decAdvance size t)) = .fault f ∧
        s.cap .decDst < s.dec.job.orig.toNat) := by
    intro c count size hp hs
    rcases decAppendMany_ends c s.dec.job.i count s with ⟨h, hg⟩ | ⟨k, hk, h, hg, hl⟩ | ⟨k, h, hl⟩
    · exact .inl ⟨_, by rw [h]; rfl, .unit c count size hp hs hg⟩
    · exact .inl ⟨_, by rw [h]; rfl, .overflow c k hp (by omega) hg hl⟩
    · exact .inr ⟨_, by rw [h]; rfl, hl⟩
  cases hp : s.dec.phase with
  | idle => exact .inl ⟨s, by simp [decStep, fetchDec, hp], .idle hp⟩
  | header =>
    rcases State.memReadAll_four_ends s .decSrc with ⟨b0, b1, b2, b3, h⟩ | ⟨h, hc⟩
    · left
      refine ⟨_, by simp only [decStep, fetchDec, hp, h, fetchStream, decodeStream, decodeHeader]; exact execHdr_cases _ s, ?_⟩
      split
      · exact .header _ hp ‹_›
      · exact .headerFault _ hp (by omega)
    · exact .inr ⟨_, by simp only [decStep, fetchDec, hp, h, fetchStream]; rfl, .inl ⟨rfl, hc⟩⟩
  | body =>
    rcases fetchUnitBytes_ends s with ⟨v, bs, rest, h, hd⟩ | ⟨v, k, bs, rest, h, hd, hi⟩ | ⟨h, hc⟩
    · have he : decStep s = exec (.lit v) s := by simp only [decStep, fetchDec, hp, h, fetchStream, decodeStream, hd]
      rw [he, execLit_eq_many]
      rcases units v 1 1 hp (.inl ⟨rfl, rfl⟩) with h | ⟨f, h, hl⟩
      · exact .inl h
      · exact .inr ⟨f, h, .inr ⟨rfl, .inr (.inr hl)⟩⟩
    · have he : decStep s = exec (.esc v k) s := by simp only [decStep, fetchDec, hp, h, fetchStream, decodeStream, hd]
      rw [he]
      rcases units v k.toNat 3 hp (.inr ⟨rfl, k.isLt, hi⟩) with h | ⟨f, h, hl⟩
      · exact .inl h
      · exact .inr ⟨f, h, .inr ⟨rfl, .inr (.inr hl)⟩⟩
    · refine .inr ⟨_, by simp only [decStep, fetchDec, hp, h, fetchStream]; rfl, .inr ⟨rfl, ?_⟩⟩
      rcases hc with hc | hc
      · exact .inl hc
      · exact .inr (.inl hc)
  | check =>
    left
    by_cases h : s.dec.job.w.toNat = s.dec.job.orig.toNat
    · exact ⟨_, by simp only [decStep, fetchDec, hp, decCheck, h, ne_eq, not_true_eq_false, if_false], .complete hp h⟩
    · exact ⟨_, by simp only [decStep, fetchDec, hp, decCheck, h, ne_eq, not_false_eq_true, if_true], .underfill hp h⟩

end Sys2Proof.Machine
end

