-- ==== Sys2Proof/Laws/Independence.lean ====
section
/-! SUPPORT. An engine's move does not look at the other engine or at the host: replacing those before the move or after
it gives the same state (spec/10_state.md R13; spec/20_memory.md R52). -/

namespace Sys2Proof.Machine

/-- An outcome with its next state changed. -/
def mapNext (f : State → State) (o : Host.Outcome State Fault Refusal) : Host.Outcome State Fault Refusal :=
  match o with
  | .next t => .next (f t)
  | .fault x => .fault x
  | .refused r => .refused r

/-- A part of an engine step with its state changed. -/
def mapProgress (f : State → State) (p : Progress) : Progress :=
  match p with
  | .go t => .go (f t)
  | .halt t => .halt (f t)
  | .stuck x => .stuck x

theorem andThen_mapProgress {f : State → State} {k k' : State → Host.Outcome State Fault Refusal} (p : Progress)
    (h : ∀ t, k' (f t) = mapNext f (k t)) : (mapProgress f p).andThen k' = mapNext f (p.andThen k) := by
  cases p <;> simp [mapProgress, Progress.andThen, mapNext, h]

/-- Everything that is not ENC's and not the instance's, replaced. -/
def besideEnc (d : Dec) (p : List HostLine) (c : List Agent) (r : List ReadValue) (ns : Names) (ks : List Bool) (s : State) : State :=
  { s with dec := d, program := p, schedule := c, reads := r, names := ns, checks := ks }

/-- Everything that is not DEC's and not the instance's, replaced. -/
def besideDec (e : Enc) (p : List HostLine) (c : List Agent) (r : List ReadValue) (ns : Names) (ks : List Bool) (s : State) : State :=
  { s with enc := e, program := p, schedule := c, reads := r, names := ns, checks := ks }

theorem encFlush_besideEnc (d : Dec) (p : List HostLine) (c : List Agent) (r : List ReadValue) (ns : Names) (ks : List Bool) (ch : Byte) (len : Nat)
    (pos : Word64) (s : State) :
    encFlush ch len pos (besideEnc d p c r ns ks s) = mapProgress (besideEnc d p c r ns ks) (encFlush ch len pos s) := by
  have hc : (besideEnc d p c r ns ks s).cap .encDst = s.cap .encDst := rfl
  have hj : (besideEnc d p c r ns ks s).enc.job = s.enc.job := rfl
  match len with
  | 0 => rfl
  | len + 1 =>
    simp only [encFlush, encEmit_cases, hc, hj]
    split <;> rfl

/-- ENC's step and a change of everything beside ENC commute. -/
theorem encStep_besideEnc (d : Dec) (p : List HostLine) (c : List Agent) (r : List ReadValue) (ns : Names) (ks : List Bool) (s : State) :
    encStep (besideEnc d p c r ns ks s) = mapNext (besideEnc d p c r ns ks) (encStep s) := by
  have he : (besideEnc d p c r ns ks s).enc = s.enc := rfl
  cases hp : s.enc.phase with
  | idle => simp only [encStep, he, hp, mapNext]
  | header =>
    have hc : (besideEnc d p c r ns ks s).cap .encDst = s.cap .encDst := rfl
    simp only [encStep, he, hp, encHeader_cases, mapNext, hc]
    split <;> rfl
  | scan =>
    have hr : (besideEnc d p c r ns ks s).memRead .encSrc s.enc.job.i.toNat = s.memRead .encSrc s.enc.job.i.toNat := rfl
    simp only [encStep, he, hp, encScan, hr]
    split
    · rfl
    · split
      · rfl
      · split
        · rw [encFlush_besideEnc]; exact andThen_mapProgress _ fun _ => rfl
        · split
          · rw [encFlush_besideEnc]; exact andThen_mapProgress _ fun _ => rfl
          · rfl
  | tail =>
    simp only [encStep, he, hp, encTail]
    split
    · rfl
    · rw [encFlush_besideEnc]; exact andThen_mapProgress _ fun _ => rfl

theorem decAppend_besideDec (e : Enc) (p : List HostLine) (c : List Agent) (r : List ReadValue) (ns : Names) (ks : List Bool) (ch : Byte)
    (pos : Word64) (s : State) :
    decAppend ch pos (besideDec e p c r ns ks s) = mapProgress (besideDec e p c r ns ks) (decAppend ch pos s) := by
  have hd : (besideDec e p c r ns ks s).dec = s.dec := rfl
  have hc : (besideDec e p c r ns ks s).cap .decDst = s.cap .decDst := rfl
  by_cases h : s.dec.job.orig.toNat ≤ s.dec.job.w.toNat
  · simp only [decAppend, hd, h, if_true]; rfl
  · by_cases hw : s.dec.job.w.toNat < s.cap .decDst
    · simp only [decAppend, hd, hc, h, hw, State.memWrite, if_true, if_false]; rfl
    · simp only [decAppend, hd, hc, h, hw, State.memWrite, if_false]; rfl

theorem decAppendMany_besideDec (e : Enc) (p : List HostLine) (c : List Agent) (r : List ReadValue) (ns : Names) (ks : List Bool) (ch : Byte)
    (pos : Word64) (count : Nat) (s : State) :
    decAppendMany ch pos count (besideDec e p c r ns ks s) = mapProgress (besideDec e p c r ns ks) (decAppendMany ch pos count s) := by
  induction count generalizing s with
  | zero => rfl
  | succ count ih =>
    rw [decAppendMany, decAppend_besideDec, decAppendMany]
    cases decAppend ch pos s <;> simp [mapProgress, ih]

/-- DEC's move and a change of everything beside DEC commute. -/
theorem decStep_besideDec (e : Enc) (p : List HostLine) (c : List Agent) (r : List ReadValue) (ns : Names) (ks : List Bool) (s : State) :
    decStep (besideDec e p c r ns ks s) = mapNext (besideDec e p c r ns ks) (decStep s) := by
  have hd : (besideDec e p c r ns ks s).dec = s.dec := rfl
  cases hp : s.dec.phase with
  | idle => simp only [decStep, fetchDec, hd, hp, mapNext]
  | header =>
    have hr : State.memReadAll (besideDec e p c r ns ks s) .decSrc 0 4 = s.memReadAll .decSrc 0 4 := rfl
    have hc : (besideDec e p c r ns ks s).cap .decDst = s.cap .decDst := rfl
    simp only [decStep, fetchDec, hd, hp, hr]
    rcases State.memReadAll_four_ends s .decSrc with ⟨b0, b1, b2, b3, h⟩ | ⟨h, _⟩
    · simp only [h, fetchStream, decodeStream, decodeHeader, execHdr_cases, mapNext, hc]
      split <;> rfl
    · simp only [h, fetchStream, mapNext]
  | body =>
    have hr : fetchUnitBytes (besideDec e p c r ns ks s) = fetchUnitBytes s := rfl
    simp only [decStep, fetchDec, hd, hp, hr]
    rcases fetchUnitBytes_ends s with ⟨v, bs, rest, h, hu⟩ | ⟨v, k, bs, rest, h, hu, _⟩ | ⟨h, _⟩
    · simp only [h, fetchStream, decodeStream, hu, execLit_eq_many, hd, decAppendMany_besideDec]
      exact andThen_mapProgress _ fun _ => rfl
    · simp only [h, fetchStream, decodeStream, hu, exec, execEsc, hd, decAppendMany_besideDec]
      exact andThen_mapProgress _ fun _ => rfl
    · simp only [h, fetchStream, mapNext]
  | check =>
    simp only [decStep, fetchDec, hd, hp, decCheck]
    split <;> rfl

end Sys2Proof.Machine
end

