-- ==== Sys2Proof/Laws/Moves.lean ====
section
/-! SUPPORT. Everything one step of the machine can do, said once: a host operation, a move of an engine, a reset, or
nothing, each from a state with the same block. -/

namespace Sys2Proof.Machine

/-! ### START -/

/-- The state in which START has latched the length, cleared the status and set ENC's working registers
(40_control.md R71; 41_encoder.md R79). -/
def encLatched (s : State) : State :=
  { s with enc := { s.enc with
      regs := s.enc.regs.clearForStart,
      job := { n := s.enc.regs.srcLen, i := 0#64, runStart := 0#64, runChar := 0#8, outPos := 0#64 } } }

/-- The state in which START has latched the length and cleared DEC's status and working registers
(40_control.md R71; 42_decoder.md R97). -/
def decLatched (s : State) : State :=
  { s with dec := { s.dec with
      regs := s.dec.regs.clearForStart,
      job := { len := s.dec.regs.srcLen, i := 0#64, w := 0#64, orig := 0#32 } } }

/-- What a START of ENC can do (40_control.md R71; 41_encoder.md R80). -/
inductive EncStarted (s : State) : State → Prop where
  | ignored : s.enc.phase ≠ .idle → EncStarted s s
  | tooLarge : s.enc.phase = .idle → 2 ^ 32 ≤ s.enc.regs.srcLen.toNat →
      EncStarted s ((encLatched s).raiseFault .enc .inputTooLarge .none 0#64)
  | beyond : s.enc.phase = .idle → s.enc.regs.srcLen.toNat < 2 ^ 32 → s.cap .encSrc < s.enc.regs.srcLen.toNat →
      EncStarted s ((encLatched s).raiseFault .enc .bufferBounds .none 0#64)
  | begun : s.enc.phase = .idle → s.enc.regs.srcLen.toNat < 2 ^ 32 → s.enc.regs.srcLen.toNat ≤ s.cap .encSrc →
      EncStarted s { encLatched s with enc := { (encLatched s).enc with phase := .header } }

theorem startEnc_cases (s : State) : EncStarted s (startEnc s) := by
  by_cases hb : s.enc.phase = .idle
  · have he : startEnc s = encStartChecks (encLatched s) := by
      simp [startEnc, State.busy, hb, EncPhase.busy, encStart, encLatched, State.updRegs, Regs.clearForStart,
        Regs.clearStatus]
    have hn : (encLatched s).enc.job.n = s.enc.regs.srcLen := rfl
    have hc : (encLatched s).cap .encSrc = s.cap .encSrc := rfl
    rw [he, encStartChecks, hn, hc]
    split
    · exact .tooLarge hb ‹_›
    · split
      · exact .beyond hb (by omega) ‹_›
      · exact .begun hb (by omega) (by omega)
  · have he : startEnc s = s := by
      rw [startEnc, if_pos]
      revert hb
      simp only [State.busy]
      cases s.enc.phase <;> simp [EncPhase.busy]
    rw [he]
    exact .ignored hb

/-- What a START of DEC can do (40_control.md R71; 42_decoder.md R98). -/
inductive DecStarted (s : State) : State → Prop where
  | ignored : s.dec.phase ≠ .idle → DecStarted s s
  | beyond : s.dec.phase = .idle → s.cap .decSrc < s.dec.regs.srcLen.toNat →
      DecStarted s ((decLatched s).raiseFault .dec .bufferBounds .none 0#64)
  | short : s.dec.phase = .idle → s.dec.regs.srcLen.toNat ≤ s.cap .decSrc → s.dec.regs.srcLen.toNat < 4 →
      DecStarted s ((decLatched s).raiseFault .dec .malformedEncoding .shortHeader 0#64)
  | begun : s.dec.phase = .idle → s.dec.regs.srcLen.toNat ≤ s.cap .decSrc → 4 ≤ s.dec.regs.srcLen.toNat →
      DecStarted s { decLatched s with dec := { (decLatched s).dec with phase := .header } }

theorem startDec_cases (s : State) : DecStarted s (startDec s) := by
  by_cases hb : s.dec.phase = .idle
  · have he : startDec s = decStartChecks (decLatched s) := by
      simp [startDec, State.busy, hb, DecPhase.busy, decStart, decLatched, State.updRegs, Regs.clearForStart,
        Regs.clearStatus]
    have hn : (decLatched s).dec.job.len = s.dec.regs.srcLen := rfl
    have hc : (decLatched s).cap .decSrc = s.cap .decSrc := rfl
    rw [he, decStartChecks, hn, hc]
    split
    · exact .beyond hb ‹_›
    · split
      · exact .short hb (by omega) ‹_›
      · exact .begun hb (by omega) (by omega)
  · have he : startDec s = s := by
      rw [startDec, if_pos]
      revert hb
      simp only [State.busy]
      cases s.dec.phase <;> simp [DecPhase.busy]
    rw [he]
    exact .ignored hb

/-! ### The host -/

/-- Everything a host operation that answers a next state can do. -/
inductive HostMove (s : State) : Instr → State → Prop where
  | read (e : Engine) (r : Reg) : HostMove s (.rd32 e r) (s.giveHost (.word (s.readReg e r)))
  | readByte (b : Buffer) (idx : Word64) : idx.toNat < s.cap b →
      HostMove s (.rdb b idx) (s.giveHost (.byte (s.byteAt b idx.toNat)))
  | startEnc (data : Word) (t : State) : EncStarted s t → HostMove s (.encStart data) t
  | startDec (data : Word) (t : State) : DecStarted s t → HostMove s (.decStart data) t
  | clearEnc (data : Word) : s.busy .enc = false → HostMove s (.encClr data) (s.updRegs .enc Regs.clearStatus)
  | clearDec (data : Word) : s.busy .dec = false → HostMove s (.decClr data) (s.updRegs .dec Regs.clearStatus)
  | irqEn (e : Engine) (data : Word) : HostMove s (.irqEnWr e data) (s.writeIrqEn e data)
  | srcLen (e : Engine) (h : Half) (data : Word) : HostMove s (.srcLenWr e h data) (s.writeSrcLen e h data)
  | writeByte (b : Buffer) (idx : Word64) (data : Byte) : s.busy b.engine = false → idx.toNat < s.cap b →
      HostMove s (.wrb b idx data) (s.setByte b idx.toNat data)
  | nothing (i : Instr) : HostMove s i s

/-- A host operation leaves an engine's working registers, or is a START, which sets its counters to 0. -/
theorem HostMove.jobs {s t : State} {i : Instr} (h : HostMove s i t) :
    (t.enc.job = s.enc.job ∨ (t.enc.job.i = 0#64 ∧ t.enc.job.runStart = 0#64 ∧ t.enc.job.outPos = 0#64)) ∧
    (t.dec.job = s.dec.job ∨ (t.dec.job.i = 0#64 ∧ t.dec.job.w = 0#64)) := by
  cases h with
  | startEnc data t h => cases h <;> simp [encLatched, State.raiseFault]
  | startDec data t h => cases h <;> simp [decLatched, State.raiseFault]
  | _ => simp [State.writeIrqEn, State.writeSrcLen]

/-- A host operation makes one of its moves, or is refused; it never meets a fault of the model. -/
theorem exec_host_cases {i : Instr} (hi : hostOperation i = true) (s : State) :
    (∃ t, exec i s = .next t ∧ HostMove s i t) ∨ (∃ r, exec i s = .refused r) := by
  cases i with
  | hdr n => cases hi
  | lit v => cases hi
  | esc v k => cases hi
  | wr32 e r data => cases hi
  | rd32 e r => exact .inl ⟨_, rfl, .read e r⟩
  | encStart data => exact .inl ⟨_, rfl, .startEnc data _ (startEnc_cases s)⟩
  | decStart data => exact .inl ⟨_, rfl, .startDec data _ (startDec_cases s)⟩
  | encClr data =>
    left
    by_cases hb : s.busy .enc = true
    · exact ⟨s, by simp [exec, execEncClr, State.acknowledge, hb], .nothing _⟩
    · exact ⟨_, by simp [exec, execEncClr, State.acknowledge, hb], .clearEnc data (by simpa using hb)⟩
  | decClr data =>
    left
    by_cases hb : s.busy .dec = true
    · exact ⟨s, by simp [exec, execDecClr, State.acknowledge, hb], .nothing _⟩
    · exact ⟨_, by simp [exec, execDecClr, State.acknowledge, hb], .clearDec data (by simpa using hb)⟩
  | encNop data => exact .inl ⟨_, rfl, .nothing _⟩
  | decNop data => exact .inl ⟨_, rfl, .nothing _⟩
  | irqEnWr e data => exact .inl ⟨_, rfl, .irqEn e data⟩
  | srcLenWr e h data => exact .inl ⟨_, rfl, .srcLen e h data⟩
  | roWr e r data => exact .inl ⟨_, rfl, .nothing _⟩
  | rdb b idx =>
    by_cases h : idx.toNat < s.cap b
    · exact .inl ⟨_, by simp only [exec, execRdb, State.memRead_of_lt h], .readByte b idx h⟩
    · exact .inr ⟨_, by simp only [exec, execRdb, State.memRead, h, if_false]; rfl⟩
  | wrb b idx data =>
    by_cases hb : s.busy b.engine = true
    · exact .inr ⟨_, by simp only [exec, execWrb, hb, if_true]; rfl⟩
    · by_cases h : idx.toNat < s.cap b
      · exact .inl ⟨_, by simp [exec, execWrb, hb, State.memWrite, h],
          .writeByte b idx data (by simpa using hb) h⟩
      · exact .inr ⟨_, by simp [exec, execWrb, hb, State.memWrite, h]; rfl⟩

/-! ### The machine -/

/-- Everything a step can do. A fault is only met by an engine, from a state in which a working register has left its
buffer. -/
theorem step_cases (s : State) :
    ∃ u, SameBlock s u ∧ u.reads = s.reads ∧
      (step s = .next u ∨
       step s = .next u.applyReset ∨
       (∃ r, step s = .refused r) ∨
       (∃ i t, fetch s = .instr i u ∧ hostOperation i = true ∧ step s = .next t ∧ HostMove u i t) ∨
       (step s = encStep u) ∨
       (step s = decStep u)) := by
  obtain ⟨u, hu, hr, h | h | ⟨r, h⟩ | ⟨i, hi, h⟩ | h | h⟩ := fetch_cases s
  · exact ⟨u, hu, hr, .inl (by rw [step, h])⟩
  · exact ⟨u, hu, hr, .inr (.inl (by rw [step, h]))⟩
  · exact ⟨u, hu, hr, .inr (.inr (.inl ⟨_, by rw [step, h]⟩))⟩
  · rcases exec_host_cases hi u with ⟨t, ht, hm⟩ | ⟨r, ht⟩
    · exact ⟨u, hu, hr, .inr (.inr (.inr (.inl ⟨i, t, h, hi, by rw [step, h]; exact ht, hm⟩)))⟩
    · exact ⟨u, hu, hr, .inr (.inr (.inl ⟨r, by rw [step, h]; exact ht⟩))⟩
  · exact ⟨u, hu, hr, .inr (.inr (.inr (.inr (.inl (by rw [step, h])))))⟩
  · exact ⟨u, hu, hr, .inr (.inr (.inr (.inr (.inr (by rw [step, h]; rfl)))))⟩

/-- The same for a step that answers a next state. -/
theorem step_next {s t : State} (h : step s = .next t) :
    ∃ u, SameBlock s u ∧ u.reads = s.reads ∧
      (t = u ∨ t = u.applyReset ∨ (∃ i, fetch s = .instr i u ∧ hostOperation i = true ∧ HostMove u i t) ∨
       EncMove u t ∨ DecMove u t) := by
  obtain ⟨u, hu, hr, h' | h' | ⟨r, h'⟩ | ⟨i, t', hf, hi, h', hm⟩ | h' | h'⟩ := step_cases s
  · rw [h] at h'; cases h'; exact ⟨_, hu, hr, .inl rfl⟩
  · rw [h] at h'; cases h'; exact ⟨u, hu, hr, .inr (.inl rfl)⟩
  · rw [h] at h'; cases h'
  · rw [h] at h'; cases h'; exact ⟨u, hu, hr, .inr (.inr (.inl ⟨i, hf, hi, hm⟩))⟩
  · refine ⟨u, hu, hr, .inr (.inr (.inr (.inl ?_)))⟩
    rw [h] at h'
    rcases encStep_cases u with ⟨t', e, hm⟩ | ⟨e, _⟩ | ⟨e, _⟩ <;> rw [e] at h' <;> cases h'
    exact hm
  · refine ⟨u, hu, hr, .inr (.inr (.inr (.inr ?_)))⟩
    rw [h] at h'
    rcases decStep_cases u with ⟨t', e, hm⟩ | ⟨f, e, _⟩ <;> rw [e] at h' <;> cases h'
    exact hm

end Sys2Proof.Machine
end

