-- ==== Sys2Proof/Laws/Names.lean ====
section
/-! SUPPORT. The names of the host's program: what binding one changes, and which step binds one, each said once. -/

namespace Sys2Proof.Machine

@[simp] theorem Names.get_set_self (ns : Names) (x : Name) (v : ReadValue) : (Names.set ns x v).get x = some v := by
  induction ns with
  | nil => simp [Names.set, Names.get]
  | cons p rest ih =>
    obtain ⟨y, u⟩ := p
    simp only [Names.set]
    split
    · simp [Names.get]
    · split
      · simp [Names.get]
      · simp [Names.get, *]

theorem Names.get_set_ne (ns : Names) (x y : Name) (v : ReadValue) (h : y ≠ x) :
    (Names.set ns x v).get y = ns.get y := by
  induction ns with
  | nil => simp [Names.set, Names.get, h]
  | cons p rest ih =>
    obtain ⟨z, u⟩ := p
    simp only [Names.set]
    split
    · simp [Names.get, h]
    · split
      · subst x; simp [Names.get, h]
      · simp [Names.get, ih]

theorem Names.mem_set (ns : Names) (x : Name) (v : ReadValue) (p : Name × ReadValue) (h : p ∈ Names.set ns x v) :
    p = (x, v) ∨ p ∈ ns := by
  induction ns with
  | nil => simpa [Names.set] using h
  | cons q rest ih =>
    obtain ⟨z, u⟩ := q
    simp only [Names.set] at h
    split at h
    · simpa using h
    · split at h <;> rcases List.mem_cons.1 h with h | h
      · exact .inl h
      · exact .inr (List.mem_cons_of_mem _ h)
      · exact .inr (h ▸ List.mem_cons_self)
      · exact (ih h).imp id (List.mem_cons_of_mem _)

/-- Binding a name keeps the canonical form. -/
theorem Names.set_wf (ns : Names) (x : Name) (v : ReadValue) (h : ns.wf) : (Names.set ns x v).wf := by
  induction ns with
  | nil => simp [Names.set, Names.wf]
  | cons q rest ih =>
    obtain ⟨z, u⟩ := q
    have hrest := (List.pairwise_cons.1 h).2
    have hall := (List.pairwise_cons.1 h).1
    simp only [Names.set]
    split
    · rename_i hx
      refine List.pairwise_cons.2 ⟨fun p hp => ?_, h⟩
      rcases List.mem_cons.1 hp with rfl | hp
      · exact hx
      · exact Nat.lt_trans hx (hall p hp)
    · split
      · rename_i hx
        subst hx
        exact List.pairwise_cons.2 ⟨hall, hrest⟩
      · refine List.pairwise_cons.2 ⟨fun p hp => ?_, ih hrest⟩
        rcases Names.mem_set _ _ _ _ hp with rfl | hp
        · exact Nat.lt_of_le_of_ne (Nat.le_of_not_lt ‹_›) (Ne.symm ‹_›)
        · exact hall p hp

/-- An operand is about the names alone. -/
theorem State.operand_congr {s t : State} (h : t.names = s.names) (o : Operand) : t.operand o = s.operand o := by
  induction o with
  | imm n => rfl
  | name x => simp [State.operand, h]
  | high o ih => simp [State.operand, ih]

theorem State.accessOf_congr {s t : State} (h : t.names = s.names) (op : NamedOp) : t.accessOf op = s.accessOf op := by
  cases op <;> simp [State.accessOf, State.operand_congr h]

theorem State.expectHolds_congr {s t : State} (h : t.names = s.names) (equations : List (Operand × Operand)) :
    t.expectHolds equations = s.expectHolds equations := by
  induction equations with
  | nil => rfl
  | cons q rest ih => obtain ⟨a, b⟩ := q; simp [State.expectHolds, State.operand_congr h, ih]

/-- The names a read binds: the one it names, to a value it reads; no other operation binds any. -/
theorem State.bindRead_names (s : State) (op : NamedOp) :
    (s.bindRead op).names = s.names ∨
    (∃ e r x, op = .rd32 e r x ∧ (s.bindRead op).names = s.names.set x (.word (s.readReg e r))) ∨
    (∃ b k n x, op = .rdb b k x ∧ s.operand k = some n ∧
      (s.bindRead op).names = s.names.set x (.byte (s.byteAt b (BitVec.ofNat 64 n).toNat))) := by
  cases op with
  | rd32 e r x => exact .inr (.inl ⟨e, r, x, rfl, rfl⟩)
  | wr32 e r imm => exact .inl rfl
  | wrb b k imm => exact .inl rfl
  | rdb b k x =>
    cases hk : s.operand k with
    | none => exact .inl (by simp [State.bindRead, hk])
    | some n => exact .inr (.inr ⟨b, k, n, x, rfl, hk, by simp [State.bindRead, hk]⟩)

/-- A listed move of the host is its next line. -/
theorem step_host {s : State} {rest : List Agent} (h : s.schedule = .host :: rest) :
    step s = match fetchHost { s with schedule := rest } with
      | .instr i t => exec i t
      | .ended o => o := by
  have e : fetch s = fetchHost { s with schedule := rest } := by simp only [fetch, chooseAgent, h]
  exact congrArg (fun f => match f with
    | .instr i t => exec i t
    | .ended o => o) e

/-- A line with an operation: its operands are read, its name is bound, and its access is made. -/
theorem fetchHost_named {s : State} {op : NamedOp} {p : List HostLine} (h : s.program = .named op :: p) :
    fetchHost s = match s.accessOf op with
      | some a => fetchAccess a { s.bindRead op with program := p }
      | none => .ended (.refused .unboundName) := by
  cases s
  cases h
  rfl

theorem fetchHost_poll {s : State} {e : Engine} {r : Reg} {mask value : Operand} {p : List HostLine}
    (h : s.program = .poll e r mask value :: p) : fetchHost s = fetchPoll e r mask value p s := by
  unfold fetchHost; rw [h]

/-- The access of an RD32 line is that read, and the access of a WR32 line is the most specific row that covers it. -/
theorem decodeBus_regRead (e : Engine) (r : Reg) : decodeBus (.regRead 32 (Reg.offset e r)) = .ok (.rd32 e r) := by
  cases e <;> cases r <;> rfl

theorem decodeBus_regWrite (e : Engine) (r : Reg) (data : Word) :
    decodeBus (.regWrite 32 (Reg.offset e r) data) = .ok (decodeWrite e r data) := by
  cases e <;> cases r <;> rfl

/-- No host operation binds a name: its line does. -/
theorem HostMove.names {s t : State} {i : Instr} (h : HostMove s i t) : t.names = s.names := by
  cases h with
  | startEnc data t h => cases h <;> rfl
  | startDec data t h => cases h <;> rfl
  | writeByte b idx data => cases b <;> rfl
  | irqEn e data => cases e <;> rfl
  | srcLen e h data => cases e <;> rfl
  | _ => rfl

/-- What the host's next line makes of the names: nothing, or it is a read, which runs next, and binds the name it
gives. -/
theorem fetchHost_names (s : State) :
    (∃ u, u.names = s.names ∧ (fetchHost s = .ended (.next u) ∨ ∃ i, fetchHost s = .instr i u)) ∨
    (∃ r, fetchHost s = .ended (.refused r)) ∨
    (∃ i u x v, fetchHost s = .instr i u ∧ u.names = s.names.set x v ∧ ReadBinds s i x) := by
  unfold fetchHost
  split
  · exact .inl ⟨s, rfl, .inl rfl⟩
  · rename_i a rest _
    rcases fetchAccess_cases a { s with program := rest } with ⟨i, _, _, h⟩ | ⟨err, _, h⟩
    · exact .inl ⟨{ s with program := rest }, rfl, .inr ⟨i, h⟩⟩
    · exact .inr (.inl ⟨_, h⟩)
  · rename_i op rest hp
    split
    · rename_i a ha
      rcases fetchAccess_cases a { s.bindRead op with program := rest } with ⟨i, hd, _, h⟩ | ⟨err, _, h⟩
      · rcases State.bindRead_names s op with hn | ⟨e, r, x, rfl, hn⟩ | ⟨b, k, n, x, rfl, hk, hn⟩
        · exact .inl ⟨{ s.bindRead op with program := rest }, hn, .inr ⟨i, h⟩⟩
        · refine .inr (.inr ⟨i, _, x, _, h, hn, _, rest, hp, .inl ⟨e, r, rfl, ?_⟩⟩)
          cases ha
          rw [decodeBus_regRead] at hd
          exact (Except.ok.inj hd).symm
        · refine .inr (.inr ⟨i, _, x, _, h, hn, _, rest, hp, .inr (.inl ⟨b, k, n, rfl, hk, ?_⟩)⟩)
          simp only [State.accessOf, hk, Option.map_some, Option.some.injEq] at ha
          subst ha
          exact (Except.ok.inj hd).symm
      · exact .inr (.inl ⟨_, h⟩)
    · exact .inr (.inl ⟨_, rfl⟩)
  · rename_i e r mask value rest hp
    simp only [fetchPoll]
    split
    · right; right
      split
      · exact ⟨_, { s.bindName pollName (.word (s.readReg e r)) with program := rest }, pollName, _, rfl, rfl,
          _, rest, hp, .inr (.inr ⟨rfl, e, r, mask, value, rfl, rfl⟩)⟩
      · exact ⟨_, s.bindName pollName (.word (s.readReg e r)), pollName, _, rfl, rfl,
          _, rest, hp, .inr (.inr ⟨rfl, e, r, mask, value, rfl, rfl⟩)⟩
    · exact .inr (.inl ⟨_, rfl⟩)
  · rename_i equations rest _
    split
    · rename_i ok _
      exact .inl ⟨{ s with program := rest, checks := ok :: s.checks }, rfl, .inl rfl⟩
    · exact .inr (.inl ⟨_, rfl⟩)
  · rename_i rest _
    exact .inl ⟨({ s with program := rest } : State).applyReset, rfl, .inl rfl⟩

/-- What binds a name is about the host's lines and the names alone. -/
theorem ReadBinds.congr {s t : State} {i : Instr} {x : Name} (hp : t.program = s.program) (hn : t.names = s.names)
    (h : ReadBinds t i x) : ReadBinds s i x := by
  simpa only [ReadBinds, hp, State.operand_congr hn] using h

/-- What a step makes of the names: nothing, or it is the host's move on a read and binds the name its line gives. -/
theorem step_names {s t : State} (h : step s = .next t) :
    t.names = s.names ∨
    ∃ i u x v, (chooseAgent s).1 = some .host ∧ fetch s = .instr i u ∧ t.names = s.names.set x v ∧ ReadBinds s i x := by
  have hc : (chooseAgent s).2.names = s.names ∧ (chooseAgent s).2.program = s.program := by
    unfold chooseAgent; split <;> exact ⟨rfl, rfl⟩
  have he : step s = match fetch s with
    | .instr i u => exec i u
    | .ended o => o := rfl
  rw [he] at h
  unfold fetch at h ⊢
  generalize chooseAgent s = q at hc h
  obtain ⟨a, w⟩ := q
  obtain ⟨hn, hp⟩ := hc
  simp only at hn hp h ⊢
  match a with
  | none => cases h; exact .inl hn
  | some .enc =>
    rcases encStep_cases w with ⟨t', e, hm⟩ | ⟨e, _⟩ | ⟨e, _⟩ <;> simp only [e] at h <;> cases h
    exact .inl (hm.others.2.2.2.2.2.2.1.trans hn)
  | some .dec =>
    have h : decStep w = .next t := h
    rcases decStep_cases w with ⟨t', e, hm⟩ | ⟨f, e, _⟩ <;> rw [e] at h <;> cases h
    exact .inl (hm.others.2.2.2.2.2.2.1.trans hn)
  | some .host =>
    have hx : ∀ {i u}, fetchHost w = .instr i u → exec i u = .next t → t.names = u.names := by
      intro i u hf hx
      obtain ⟨u', _, _, hu | hu | ⟨r, hu⟩ | ⟨i', hi, hu⟩⟩ := fetchHost_cases w <;> rw [hf] at hu <;> cases hu
      rcases exec_host_cases hi u with ⟨t', ht, hm⟩ | ⟨r, ht⟩ <;> rw [ht] at hx <;> cases hx
      exact hm.names
    rcases fetchHost_names w with ⟨u, hu, hf | ⟨i, hf⟩⟩ | ⟨r, hf⟩ | ⟨i, u, x, v, hf, hu, hb⟩ <;>
      simp only [hf] at h ⊢
    · cases h; exact .inl (hu.trans hn)
    · exact .inl ((hx hf h).trans (hu.trans hn))
    · cases h
    · exact .inr ⟨i, u, x, v, trivial, rfl, (hx hf h).trans (hn ▸ hu), hb.congr hp hn⟩

end Sys2Proof.Machine
end

