-- ==== Sys2Proof/Laws/PerInstr.lean ====
section
/-! SUPPORT. A fact about every instruction as syntax, one lemma per constructor: the most specific row of a
well-formed instruction is well-formed, and it is its own most specific row. -/

namespace Sys2Proof.Laws.Specific

/-- The most specific row of a well-formed instruction is well-formed and is its own. -/
def Statement (i : Instr) : Prop :=
  i.wellFormed = true → i.specific.wellFormed = true ∧ i.specific.specific = i.specific

theorem command_ok (e : Engine) (data : Word) :
    (decodeCommand e data).wellFormed = true ∧ (decodeCommand e data).specific = decodeCommand e data := by
  unfold decodeCommand
  split <;> simp_all [Instr.wellFormed, Instr.specific, startData, clrData, nopData]

theorem write_ok (e : Engine) (r : Reg) (data : Word) :
    (decodeWrite e r data).wellFormed = true ∧ (decodeWrite e r data).specific = decodeWrite e r data := by
  cases r <;> first | exact ⟨rfl, rfl⟩ | exact command_ok e data

theorem hdr (n : Word) : Statement (.hdr n) := fun _ => ⟨rfl, rfl⟩
theorem lit (v : Byte) : Statement (.lit v) := fun _ => ⟨rfl, rfl⟩
theorem esc (v k : Byte) : Statement (.esc v k) := fun _ => ⟨rfl, rfl⟩
theorem rd32 (e : Engine) (r : Reg) : Statement (.rd32 e r) := fun _ => ⟨rfl, rfl⟩
theorem wr32 (e : Engine) (r : Reg) (data : Word) : Statement (.wr32 e r data) := fun _ => write_ok e r data
theorem encStart (data : Word) : Statement (.encStart data) := fun h => ⟨h, rfl⟩
theorem decStart (data : Word) : Statement (.decStart data) := fun h => ⟨h, rfl⟩
theorem encClr (data : Word) : Statement (.encClr data) := fun h => ⟨h, rfl⟩
theorem decClr (data : Word) : Statement (.decClr data) := fun h => ⟨h, rfl⟩
theorem encNop (data : Word) : Statement (.encNop data) := fun h => ⟨h, rfl⟩
theorem decNop (data : Word) : Statement (.decNop data) := fun h => ⟨h, rfl⟩
theorem irqEnWr (e : Engine) (data : Word) : Statement (.irqEnWr e data) := fun _ => ⟨rfl, rfl⟩
theorem srcLenWr (e : Engine) (h : Half) (data : Word) : Statement (.srcLenWr e h data) := fun _ => ⟨rfl, rfl⟩
theorem roWr (e : Engine) (r : Reg) (data : Word) : Statement (.roWr e r data) := fun h => ⟨h, rfl⟩
theorem rdb (b : Buffer) (idx : Word64) : Statement (.rdb b idx) := fun _ => ⟨rfl, rfl⟩
theorem wrb (b : Buffer) (idx : Word64) (data : Byte) : Statement (.wrb b idx data) := fun _ => ⟨rfl, rfl⟩

end Sys2Proof.Laws.Specific
end

