-- ==== Sys2Proof/Laws/Registers.lean ====
section
/-! SUPPORT. What the bits of STATUS and IRQ_EN are, and the two halves of a 64-bit register as numbers. -/

namespace Sys2Proof.Machine

theorem bitField_getLsbD (k i : Nat) (b : Bool) : (bitField k b).getLsbD i = (decide (i < 32) && decide (i = k) && b) := by
  by_cases h : i = k
  · subst h; cases b <;> simp [bitField]
  · simp only [bitField, BitVec.getLsbD_shiftLeft, BitVec.getLsbD_setWidth]
    have : i < k ∨ ∃ j, i - k = j + 1 := by
      rcases Nat.lt_or_ge i k with h' | h'
      · exact .inl h'
      · exact .inr ⟨i - k - 1, by omega⟩
    rcases this with h' | ⟨j, h'⟩
    · simp [h', h]
    · rw [h']; simp [h]

theorem nibbleField_getLsbD (k i : Nat) (f : BitVec 4) :
    (nibbleField k f).getLsbD i = (decide (i < 32) && !decide (i < k) && f.getLsbD (i - k)) := by
  by_cases h : i < 32
  · have : i - k < 32 := by omega
    simp [nibbleField, h]
  · simp [nibbleField, h]

theorem statusWord_getLsbD (busy : Bool) (r : Regs) (i : Nat) :
    (r.statusWord busy).getLsbD i =
      ((bitField 0 busy).getLsbD i || (bitField 1 r.done).getLsbD i || (bitField 2 r.err).getLsbD i ||
        (bitField 3 r.irqLevel).getLsbD i || (nibbleField 4 r.code.bits).getLsbD i ||
        (nibbleField 8 r.detail.bits).getLsbD i) := by
  simp only [Regs.statusWord, BitVec.getLsbD_or]

/-! ### The fields of STATUS (10_state.md R19) -/

@[simp] theorem statusWord_busy (busy : Bool) (r : Regs) : (r.statusWord busy).getLsbD 0 = busy := by
  rw [statusWord_getLsbD]; simp [bitField_getLsbD, nibbleField_getLsbD, -BitVec.getLsbD_eq_getElem]

@[simp] theorem statusWord_done (busy : Bool) (r : Regs) : (r.statusWord busy).getLsbD 1 = r.done := by
  rw [statusWord_getLsbD]; simp [bitField_getLsbD, nibbleField_getLsbD, -BitVec.getLsbD_eq_getElem]

@[simp] theorem statusWord_err (busy : Bool) (r : Regs) : (r.statusWord busy).getLsbD 2 = r.err := by
  rw [statusWord_getLsbD]; simp [bitField_getLsbD, nibbleField_getLsbD, -BitVec.getLsbD_eq_getElem]

@[simp] theorem statusWord_irq (busy : Bool) (r : Regs) : (r.statusWord busy).getLsbD 3 = r.irqLevel := by
  rw [statusWord_getLsbD]; simp [bitField_getLsbD, nibbleField_getLsbD, -BitVec.getLsbD_eq_getElem]

@[simp] theorem statusWord_code (busy : Bool) (r : Regs) : (r.statusWord busy).extractLsb' 4 4 = r.code.bits := by
  apply BitVec.eq_of_getLsbD_eq
  intro i hi
  rw [BitVec.getLsbD_extractLsb', statusWord_getLsbD]
  have h0 : 4 + i < 32 := by omega
  have n1 : 4 + i ≠ 1 := by omega
  have n2 : 4 + i ≠ 2 := by omega
  have n3 : 4 + i ≠ 3 := by omega
  have h1 : 4 + i < 8 := by omega
  simp [bitField_getLsbD, nibbleField_getLsbD, n1, n2, n3, h0, h1, hi, -BitVec.getLsbD_eq_getElem]

@[simp] theorem statusWord_detail (busy : Bool) (r : Regs) : (r.statusWord busy).extractLsb' 8 4 = r.detail.bits := by
  apply BitVec.eq_of_getLsbD_eq
  intro i hi
  rw [BitVec.getLsbD_extractLsb', statusWord_getLsbD]
  have h0 : 8 + i < 32 := by omega
  have n1 : 8 + i ≠ 1 := by omega
  have n2 : 8 + i ≠ 2 := by omega
  have n3 : 8 + i ≠ 3 := by omega
  have h1 : r.code.bits.getLsbD (8 + i - 4) = false := BitVec.getLsbD_of_ge _ _ (by omega)
  simp [bitField_getLsbD, nibbleField_getLsbD, n1, n2, n3, h0, h1, hi, -BitVec.getLsbD_eq_getElem]

@[simp] theorem statusWord_reserved (busy : Bool) (r : Regs) : (r.statusWord busy).extractLsb' 12 20 = 0#20 := by
  apply BitVec.eq_of_getLsbD_eq
  intro i hi
  rw [BitVec.getLsbD_extractLsb', statusWord_getLsbD]
  have h0 : 12 + i < 32 := by omega
  have n1 : 12 + i ≠ 1 := by omega
  have n2 : 12 + i ≠ 2 := by omega
  have n3 : 12 + i ≠ 3 := by omega
  have h1 : r.code.bits.getLsbD (12 + i - 4) = false := BitVec.getLsbD_of_ge _ _ (by omega)
  have h2 : r.detail.bits.getLsbD (12 + i - 8) = false := BitVec.getLsbD_of_ge _ _ (by omega)
  simp [bitField_getLsbD, nibbleField_getLsbD, n1, n2, n3, h0, h1, h2, -BitVec.getLsbD_eq_getElem]

theorem irqEnWord_getLsbD (r : Regs) (i : Nat) :
    r.irqEnWord.getLsbD i = ((bitField 0 r.doneIe).getLsbD i || (bitField 1 r.errIe).getLsbD i) := by
  simp only [Regs.irqEnWord, BitVec.getLsbD_or]

/-! ### Halves -/

theorem halfOf_lo_toNat (v : Word64) : (halfOf .lo v).toNat = v.toNat % 2 ^ 32 := by
  simp [halfOf]

theorem halfOf_hi_toNat (v : Word64) : (halfOf .hi v).toNat = v.toNat / 2 ^ 32 := by
  have := v.isLt
  simp [halfOf, Nat.shiftRight_eq_div_pow]
  omega

/-- Writing the low half replaces bits 31:0 (10_state.md R22). -/
theorem withHalf_lo (v : Word64) (d : Word) :
    withHalf .lo v d = BitVec.ofNat 64 (v.toNat / 2 ^ 32 * 2 ^ 32 + d.toNat) := by
  apply BitVec.eq_of_toNat_eq
  have := v.isLt
  have := d.isLt
  simp only [withHalf, BitVec.toNat_append, halfOf_hi_toNat, BitVec.toNat_ofNat]
  rw [← Nat.shiftLeft_add_eq_or_of_lt d.isLt, Nat.shiftLeft_eq]
  omega

/-- Writing the high half replaces bits 63:32 (10_state.md R22). -/
theorem withHalf_hi (v : Word64) (d : Word) :
    withHalf .hi v d = BitVec.ofNat 64 (d.toNat * 2 ^ 32 + v.toNat % 2 ^ 32) := by
  apply BitVec.eq_of_toNat_eq
  have := v.isLt
  have := d.isLt
  have h : v.toNat % 2 ^ 32 < 2 ^ 32 := by omega
  simp only [withHalf, BitVec.toNat_append, halfOf_lo_toNat, BitVec.toNat_ofNat]
  rw [← Nat.shiftLeft_add_eq_or_of_lt h, Nat.shiftLeft_eq]
  omega

end Sys2Proof.Machine
end

