-- ==== Sys2Proof/Tests/Slice0.lean ====
section
/-! SUPPORT. Tests with results written out from spec/ (30_encoding.md, 95_test_vectors.md), the smoke test of
WellFormed, and for every obligation with hypotheses a state and operands that meet them. -/

namespace Sys2Proof.Tests

open Sys2Proof.Machine

/-! ### Helpers -/

/-- Small buffers. -/
def caps0 : Capacities := { encSrc := 8#64, encDst := 16#64, decSrc := 16#64, decDst := 8#64 }

/-- After reset, with small buffers. -/
def fresh : State := State.resetWith caps0

/-- Look at the next state of an outcome; none after a fault or a refusal. -/
def look {α : Type} (f : State → α) (o : Host.Outcome State Fault Refusal) : Option α :=
  match o with
  | .next t => some (f t)
  | .fault _ => none
  | .refused _ => none

/-- The next state of an outcome, the fresh state where there is none. -/
def nextOf (o : Host.Outcome State Fault Refusal) : State :=
  match o with
  | .next t => t
  | .fault _ => fresh
  | .refused _ => fresh

def isRefused (o : Host.Outcome State Fault Refusal) : Bool :=
  match o with
  | .next _ => false
  | .fault _ => false
  | .refused _ => true

/-- ENC given bytes, a phase and working registers. -/
def withEnc (phase : EncPhase) (n i runStart outPos : Word64) (runChar : Byte) (src : List Byte) : State :=
  let s := fresh.setBytes .encSrc 0 src
  { s with enc := { s.enc with
      phase := phase, job := { n := n, i := i, runStart := runStart, runChar := runChar, outPos := outPos } } }

/-- DEC given a stream, a phase and working registers. -/
def withDec (phase : DecPhase) (len i w : Word64) (orig : Word) (src : List Byte) : State :=
  let s := fresh.setBytes .decSrc 0 src
  { s with dec := { s.dec with
      phase := phase, regs := { s.dec.regs with hdrLen := orig },
      job := { len := len, i := i, w := w, orig := orig } } }

def moved (a : Agent) (s : State) : State := { s with schedule := [a] }

/-! ### WellFormed refuses each ill-formed term -/

theorem smoke_encStart_needs_bit0 : (Instr.encStart 0x00000002#32).wellFormed = false := by decide
theorem smoke_decStart_needs_bit0 : (Instr.decStart 0xFFFFFFFE#32).wellFormed = false := by decide
theorem smoke_encClr_start_wins : (Instr.encClr 0x00000003#32).wellFormed = false := by decide
theorem smoke_encClr_needs_bit1 : (Instr.encClr 0x00000000#32).wellFormed = false := by decide
theorem smoke_decClr_start_wins : (Instr.decClr 0x00000003#32).wellFormed = false := by decide
theorem smoke_decClr_needs_bit1 : (Instr.decClr 0x00000004#32).wellFormed = false := by decide
theorem smoke_encNop_is_no_start : (Instr.encNop 0x00000001#32).wellFormed = false := by decide
theorem smoke_encNop_is_no_clr : (Instr.encNop 0x00000002#32).wellFormed = false := by decide
theorem smoke_decNop_is_no_start : (Instr.decNop 0x00000001#32).wellFormed = false := by decide
theorem smoke_decNop_is_no_clr : (Instr.decNop 0x00000002#32).wellFormed = false := by decide
theorem smoke_roWr_ctrl : (Instr.roWr .enc .ctrl 0#32).wellFormed = false := by decide
theorem smoke_roWr_irqEn : (Instr.roWr .dec .irqEn 0#32).wellFormed = false := by decide
theorem smoke_roWr_srcLen : (Instr.roWr .enc .srcLenHi 0#32).wellFormed = false := by decide

/-! ### Decoding: words written out from 30_encoding.md and the opcode table -/

/-- HDR, byte 0 first (R55): V-E14's length 300 = 0x12C. -/
theorem test_decode_hdr : decode (.stream .header [0x2C#8, 0x01#8, 0x00#8, 0x00#8]) = .ok (.hdr 300#32) := by decide
/-- LIT (R56). -/
theorem test_decode_lit : decode (.stream .body [0x61#8]) = .ok (.lit 0x61#8) := by decide
/-- ESC (R57): 'a', 5 of V-S01. -/
theorem test_decode_esc : decode (.stream .body [0x61#8, 0x61#8, 0x05#8]) = .ok (.esc 0x61#8 0x05#8) := by decide
/-- RD32 of DEC.OUT_LEN_LO is offset 0x58 (P2). -/
theorem test_decode_rd32 : decode (.bus (.regRead 32 0x58#7)) = .ok (.rd32 .dec .outLenLo) := by decide
/-- A WR32 decodes to the row its offset and data match; this is IRQ_EN of ENC. -/
theorem test_decode_wr32 :
    decode (encode (.wr32 .enc .irqEn 0x2#32)) = .ok (.irqEnWr .enc 0x2#32) := by decide
theorem test_decode_encStart : decode (.bus (.regWrite 32 0x00#7 0x00000003#32)) = .ok (.encStart 0x00000003#32) := by decide
theorem test_decode_decStart : decode (.bus (.regWrite 32 0x40#7 0x00000001#32)) = .ok (.decStart 0x00000001#32) := by decide
theorem test_decode_encClr : decode (.bus (.regWrite 32 0x00#7 0x00000002#32)) = .ok (.encClr 0x00000002#32) := by decide
theorem test_decode_decClr : decode (.bus (.regWrite 32 0x40#7 0xFFFFFFFE#32)) = .ok (.decClr 0xFFFFFFFE#32) := by decide
theorem test_decode_encNop : decode (.bus (.regWrite 32 0x00#7 0xFFFFFFFC#32)) = .ok (.encNop 0xFFFFFFFC#32) := by decide
theorem test_decode_decNop : decode (.bus (.regWrite 32 0x40#7 0x00000000#32)) = .ok (.decNop 0x00000000#32) := by decide
theorem test_decode_irqEnWr : decode (.bus (.regWrite 32 0x48#7 0x00000003#32)) = .ok (.irqEnWr .dec 0x00000003#32) := by decide
theorem test_decode_srcLenWr : decode (.bus (.regWrite 32 0x54#7 0x00000001#32)) = .ok (.srcLenWr .dec .hi 0x00000001#32) := by decide
theorem test_decode_roWr : decode (.bus (.regWrite 32 0x38#7 0x00000007#32)) = .ok (.roWr .enc .hdrLen 0x00000007#32) := by decide
theorem test_decode_rdb : decode (.bus (.bufRead .decDst 5#64)) = .ok (.rdb .decDst 5#64) := by decide
theorem test_decode_wrb : decode (.bus (.bufWrite .encSrc 0#64 0x61#8)) = .ok (.wrb .encSrc 0#64 0x61#8) := by decide

/-- V-C15: a 16-bit register read and a 32-bit read at 0x06 are refused. -/
theorem test_refuses_width : decode (.bus (.regRead 16 0x04#7)) = .error (.accessWidth 16) := by decide
theorem test_refuses_misaligned : decode (.bus (.regRead 32 0x06#7)) = .error (.misaligned 0x06#7) := by decide
theorem test_refuses_short_header : decode (.stream .header [0x00#8, 0x00#8, 0x00#8]) = .error .shortHeader := by decide
/-- V-D04: an equal pair at the end of a stream is a LIT and then another. -/
theorem test_tail_pair : decodeUnit [0x61#8, 0x61#8] = .ok (.lit 0x61#8, [0x61#8]) := by decide

/-! ### One step each -/

/-- V-D01: the header of an empty stream leads to CHECK. -/
theorem test_hdr_empty :
    look (fun t => (t.dec.phase, t.dec.regs.hdrLen)) (exec (.hdr 0#32) (withDec .header 4#64 0#64 0#64 0#32 [])) =
      some (.check, 0#32) := by decide
/-- V-D11, on a smaller DST: STATUS 0x034, ERR_POS 0, HDR_LEN kept. -/
theorem test_hdr_too_large :
    look (fun t => (t.readReg .dec .status, t.dec.regs.errPos, t.dec.regs.hdrLen))
      (exec (.hdr 9#32) (withDec .header 4#64 0#64 0#64 0#32 [])) = some (0x034#32, 0#64, 9#32) := by decide
/-- V-D02: the tail LIT. -/
theorem test_lit_tail :
    look (fun t => (t.dec.phase, t.dec.dst, t.dec.job.w))
      (exec (.lit 0x61#8) (withDec .body 5#64 4#64 0#64 1#32 [])) = some (.check, [(0, 0x61#8)], 1#64) := by decide
/-- V-D06: the second LIT overflows at 5. -/
theorem test_lit_overflow :
    look (fun t => (t.readReg .dec .status, t.dec.regs.errPos, t.dec.dst))
      (exec (.lit 0x61#8) (withDec .body 6#64 5#64 1#64 1#32 [])) = some (0x124#32, 5#64, []) := by decide
/-- V-D12: three copies are written, the fourth is refused. -/
theorem test_esc_overflow :
    look (fun t => (t.readReg .dec .status, t.dec.regs.errPos, t.dec.dst))
      (exec (.esc 0x7A#8 5#8) (withDec .body 7#64 4#64 0#64 3#32 [])) =
      some (0x124#32, 4#64, [(0, 0x7A#8), (1, 0x7A#8), (2, 0x7A#8)]) := by decide
/-- V-D18: a count of 0 appends nothing, even to a full output. -/
theorem test_esc_zero :
    look (fun t => (t.dec.phase, t.dec.dst, t.dec.job.i))
      (exec (.esc 0x62#8 0#8) (withDec .body 8#64 5#64 1#64 1#32 [])) = some (.check, [], 8#64) := by decide
/-- V-C04: the halves of a capacity. -/
theorem test_rd32_capacity :
    look (·.reads) (exec (.rd32 .enc .srcCapHi) { fresh with caps := { caps0 with encSrc := 0x100000010#64 } }) =
      some [.word 1#32] := by decide
/-- V-X07: STATUS of a fault with ERR_IE set. -/
theorem test_rd32_status :
    look (·.reads) (exec (.rd32 .dec .status)
      ((fresh.updRegs .dec (Regs.writeIrqEn 2#32)).raiseFault .dec .malformedEncoding .overflow 5#64)) =
      some [.word 0x12C#32] := by decide
/-- V-C05 through the general row. -/
theorem test_wr32_irqEn :
    look (fun t => t.readReg .dec .irqEn) (exec (.wr32 .dec .irqEn 0xFFFFFFFF#32) fresh) = some 3#32 := by decide
/-- V-C06 through the general row. -/
theorem test_wr32_readOnly :
    look (fun t => decide (t = fresh)) (exec (.wr32 .enc .outLenLo 5#32) fresh) = some true := by decide
/-- V-X04: the length is checked against 2^32 before the capacity. -/
theorem test_encStart_tooLarge :
    look (fun t => (t.readReg .enc .status, t.enc.regs.srcLen))
      (exec (.encStart 1#32) (fresh.updRegs .enc fun g => { g with srcLen := 0x100000000#64 })) =
      some (0x014#32, 0x100000000#64) := by decide
/-- V-E21, on this instance: one byte more than the buffer holds. -/
theorem test_encStart_beyond :
    look (fun t => t.readReg .enc .status)
      (exec (.encStart 1#32) (fresh.updRegs .enc fun g => { g with srcLen := 9#64 })) = some 0x044#32 := by decide
/-- V-D09: a short stream. -/
theorem test_decStart_short :
    look (fun t => t.readReg .dec .status)
      (exec (.decStart 1#32) (fresh.updRegs .dec fun g => { g with srcLen := 3#64 })) = some 0x224#32 := by decide
/-- V-X05: BufferBounds comes before SHORT_HEADER. -/
theorem test_decStart_beyond :
    look (fun t => t.readReg .dec .status)
      (exec (.decStart 1#32) { fresh.updRegs .dec (fun g => { g with srcLen := 3#64 }) with
        caps := { caps0 with decSrc := 2#64 } }) = some 0x044#32 := by decide
/-- V-C11: CLR keeps OUT_LEN and HDR_LEN. -/
theorem test_encClr :
    look (fun t => (t.readReg .enc .status, t.readReg .enc .outLenLo, t.readReg .enc .hdrLen))
      (exec (.encClr 2#32) (fresh.updRegs .enc fun g => { g with done := true, outLen := 19#64, hdrLen := 19#32 })) =
      some (0#32, 19#32, 19#32) := by decide
/-- V-C10: a busy engine ignores CLR. -/
theorem test_encClr_busy :
    look (fun t => t.readReg .enc .status) (exec (.encClr 2#32) (withEnc .header 0#64 0#64 0#64 0#64 0#8 [])) =
      some 1#32 := by decide
/-- V-X07: CLR drops the line. -/
theorem test_decClr :
    look (fun t => (t.readReg .dec .status, t.irqLine .dec))
      (exec (.decClr 2#32)
        ((fresh.updRegs .dec (Regs.writeIrqEn 2#32)).raiseFault .dec .malformedEncoding .overflow 5#64)) =
      some (0#32, false) := by decide
/-- V-C07. -/
theorem test_encNop : look (fun t => decide (t = fresh)) (exec (.encNop 0xFFFFFFFC#32) fresh) = some true := by decide
theorem test_decNop : look (fun t => decide (t = fresh)) (exec (.decNop 0x00000004#32) fresh) = some true := by decide
/-- V-C13: the line rises in the write. -/
theorem test_irqEnWr :
    look (fun t => (t.readReg .enc .status, t.irqLine .enc))
      (exec (.irqEnWr .enc 2#32) (fresh.raiseFault .enc .inputTooLarge .none 0#64)) = some (0x01C#32, true) := by decide
/-- V-X09: the high half of 2^32. -/
theorem test_srcLenWr :
    look (fun t => (t.readReg .enc .srcLenLo, t.readReg .enc .srcLenHi))
      (exec (.srcLenWr .enc .hi 1#32) (fresh.updRegs .enc fun g => { g with srcLen := 0xFFFFFFFF00000005#64 })) =
      some (5#32, 1#32) := by decide
/-- V-C06. -/
theorem test_roWr : look (fun t => decide (t = fresh)) (exec (.roWr .enc .status 0xFFFFFFFF#32) fresh) = some true := by decide
/-- V-C16. -/
theorem test_rdb :
    look (·.reads) (exec (.rdb .decSrc 0#64) (fresh.setByte .decSrc 0 0x13#8)) = some [.byte 0x13#8] := by decide
/-- V-C15. -/
theorem test_rdb_beyond : isRefused (exec (.rdb .decDst 8#64) fresh) = true := by decide
/-- V-C16. -/
theorem test_wrb : look (·.dec.src) (exec (.wrb .decSrc 0#64 0x13#8) fresh) = some [(0, 0x13#8)] := by decide
/-- V-C15. -/
theorem test_wrb_beyond : isRefused (exec (.wrb .encSrc 8#64 0#8) fresh) = true := by decide

/-! ### ENC's steps and DEC's CHECK -/

/-- V-E14: the header of 300 bytes is 2C 01 00 00. -/
theorem test_encHeader :
    look (fun t => (t.enc.dst, t.enc.phase)) (encHeader (withEnc .header 300#64 0#64 0#64 0#64 0#8 [])) =
      some ([(0, 0x2C#8), (1, 0x01#8), (2, 0x00#8), (3, 0x00#8)], .scan) := by decide
/-- V-E05 at i = 2: the run of two 'a' becomes an ESC. -/
theorem test_encScan_flush :
    look (fun t => (t.enc.dst, t.enc.job.runStart, t.enc.phase))
      (encScan (withEnc .scan 3#64 2#64 0#64 4#64 0x61#8 [0x61#8, 0x61#8, 0x62#8])) =
      some ([(4, 0x61#8), (5, 0x61#8), (6, 0x02#8)], 2#64, .tail) := by decide
/-- V-E02 at n: the tail LIT, OUT_LEN 5, DONE. -/
theorem test_encTail :
    look (fun t => (t.enc.dst, t.enc.regs.outLen, t.readReg .enc .status))
      (encTail (withEnc .tail 1#64 1#64 0#64 4#64 0x61#8 [0x61#8])) = some ([(4, 0x61#8)], 5#64, 2#32) := by decide
/-- V-D05: UNDERFILL at L. -/
theorem test_decCheck :
    look (fun t => (t.readReg .dec .status, t.dec.regs.errPos)) (decCheck (withDec .check 6#64 6#64 2#64 3#32 [])) =
      some (0x324#32, 6#64) := by decide

/-! ### Table words (notes/assumptions/7.md) -/

theorem test_tableWord_hdr : decodeTableWord 32 0x0000012C = some (.hdr 300#32) := by decide
theorem test_tableWord_esc : decodeTableWord 24 0x056161 = some (.esc 0x61#8 5#8) := by decide
theorem test_withFetchWord_esc :
    look (fun t => t.dec.regs.errPos) (step (State.reset.withFetchWord 24 0x056161)) = some 4#64 := by decide
theorem test_withFetchWord_encStart :
    look (fun t => t.enc.phase) (step (State.reset.withFetchWord 48 0x000000010001)) = some .header := by decide

/-! ### Witnesses: states and operands that meet the hypotheses of the obligations, each clause at a boundary -/

theorem witness_DecodeOfEncodeIsTheInstruction :
    (Instr.roWr .dec .hdrLen 5#32).wellFormed = true ∧ (Instr.wr32 .dec .hdrLen 5#32).wellFormed = true := by decide

theorem witness_BusErrorsAreRefused :
    decodeBus (.regRead 32 0x06#7) = .error (.misaligned 0x06#7) ∧
    decodeBus (.regWrite 31 0x00#7 1#32) = .error (.accessWidth 31) ∧ fresh.cap .encSrc ≤ (8#64).toNat := by decide

theorem witness_CtrlCommandIsSelectedByTwoBits :
    (0xFFFFFFFF#32 &&& 1#32 = 1#32) ∧ (0x00000001#32 &&& 1#32 = 1#32) ∧
    (0xFFFFFFFE#32 &&& 3#32 = 2#32) ∧ (0xFFFFFFFC#32 &&& 3#32 = 0#32) := by decide

/-- An ESC that ends the stream, an equal pair that ends it, and its last byte. -/
theorem witness_UnitKindByTheNextByte :
    let stream : List Byte := [1#8, 0#8, 0#8, 0#8, 0x61#8, 0x61#8, 0x05#8]
    (4 + 2 < stream.length ∧ stream.getD (4 + 1) 0#8 = stream.getD 4 0#8) ∧
    ¬ (1 + 2 < 3 ∧ stream.getD (1 + 1) 0#8 = stream.getD 1 0#8) ∧ 6 < stream.length := by decide

theorem witness_CanonicalUnitsParseBack :
    canonicalUnits [.esc 0x41#8 255#8, .lit 0x41#8, .esc 0x61#8 2#8] = true := by decide

theorem witness_CompressedStreamsAreCanonical : ([0x61#8, 0x61#8, 0x62#8] : List Byte).length < 2 ^ 32 := by decide

theorem witness_DecompressOfCompressIsTheInput : ([] : List Byte).length < 2 ^ 32 := by decide

theorem witness_CompressedSizeIsBounded :
    let b : List Byte := [0x61#8, 0x61#8, 0x62#8, 0x63#8, 0x63#8]
    (∀ p ∈ maximalRuns b, p.2 = 1 ∨ p.2 = 2) ∧ ((maximalRuns b).filter fun p => p.2 = 1).length ≤ 1 ∧
    b.length ≤ 2 ^ 32 - 1 := by decide

/-- The state that START meets: idle, with this length. -/
def withLength (e : Engine) (n : Word64) : State := fresh.updRegs e fun g => { g with srcLen := n }

theorem witness_EncStartChecksTheLength_begins :
    let s := withLength .enc 8#64
    s.enc.phase = .idle ∧ s.enc.regs.srcLen.toNat < 2 ^ 32 ∧ s.enc.regs.srcLen.toNat = s.cap .encSrc := by decide
theorem witness_EncStartChecksTheLength_tooLarge :
    let s := withLength .enc 0x100000000#64
    s.enc.phase = .idle ∧ 2 ^ 32 ≤ s.enc.regs.srcLen.toNat := by decide
theorem witness_EncStartChecksTheLength_beyond :
    let s := withLength .enc 0xFFFFFFFF#64
    s.enc.phase = .idle ∧ s.enc.regs.srcLen.toNat < 2 ^ 32 ∧ s.cap .encSrc < s.enc.regs.srcLen.toNat := by decide

theorem witness_DecStartChecksTheLength_begins :
    let s := withLength .dec 4#64
    s.dec.phase = .idle ∧ 4 ≤ s.dec.regs.srcLen.toNat ∧ s.dec.regs.srcLen.toNat ≤ s.cap .decSrc := by decide
theorem witness_DecStartChecksTheLength_beyond :
    let s := withLength .dec 17#64
    s.dec.phase = .idle ∧ s.cap .decSrc < s.dec.regs.srcLen.toNat := by decide
theorem witness_DecStartChecksTheLength_short :
    let s := withLength .dec 3#64
    s.dec.phase = .idle ∧ s.dec.regs.srcLen.toNat ≤ s.cap .decSrc ∧ s.dec.regs.srcLen.toNat < 4 := by decide

/-- Both engines busy. -/
def bothBusy : State :=
  { (withEnc .scan 2#64 1#64 0#64 4#64 0x61#8 [0x61#8, 0x61#8]).updRegs .enc (fun g => { g with hdrLen := 2#32 }) with
    dec := (withDec .body 7#64 4#64 0#64 5#32 [5#8, 0#8, 0#8, 0#8, 0x71#8, 0x71#8, 5#8]).dec }

theorem witness_StartWhileBusyIsIgnored : bothBusy.busy .enc = true ∧ bothBusy.busy .dec = true := by decide

theorem witness_ClearDropsTheStatusOnly :
    fresh.enc.phase = .idle ∧ fresh.dec.phase = .idle ∧ bothBusy.busy .enc = true ∧ bothBusy.busy .dec = true := by
  decide

theorem witness_ReadOnlyRegistersIgnoreWrites : Reg.reserved3C.readOnly = true := by decide

theorem witness_WriteRegisterByOffset :
    Reg.status ≠ .ctrl ∧ Reg.status ≠ .irqEn ∧ Reg.status ≠ .srcLenLo ∧ Reg.status ≠ .srcLenHi := by decide

theorem witness_ReadByteReturnsTheByte :
    (7#64).toNat < fresh.cap .encSrc ∧ fresh.cap .encSrc ≤ (8#64).toNat := by decide

theorem witness_WriteByteChangesOneByte :
    fresh.busy (Buffer.engine .decDst) = false ∧ (7#64).toNat < fresh.cap .decDst ∧
    fresh.cap .decDst ≤ (8#64).toNat := by decide

/-- The last byte of a buffer in which others are written. -/
theorem witness_UnwrittenByteReadsAsTheFreeValue :
    (bothBusy.mem .decSrc).get (15#64).toNat = none ∧ (15#64).toNat + 1 = bothBusy.cap .decSrc ∧
    (bothBusy.mem .decSrc).get 6 = some 5#8 := by decide

theorem witness_HeaderUnitSetsTheLength :
    (8#32).toNat = fresh.cap .decDst ∧ fresh.cap .decDst < (9#32).toNat := by decide

theorem witness_LiteralUnitAppendsOneByte :
    let s := withDec .body 6#64 4#64 7#64 8#32 []
    s.dec.job.w.toNat < s.dec.job.orig.toNat ∧ s.dec.job.orig.toNat ≤ s.cap .decDst ∧
    (withDec .body 6#64 5#64 1#64 1#32 []).dec.job.orig.toNat ≤ (withDec .body 6#64 5#64 1#64 1#32 []).dec.job.w.toNat := by
  decide

/-- The copies that exactly fill the output, and one more. -/
theorem witness_EscapeUnitAppendsItsCopies :
    let s := withDec .body 7#64 4#64 0#64 8#32 []
    s.dec.job.orig.toNat ≤ s.cap .decDst ∧ s.dec.job.w.toNat + (8#8).toNat = s.dec.job.orig.toNat ∧
    s.dec.job.w.toNat ≤ s.dec.job.orig.toNat ∧ s.dec.job.orig.toNat < s.dec.job.w.toNat + (9#8).toNat := by decide

theorem witness_HeaderStepRunsTheFetchedHeader :
    let s := moved .dec (withDec .header 4#64 0#64 0#64 0#32 [1#8, 0#8, 0#8, 0#8])
    s.schedule = .dec :: [] ∧ s.dec.phase = .header ∧ 4 ≤ s.cap .decSrc := by decide

theorem witness_BodyStepRunsTheFetchedUnit_esc :
    let s := moved .dec (withDec .body 7#64 4#64 0#64 5#32 [5#8, 0#8, 0#8, 0#8, 0x71#8, 0x71#8, 5#8])
    let i := s.dec.job.i.toNat
    s.schedule = .dec :: [] ∧ s.dec.phase = .body ∧ i < s.dec.job.len.toNat ∧ s.dec.job.len.toNat ≤ s.cap .decSrc ∧
    i + 3 = s.dec.job.len.toNat ∧ s.byteAt .decSrc (i + 1) = s.byteAt .decSrc i := by decide
theorem witness_BodyStepRunsTheFetchedUnit_lit :
    let s := moved .dec (withDec .body 6#64 4#64 0#64 2#32 [2#8, 0#8, 0#8, 0#8, 0x61#8, 0x61#8])
    let i := s.dec.job.i.toNat
    s.schedule = .dec :: [] ∧ s.dec.phase = .body ∧ i < s.dec.job.len.toNat ∧ s.dec.job.len.toNat ≤ s.cap .decSrc ∧
    i + 2 = s.dec.job.len.toNat ∧ s.byteAt .decSrc (i + 1) = s.byteAt .decSrc i := by decide

theorem witness_CheckStepDemandsAnExactFill :
    let s := moved .dec (withDec .check 6#64 6#64 2#64 2#32 [])
    let s' := moved .dec (withDec .check 6#64 6#64 2#64 3#32 [])
    s.schedule = .dec :: [] ∧ s.dec.phase = .check ∧ s.dec.job.w.toNat = s.dec.job.orig.toNat ∧
    s'.schedule = .dec :: [] ∧ s'.dec.phase = .check ∧ s'.dec.job.w.toNat ≠ s'.dec.job.orig.toNat := by decide

theorem witness_EncHeaderStepWritesTheLength :
    let s := moved .enc { withEnc .header 0#64 0#64 0#64 0#64 0#8 [] with caps := { caps0 with encDst := 4#64 } }
    let s' := moved .enc { withEnc .header 0#64 0#64 0#64 0#64 0#8 [] with caps := { caps0 with encDst := 3#64 } }
    s.schedule = .enc :: [] ∧ s.enc.phase = .header ∧ 4 ≤ s.cap .encDst ∧
    s'.schedule = .enc :: [] ∧ s'.enc.phase = .header ∧ s'.cap .encDst < 4 := by decide

/-- A byte that extends the run; V-E23's flush, one byte too large for the buffer and exactly fitting. -/
theorem witness_EncScanStepTakesOneByte_extends :
    let s := moved .enc (withEnc .scan 3#64 1#64 0#64 4#64 0x61#8 [0x61#8, 0x61#8, 0x62#8])
    s.schedule = .enc :: [] ∧ s.enc.phase = .scan ∧ s.enc.job.i.toNat < s.cap .encSrc ∧
    s.enc.job.runStart.toNat ≤ s.enc.job.i.toNat ∧ s.enc.job.outPos.toNat ≤ s.cap .encDst ∧
    s.byteAt .encSrc s.enc.job.i.toNat = s.enc.job.runChar ∧ s.enc.job.i.toNat - s.enc.job.runStart.toNat ≠ 255 := by
  decide
theorem witness_EncScanStepTakesOneByte_fits :
    let s := moved .enc { withEnc .scan 3#64 2#64 0#64 4#64 0x61#8 [0x61#8, 0x61#8, 0x62#8] with
      caps := { caps0 with encDst := 7#64 } }
    s.schedule = .enc :: [] ∧ s.enc.phase = .scan ∧ s.enc.job.i.toNat < s.cap .encSrc ∧
    s.enc.job.runStart.toNat ≤ s.enc.job.i.toNat ∧ s.enc.job.outPos.toNat ≤ s.cap .encDst ∧
    s.byteAt .encSrc s.enc.job.i.toNat ≠ s.enc.job.runChar ∧ s.enc.job.outPos.toNat + 3 ≤ s.cap .encDst := by decide
theorem witness_EncScanStepTakesOneByte_faults :
    let s := moved .enc { withEnc .scan 3#64 2#64 0#64 4#64 0x61#8 [0x61#8, 0x61#8, 0x62#8] with
      caps := { caps0 with encDst := 6#64 } }
    s.schedule = .enc :: [] ∧ s.enc.phase = .scan ∧ s.enc.job.i.toNat < s.cap .encSrc ∧
    s.enc.job.runStart.toNat ≤ s.enc.job.i.toNat ∧ s.enc.job.outPos.toNat ≤ s.cap .encDst ∧
    s.byteAt .encSrc s.enc.job.i.toNat ≠ s.enc.job.runChar ∧ s.cap .encDst < s.enc.job.outPos.toNat + 3 := by decide

/-- V-E25's exact fit and V-E24's fault. -/
theorem witness_EncTailStepCompletes :
    let s := moved .enc { withEnc .tail 2#64 2#64 1#64 5#64 0x62#8 [0x61#8, 0x62#8] with
      caps := { caps0 with encDst := 6#64 } }
    let s' := moved .enc { withEnc .tail 2#64 2#64 1#64 5#64 0x62#8 [0x61#8, 0x62#8] with
      caps := { caps0 with encDst := 5#64 } }
    s.schedule = .enc :: [] ∧ s.enc.phase = .tail ∧ s.enc.job.runStart.toNat ≤ s.enc.job.n.toNat ∧
    s.enc.job.outPos.toNat + 1 ≤ s.cap .encDst ∧
    s'.schedule = .enc :: [] ∧ s'.enc.phase = .tail ∧ s'.enc.job.runStart.toNat ≤ s'.enc.job.n.toNat ∧
    s'.enc.job.outPos.toNat ≤ s'.cap .encDst ∧ s'.cap .encDst < s'.enc.job.outPos.toNat + 1 := by decide

theorem witness_StepRunsTheHostsLine :
    let s : State := { fresh with schedule := [.host], program := [.access (.regRead 32 0x04#7)] }
    let s' : State := { fresh with
      schedule := [.host], program := [.poll .enc .status (.imm 1) (.name 3)], names := [(3, .word 0#32)] }
    let t := s'.bindName pollName (.word (s'.readReg .enc .status))
    s.schedule = .host :: [] ∧ s.program = .access (.regRead 32 0x04#7) :: [] ∧
    decodeBus (.regRead 32 0x04#7) = .ok (.rd32 .enc .status) ∧
    s'.schedule = .host :: [] ∧ s'.program = .poll .enc .status (.imm 1) (.name 3) :: [] ∧
    t.operand (.imm 1) = some 1 ∧ t.operand (.name 3) = some 0 := by decide

theorem witness_DefaultOrderServesBusyEnginesFirst :
    let d := withDec .header 4#64 0#64 0#64 0#32 []
    bothBusy.schedule = [] ∧ bothBusy.busy .enc = true ∧
    d.schedule = [] ∧ d.busy .enc = false ∧ d.busy .dec = true ∧
    fresh.schedule = [] ∧ fresh.busy .enc = false ∧ fresh.busy .dec = false ∧ fresh.program = [] ∧
    ({ fresh with program := [.reset] } : State).program ≠ [] := by decide

/-- P5's LOAD of four bytes read before, and four literals, which fills the buffer. -/
theorem witness_LoadFillsTheSourceBuffer :
    let bs : List Byte := [0#8, 0#8, 0#8, 0#8, 0x61#8, 0x62#8, 0x63#8, 0x64#8]
    let os : List Operand := [.name 1, .name 2, .name 3, .name 4] ++ byteOperands [0x61#8, 0x62#8, 0x63#8, 0x64#8]
    let s : State := { fresh with
      program := HostAsm.lines (.load .enc os) ++ [.reset], schedule := List.replicate bs.length .host ++ [.enc],
      names := [(1, .byte 0#8), (2, .byte 0#8), (3, .byte 0#8), (4, .byte 0#8)] }
    s.busy .enc = false ∧ bs.length ≤ s.cap (srcOf .enc) ∧
    (os.map fun o => s.operand o) = (bs.map fun v => some v.toNat) ∧
    s.program = HostAsm.lines (.load .enc os) ++ [.reset] ∧ s.schedule = List.replicate bs.length .host ++ [.enc] := by
  decide

theorem witness_ResetInputWinsOverEverything :
    let s : State := { bothBusy with program := [.reset], schedule := [.host] }
    s.program = .reset :: [] ∧ s.schedule = .host :: [] := by decide

/-- A state of the invariant in which both engines work: ENC at the second 'a' of "aa", DEC at the ESC of V-D13. -/
theorem bothBusy_inv : Inv bothBusy where
  encStatus := by unfold StatusOk; decide
  decStatus := by unfold StatusOk; decide
  buffers := by
    intro b
    cases b <;> constructor <;> decide
  encJob := by
    refine ⟨by decide, by decide, by decide, by decide, by decide, by decide, ?_, by decide, by decide, by decide, ?_⟩
    · intro k _ h
      have : k = 0 := by
        have : k < 1 := h
        omega
      subst this; rfl
    · decide
  decJob := ⟨by decide, by decide, by decide, by decide, by decide, by decide⟩
  codes := ⟨by decide, by decide⟩

/-- A step from there, of each engine, answers a next state. -/
theorem witness_EveryStepKeepsTheInvariant :
    Inv bothBusy ∧ ∃ t, step bothBusy = .next t := ⟨bothBusy_inv, _, rfl⟩

theorem witness_EnginesNeverLeaveTheirBuffers : Inv bothBusy := bothBusy_inv

theorem witness_EngineStepsStayInTheirFootprint :
    (∃ t, step { bothBusy with schedule := [.enc] } = .next t ∧ t.enc.phase = .tail) ∧
    (∃ t, step { bothBusy with schedule := [.dec] } = .next t ∧ t.dec.job.w.toNat = 5) :=
  ⟨⟨_, rfl, by decide⟩, ⟨_, rfl, by decide⟩⟩

/-- Two states with the same ENC, the same capacities and reset, and different DECs. -/
theorem witness_EnginesShareNoState :
    let s : State := { bothBusy with schedule := [.enc] }
    let s' : State := { bothBusy with dec := Dec.reset, schedule := [.enc, .host] }
    s'.caps = s.caps ∧ s'.epoch = s.epoch ∧ s'.enc = s.enc ∧ s'.dec ≠ s.dec := by decide

theorem witness_EngineInterleavingDoesNotMatter : Inv bothBusy ∧ bothBusy.busy .enc = true := ⟨bothBusy_inv, by decide⟩

/-- A START makes an idle engine busy. -/
theorem witness_OnlyStartLeavesIdle :
    let s : State := { fresh with schedule := [.host], program := [.access (.regWrite 32 0x00#7 1#32)] }
    s.enc.phase = .idle ∧ look (fun t => t.enc.phase) (step s) = some .header := by decide

/-- V-D06's second LIT faults. -/
theorem witness_FaultsComeFromTheListedSites :
    let s := moved .dec (withDec .body 6#64 5#64 1#64 1#32 [1#8, 0#8, 0#8, 0#8, 0x61#8, 0x61#8])
    s.dec.regs.err = false ∧ look (fun t => t.dec.regs.err) (step s) = some true := by decide

theorem witness_OnlyCompletionSetsDone :
    let s := moved .dec (withDec .check 4#64 4#64 0#64 0#32 [])
    s.dec.regs.done = false ∧ look (fun t => t.dec.regs.done) (step s) = some true := by decide

/-- A CLR after a job: the STATUS clauses hold before and after, and OUT_LEN stays. -/
theorem witness_StatusBitsStayConsistent :
    let s : State := { fresh.updRegs .enc (fun g => { g with done := true, outLen := 5#64 }) with
      schedule := [.host], program := [.access (.regWrite 32 0x00#7 2#32)] }
    look (fun t => (t.readReg .enc .outLenLo, t.readReg .enc .status)) (step s) = some (5#32, 0#32) := by decide

theorem witness_CapacitiesNeverChange : ∃ t, step bothBusy = .next t := ⟨_, rfl⟩

/-- "aab" in ENC.SRC, its length in SRC_LEN. -/
def aab : State :=
  (fresh.setBytes .encSrc 0 [0x61#8, 0x61#8, 0x62#8]).updRegs .enc fun g => { g with srcLen := 3#64 }

/-- The two clauses of the job: DST holds the 8 bytes of V-E05, and V-E23's 6 bytes do not. -/
theorem witness_EncJobComputesCompress :
    aab.enc.phase = .idle ∧ aab.enc.regs.srcLen = BitVec.ofNat 64 3 ∧ 3 ≤ aab.cap .encSrc ∧
    Holds aab .encSrc 0 [0x61#8, 0x61#8, 0x62#8] ∧
    (compress [0x61#8, 0x61#8, 0x62#8]).length ≤ aab.cap .encDst ∧
    ({ aab with caps := { caps0 with encDst := 6#64 } } : State).cap .encDst <
      (compress [0x61#8, 0x61#8, 0x62#8]).length := by
  unfold Holds; decide

/-- The streams of V-D08, V-D06 and V-D05 in DEC.SRC: a result, an OVERFLOW and an UNDERFILL. -/
def withStream (bs : List Byte) : State :=
  (fresh.setBytes .decSrc 0 bs).updRegs .dec fun g => { g with srcLen := BitVec.ofNat 64 bs.length }

theorem witness_DecJobComputesDecompress :
    let s := withStream [0x01#8, 0#8, 0#8, 0#8, 0x62#8, 0x62#8, 0x01#8]
    s.dec.phase = .idle ∧ s.dec.regs.srcLen = BitVec.ofNat 64 (3 + 4) ∧ 3 + 4 ≤ s.cap .decSrc ∧
    Holds s .decSrc 0 [0x01#8, 0#8, 0#8, 0#8, 0x62#8, 0x62#8, 0x01#8] ∧
    (ofLeBytes 0x01#8 0#8 0#8 0#8).toNat ≤ s.cap .decDst := by
  unfold Holds; decide
theorem witness_DecJobComputesDecompress_results :
    decompress [0x01#8, 0#8, 0#8, 0#8, 0x62#8, 0x62#8, 0x01#8] = .done [0x62#8] ∧
    decompress [0x01#8, 0#8, 0#8, 0#8, 0x61#8, 0x61#8] = .overflow 5 ∧
    decompress [0x03#8, 0#8, 0#8, 0#8, 0x61#8, 0x61#8] = .underfill 6 := by decide

/-- ENC's job on "aab" and a DEC that has been given its output. -/
def aabDone : State := nextOf (movesOf .enc 5 (nextOf (exec (.encStart 1#32) aab)))
def aabStream : State := withStream [0x03#8, 0#8, 0#8, 0#8, 0x61#8, 0x61#8, 0x02#8, 0x62#8]

theorem witness_RoundTripOnTheBlock_runs :
    ∃ t, exec (.encStart 1#32) aab = .next t ∧ movesOf .enc (3 + 2) t = .next aabDone := ⟨_, rfl, rfl⟩
theorem witness_RoundTripOnTheBlock :
    aabStream.dec.phase = .idle ∧ aabStream.dec.regs.srcLen = aabDone.enc.regs.outLen ∧
    (∀ k, k < aabDone.enc.regs.outLen.toNat → aabStream.byteAt .decSrc k = aabDone.byteAt .encDst k) ∧
    aabDone.enc.regs.outLen.toNat ≤ aabStream.cap .decSrc ∧ 3 ≤ aabStream.cap .decDst := by decide

theorem witness_EveryJobEnds : Inv bothBusy ∧ bothBusy.schedule = [] := ⟨bothBusy_inv, by decide⟩

/-- Both engines at work, on an instance within the bound. -/
theorem witness_CountersStayBelowTheBound :
    Inv bothBusy ∧ bothBusy.enc.job.outPos.toNat < 2 ^ 34 ∧ bothBusy.cap .decSrc < 2 ^ 34 ∧
    bothBusy.dec.job.i.toNat < 2 ^ 34 ∧ ∃ t, step bothBusy = .next t :=
  ⟨bothBusy_inv, by decide, by decide, by decide, _, rfl⟩

/-! ### Names of the host's program -/

theorem witness_BusyBufferWritesAreRefused :
    bothBusy.busy (Buffer.engine .decDst) = true ∧ bothBusy.busy (Buffer.engine .encSrc) = true := by decide

/-- A host about to make one line, with the names 1 and 2 bound. -/
def withLine (line : HostLine) : State :=
  { fresh with schedule := [.host], program := [line], names := [(1, .byte 0x13#8), (2, .word 7#32)] }

/-- P5 line 4, `RDB ENC.DST[k] -> h_k`: here at the last index, held by a name. -/
theorem witness_NamedReadBindsItsValue :
    let s := withLine (.named (.rd32 .dec .status 1))
    let s' := withLine (.named (.rdb .decDst (.name 2) 1))
    s.schedule = .host :: [] ∧ s.program = .named (.rd32 .dec .status 1) :: [] ∧
    s'.program = .named (.rdb .decDst (.name 2) 1) :: [] ∧ s'.operand (.name 2) = some 7 ∧ 7 + 1 = s'.cap .decDst := by
  decide

/-- P5 line 5, one WRB of `LOAD DEC.SRC, h_0 ..`, and an unbound name. -/
theorem witness_LaterLinesUseTheBoundNames :
    let s := withLine (.named (.wr32 .dec .srcLenLo (.name 2)))
    let s' := withLine (.named (.wrb .decSrc (.name 2) (.name 1)))
    let s'' := withLine (.named (.wrb .decSrc (.imm 0) (.name 3)))
    s.schedule = .host :: [] ∧ s.operand (.name 2) = some (7#32).toNat ∧
    s'.operand (.name 2) = some (7#64).toNat ∧ s'.operand (.name 1) = some (0x13#8).toNat ∧
    s''.accessOf (.wrb .decSrc (.imm 0) (.name 3)) = none := by decide

theorem witness_NamesKeepTheirValues :
    let s := withLine (.named (.rd32 .enc .srcCapLo 1))
    let s' := withLine (.named (.rdb .decDst (.imm 0) 0))
    let s'' := withLine (.poll .enc .status (.imm 1) (.imm 0))
    s.operand (.name 1) = some 0x13 ∧ look (fun t => t.operand (.name 1)) (step s) = some (some 8) ∧ s.names.wf ∧
    s'.operand (.name 0) = none ∧ look (fun t => (t.operand (.name 0)).isSome) (step s') = some true ∧
    s''.operand (.name pollName) = none ∧ look (fun t => t.operand (.name pollName)) (step s'') = some (some 0) := by
  decide

/-- A check that holds and one that does not, both with their names bound. -/
theorem witness_ExpectHasNoEffectOnTheBlock :
    let equations : List (Operand × Operand) := [(.name 1, .imm 0x13), (.name 2, .imm 7)]
    let s := withLine (.expect equations)
    s.schedule = .host :: [] ∧ s.program = .expect equations :: [] ∧
    (∀ q ∈ equations, s.operand q.1 ≠ none ∧ s.operand q.2 ≠ none) ∧
    (∀ q ∈ equations, s.operand q.1 = s.operand q.2) ∧ s.operand (.name 2) ≠ s.operand (.imm 8) := by decide

/-- V-C16 as a host line: x = 0x13. -/
theorem test_rdb_binds :
    look (fun t => t.operand (.name 5))
      (step { withLine (.named (.rdb .decSrc (.imm 0) 5)) with dec := (fresh.setByte .decSrc 0 0x13#8).dec }) =
      some (some 0x13) := by decide
/-- P5 line 5: the value read is written. -/
theorem test_wrb_of_a_name :
    look (fun t => t.dec.src) (step (withLine (.named (.wrb .decSrc (.imm 0) (.name 1))))) = some [(0, 0x13#8)] := by
  decide
/-- P4 line 2. -/
theorem test_setlen :
    (HostAsm.lines (.setlen .enc (.imm 0x100000000))).map (fun l => match l with
      | .access _ => none
      | .named op => fresh.accessOf op
      | .poll _ _ _ _ => none
      | .expect _ => none
      | .reset => none) = [some (.regWrite 32 0x10#7 0#32), some (.regWrite 32 0x14#7 1#32)] := by decide
/-- `EXPECT x == 0x13 && y == 8` does not hold where y is 7. -/
theorem test_expect :
    look (fun t => (t.checks, t.program))
      (step (withLine (.expect [(.name 1, .imm 0x13), (.name 2, .imm 8)]))) = some ([false], []) := by decide

end Sys2Proof.Tests
end

section
/-! SUPPORT. The state's own statements (10_state.md): the interrupt level, the reset values, and the capacities. -/

namespace Sys2Proof.Machine

/-! ### The interrupt level (10_state.md R29) -/

/-- Settles O12: the line is defined as the level, and bit 3 of STATUS is that level. -/
theorem interruptLineFollowsItsCauses : Obligations.InterruptLineFollowsItsCauses := by
  intro s e
  exact ⟨rfl, statusWord_irq (s.busy e) (s.regs e)⟩

/-! ### The reset values (10_state.md R36) -/

@[simp] theorem Regs.statusWord_reset : Regs.reset.statusWord false = 0#32 := by decide

@[simp] theorem Regs.irqEnWord_reset : Regs.reset.irqEnWord = 0#32 := by decide

@[simp] theorem halfOf_zero (h : Half) : halfOf h 0#64 = 0#32 := by cases h <;> rfl

@[simp] theorem State.regs_resetWith (caps : Capacities) (e : Engine) : (State.resetWith caps).regs e = Regs.reset := by
  cases e <;> rfl

@[simp] theorem State.busy_resetWith (caps : Capacities) (e : Engine) : (State.resetWith caps).busy e = false := by
  cases e <;> rfl

@[simp] theorem State.mem_resetWith (caps : Capacities) (b : Buffer) : (State.resetWith caps).mem b = [] := by
  cases b <;> rfl

@[simp] theorem State.irqLine_resetWith (caps : Capacities) (e : Engine) :
    (State.resetWith caps).irqLine e = false := by
  cases e <;> rfl

/-- No byte has been written, so every byte is the free value of 20_memory.md R39. -/
theorem State.byteAt_resetWith (caps : Capacities) (b : Buffer) (k : Nat) :
    (State.resetWith caps).byteAt b k = Config.freeByte (State.resetWith caps).epoch b k := by
  simp [State.byteAt, Memory.get]

/-- Every register but the capacities resets to 0: it reads nothing, or a field of `Regs.reset`. -/
theorem State.readReg_resetWith (caps : Capacities) (e : Engine) (r : Reg) (hsl : r ≠ .srcCapLo) (hsh : r ≠ .srcCapHi)
    (hdl : r ≠ .dstCapLo) (hdh : r ≠ .dstCapHi) : (State.resetWith caps).readReg e r = 0#32 := by
  cases r with
  | srcCapLo => exact absurd rfl hsl
  | srcCapHi => exact absurd rfl hsh
  | dstCapLo => exact absurd rfl hdl
  | dstCapHi => exact absurd rfl hdh
  | ctrl | reserved0C | reserved3C => rfl
  | status | irqEn => simp [State.readReg]
  | srcLenLo | srcLenHi | outLenLo | outLenHi | errPosLo | errPosHi | hdrLen => simp [State.readReg, Regs.reset]

/-- Settles O37: the registers and bytes by their reset lemmas, the capacity halves by the register map. -/
theorem resetValuesAreTheSpecs : Obligations.ResetValuesAreTheSpecs := by
  intro caps s
  exact ⟨rfl, rfl, State.readReg_resetWith caps, rfl, rfl, rfl, rfl, rfl, rfl, rfl, rfl,
    State.irqLine_resetWith caps .enc, State.irqLine_resetWith caps .dec, rfl, rfl, State.byteAt_resetWith caps⟩

/-! ### The capacities (10_state.md R25) -/

/-- The two halves of a 64-bit register make its value (20_memory.md R42). -/
theorem halfOf_toNat_add (v : Word64) : (halfOf .hi v).toNat * 2 ^ 32 + (halfOf .lo v).toNat = v.toNat := by
  rw [halfOf_hi_toNat, halfOf_lo_toNat, Nat.div_add_mod']

theorem State.srcCap_toNat (s : State) (e : Engine) : (s.srcCap e).toNat = s.cap (srcOf e) := by cases e <;> rfl

theorem State.dstCap_toNat (s : State) (e : Engine) : (s.dstCap e).toNat = s.cap (dstOf e) := by cases e <;> rfl

theorem State.srcCap_congr {s t : State} (h : t.caps = s.caps) (e : Engine) : t.srcCap e = s.srcCap e := by
  cases e <;> simp only [State.srcCap, h]

theorem State.dstCap_congr {s t : State} (h : t.caps = s.caps) (e : Engine) : t.dstCap e = s.dstCap e := by
  cases e <;> simp only [State.dstCap, h]

theorem EncStarted.caps {s t : State} (h : EncStarted s t) : t.caps = s.caps := by cases h <;> rfl

theorem DecStarted.caps {s t : State} (h : DecStarted s t) : t.caps = s.caps := by cases h <;> rfl

theorem HostMove.caps {s t : State} {i : Instr} (h : HostMove s i t) : t.caps = s.caps := by
  cases h with
  | startEnc data t h => exact h.caps
  | startDec data t h => exact h.caps
  | clearEnc | clearDec => rfl
  | irqEn | srcLen => exact State.updRegs_caps _ _ _
  | writeByte => exact State.setByte_caps _ _ _ _
  | read | readByte | nothing => rfl

/-- No event changes the capacities, which are the instance's: not an engine's move, not a host's, not reset. -/
theorem step_caps {s t : State} (h : step s = .next t) : t.caps = s.caps := by
  obtain ⟨u, hu, _, rfl | rfl | ⟨i, _, _, hm⟩ | hm | hm⟩ := step_next h
  · exact hu.caps
  · exact hu.caps
  · exact hm.caps.trans hu.caps
  · obtain ⟨_, hc, _⟩ := hm.others
    exact hc.trans hu.caps
  · obtain ⟨_, hc, _⟩ := hm.others
    exact hc.trans hu.caps

/-- Settles O43: the capacity registers are halves of the capacities, which no step changes. -/
theorem capacitiesNeverChange : Obligations.CapacitiesNeverChange := by
  refine ⟨fun s e => ⟨?src, ?dst⟩, fun s t h => ⟨step_caps h, fun e => ?regs⟩⟩
  case src => exact (halfOf_toNat_add _).trans (s.srcCap_toNat e)
  case dst => exact (halfOf_toNat_add _).trans (s.dstCap_toNat e)
  case regs =>
    have hs : t.srcCap e = s.srcCap e := State.srcCap_congr (step_caps h) e
    have hd : t.dstCap e = s.dstCap e := State.dstCap_congr (step_caps h) e
    simp only [State.readReg, hs, hd, and_self]

end Sys2Proof.Machine
end

section
/-! SUPPORT. The bus accesses' own statements (20_memory.md): which accesses are bus errors and that each is refused. -/

namespace Sys2Proof.Machine

/-! ### Width and alignment (20_memory.md R43) -/

/-- One engine's half of the window has a register at each of its 16 word offsets and nowhere else. -/
theorem Reg.ofOffset_isSome_iff : ∀ off : BitVec 6, (Reg.ofOffset off).isSome ↔ off.toNat % 4 = 0 := by decide

/-- Leaving out the engine bit keeps the alignment. -/
theorem Reg.ofOffset_low_isSome_iff (off : BitVec 7) :
    (Reg.ofOffset (off.extractLsb' 0 6)).isSome ↔ off.toNat % 4 = 0 := by
  have hlow : (off.extractLsb' 0 6).toNat = off.toNat % 64 := by simp
  rw [Reg.ofOffset_isSome_iff, hlow]
  omega

theorem decodeRegister_ok_iff (width : Nat) (off : BitVec 7) :
    (∃ r, decodeRegister width off = .ok r) ↔ (width = 32 ∧ off.toNat % 4 = 0) := by
  rw [← Reg.ofOffset_low_isSome_iff]
  unfold decodeRegister
  by_cases hw : width = 32
  · cases Reg.ofOffset (off.extractLsb' 0 6) <;> simp [hw]
  · simp [hw]

/-- A register read decodes exactly when its register does. -/
theorem decodeBus_regRead_ok_iff (width : Nat) (off : BitVec 7) :
    (∃ i, decodeBus (.regRead width off) = .ok i) ↔ ∃ r, decodeRegister width off = .ok r := by
  simp only [decodeBus]
  cases decodeRegister width off <;> simp

/-- A register write decodes exactly when its register does: every datum is some row's. -/
theorem decodeBus_regWrite_ok_iff (width : Nat) (off : BitVec 7) (data : Word) :
    (∃ i, decodeBus (.regWrite width off data) = .ok i) ↔ ∃ r, decodeRegister width off = .ok r := by
  simp only [decodeBus]
  cases decodeRegister width off <;> simp

/-! ### The refusals (60_exceptions.md R135) -/

theorem fetchHost_access {s : State} {a : BusAccess} {p : List HostLine} (h : s.program = .access a :: p) :
    fetchHost s = fetchAccess a { s with program := p } := by
  unfold fetchHost; rw [h]

theorem fetchAccess_of_error {a : BusAccess} {err : DecodeError} (h : decodeBus a = .error err) (s : State) :
    fetchAccess a s = .ended (.refused (.busError err)) := by
  unfold fetchAccess; rw [h]

theorem step_of_busError {s : State} {a : BusAccess} {err : DecodeError} {p : List HostLine} {rest : List Agent}
    (hd : decodeBus a = .error err) (hp : s.program = .access a :: p) (hs : s.schedule = .host :: rest) :
    step s = .refused (.busError err) := by
  have hp' : ({ s with schedule := rest } : State).program = .access a :: p := hp
  rw [step_host hs, fetchHost_access hp', fetchAccess_of_error hd]

theorem State.memRead_of_le {s : State} {b : Buffer} {k : Nat} (h : s.cap b ≤ k) : s.memRead b k = none :=
  if_neg (Nat.not_lt.mpr h)

theorem State.memWrite_of_le {s : State} {b : Buffer} {k : Nat} (h : s.cap b ≤ k) (v : Byte) :
    s.memWrite b k v = none :=
  if_neg (Nat.not_lt.mpr h)

theorem exec_rdb_of_le {s : State} {b : Buffer} {idx : Word64} (h : s.cap b ≤ idx.toNat) :
    exec (.rdb b idx) s = .refused (.indexBeyondCapacity b idx) := by
  simp only [exec, execRdb, State.memRead_of_le h]

/-- The duty towards a busy engine is looked at before the index (notes/assumptions/10.md). -/
theorem exec_wrb_of_le {s : State} {b : Buffer} {idx : Word64} (h : s.cap b ≤ idx.toNat) (data : Byte) :
    exec (.wrb b idx data) s =
      .refused (if s.busy b.engine then .bufferOfBusyEngine b else .indexBeyondCapacity b idx) := by
  simp only [exec, execWrb, State.memWrite_of_le h]
  split <;> rfl

/-- Settles O3: a register access decodes as its width and offset do, and each refusal is its own lemma's. -/
theorem busErrorsAreRefused : Obligations.BusErrorsAreRefused := by
  refine ⟨fun width off => ?read, fun width off data => ?write, fun b idx data => ⟨rfl, rfl⟩,
    fun s a err p rest => step_of_busError, fun s b idx data h => ⟨exec_rdb_of_le h, _, exec_wrb_of_le h data⟩⟩
  case read => exact (decodeBus_regRead_ok_iff width off).trans (decodeRegister_ok_iff width off)
  case write => exact (decodeBus_regWrite_ok_iff width off data).trans (decodeRegister_ok_iff width off)

end Sys2Proof.Machine
end

section
/-! SUPPORT. The encoding's own statements (30_encoding.md): the command a CTRL write is, the unit that stands at a
stream index, and that DEC's BODY step runs that unit. -/

namespace Sys2Proof.Machine

/-! ### The commands of CTRL (30_encoding.md R64) -/

theorem getLsbD_and_three (data : Word) (k : Nat) :
    (data &&& 3#32).getLsbD k = (data.getLsbD k && decide (k < 2)) := by
  have three : (3#32).getLsbD k = decide (k < 2) := Nat.testBit_two_pow_sub_one 2 k
  rw [BitVec.getLsbD_and, three]

/-- The mask 3 keeps bits 0 and 1, so a match under it is a match of these two. -/
theorem and_three_eq_iff (data : Word) {v : Word} (hv : v &&& 3#32 = v) :
    data &&& 3#32 = v ↔ data.getLsbD 0 = v.getLsbD 0 ∧ data.getLsbD 1 = v.getLsbD 1 := by
  constructor
  · rintro rfl
    simp
  · rintro ⟨h0, h1⟩
    rw [← hv]
    refine BitVec.eq_of_getLsbD_eq fun k _ => ?_
    rw [getLsbD_and_three, getLsbD_and_three]
    match k with
    | 0 => rw [h0]
    | 1 => rw [h1]
    | k + 2 => simp

theorem startData_iff_match (data : Word) : startData data = true ↔ data &&& 1#32 = 1#32 := by
  rw [BitVec.and_one_eq_setWidth_ofBool_getLsbD, startData]
  cases data.getLsbD 0 <;> decide

theorem clrData_iff_match (data : Word) : clrData data = true ↔ data &&& 3#32 = 2#32 := by
  rw [and_three_eq_iff data (by decide)]
  simp [clrData]

theorem nopData_iff_match (data : Word) : nopData data = true ↔ data &&& 3#32 = 0#32 := by
  rw [and_three_eq_iff data (by decide)]
  simp [nopData]

theorem decodeCommand_of_startData {data : Word} (h : startData data = true) :
    decodeCommand .enc data = .encStart data ∧ decodeCommand .dec data = .decStart data := by
  simp only [startData] at h
  simp only [decodeCommand, h, and_self]

theorem decodeCommand_of_clrData {data : Word} (h : clrData data = true) :
    decodeCommand .enc data = .encClr data ∧ decodeCommand .dec data = .decClr data := by
  simp only [clrData, Bool.and_eq_true, Bool.not_eq_true'] at h
  simp only [decodeCommand, h, and_self]

theorem decodeCommand_of_nopData {data : Word} (h : nopData data = true) :
    decodeCommand .enc data = .encNop data ∧ decodeCommand .dec data = .decNop data := by
  simp only [nopData, Bool.and_eq_true, Bool.not_eq_true'] at h
  simp only [decodeCommand, h, and_self]

/-- Settles O4: a CTRL write decodes to its command, and each row's match is its check on the two bits. -/
theorem ctrlCommandIsSelectedByTwoBits : Obligations.CtrlCommandIsSelectedByTwoBits := by
  intro data
  have ctrl {i j : Instr} (h : decodeCommand .enc data = i ∧ decodeCommand .dec data = j) :
      decodeBus (.regWrite 32 0x00#7 data) = .ok i ∧ decodeBus (.regWrite 32 0x40#7 data) = .ok j := by
    obtain ⟨rfl, rfl⟩ := h
    exact ⟨decodeBus_regWrite .enc .ctrl data, decodeBus_regWrite .dec .ctrl data⟩
  exact ⟨fun h => ctrl (decodeCommand_of_startData ((startData_iff_match data).mpr h)),
    fun h => ctrl (decodeCommand_of_clrData ((clrData_iff_match data).mpr h)),
    fun h => ctrl (decodeCommand_of_nopData ((nopData_iff_match data).mpr h))⟩

/-! ### The unit at a stream index (30_encoding.md R59) -/

theorem decodeUnit_equal_pair (c k : Byte) (rest : List Byte) :
    decodeUnit (c :: c :: k :: rest) = .ok (.esc c k, rest) :=
  if_pos rfl

theorem decodeUnit_of_ne {c d : Byte} (h : d ≠ c) (rest : List Byte) :
    decodeUnit (c :: d :: rest) = .ok (.lit c, d :: rest) := by
  cases rest with
  | nil => rfl
  | cons k rest => exact if_neg h

/-- With fewer than two bytes after it, a byte is a LIT even if the next one is equal. -/
theorem decodeUnit_of_length_le_one (c : Byte) {rest : List Byte} (h : rest.length ≤ 1) :
    decodeUnit (c :: rest) = .ok (.lit c, rest) := by
  match rest with
  | [] => rfl
  | [_] => rfl
  | _ :: _ :: _ => simp at h

theorem drop_eq_getD_cons {stream : List Byte} {i : Nat} (h : i < stream.length) :
    stream.drop i = stream.getD i 0#8 :: stream.drop (i + 1) := by
  rw [List.getD_eq_getElem _ _ h, List.drop_eq_getElem_cons h]

/-- Settles O5: the stream is taken apart as far as the unit at `i` looks, and each form of a unit is its lemma's. -/
theorem unitKindByTheNextByte : Obligations.UnitKindByTheNextByte := by
  intro stream i hi
  rw [drop_eq_getD_cons hi]
  refine ⟨fun ⟨h2, he⟩ => ?esc, fun h => ?lit⟩
  case esc =>
    have h1 : i + 1 < stream.length := by omega
    rw [drop_eq_getD_cons h1, drop_eq_getD_cons h2, he, decodeUnit_equal_pair]
  case lit =>
    by_cases h2 : i + 2 < stream.length
    · have h1 : i + 1 < stream.length := by omega
      have hne : stream.getD (i + 1) 0#8 ≠ stream.getD i 0#8 := fun he => h ⟨h2, he⟩
      rw [drop_eq_getD_cons h1, decodeUnit_of_ne hne]
    · refine decodeUnit_of_length_le_one _ ?_
      rw [List.length_drop]
      omega

/-! ### DEC's BODY step (42_decoder.md R102) -/

/-- A state whose next move is listed is the state after taking the listing off, with it put back. -/
theorem State.with_schedule_eq {s : State} {a : Agent} {rest : List Agent} (h : s.schedule = a :: rest) :
    { { s with schedule := rest } with schedule := a :: rest } = s := by
  rw [← h]

/-- A listed move of DEC in phase BODY runs the unit at `i`, as the instruction it is. -/
theorem step_body_runs_unit {s : State} {rest : List Agent} (hs : s.schedule = .dec :: rest)
    (hp : s.dec.phase = .body) (hi : s.dec.job.i.toNat < s.dec.job.len.toNat)
    (hL : s.dec.job.len.toNat ≤ s.cap .decSrc) :
    step s =
      if s.dec.job.i.toNat + 2 < s.dec.job.len.toNat ∧
          s.byteAt .decSrc (s.dec.job.i.toNat + 1) = s.byteAt .decSrc s.dec.job.i.toNat then
        exec (.esc (s.byteAt .decSrc s.dec.job.i.toNat) (s.byteAt .decSrc (s.dec.job.i.toNat + 2)))
          { s with schedule := rest }
      else exec (.lit (s.byteAt .decSrc s.dec.job.i.toNat)) { s with schedule := rest } := by
  have listed : step { { s with schedule := rest } with schedule := .dec :: rest } = step s :=
    congrArg step (State.with_schedule_eq hs)
  exact listed.symm.trans (step_dec_body (s := { s with schedule := rest }) hp hi hL)

/-- Settles O29: the two cases of the unit at `i`. -/
theorem bodyStepRunsTheFetchedUnit : Obligations.BodyStepRunsTheFetchedUnit := by
  intro s rest hs hp hi hL i
  have hstep := step_body_runs_unit hs hp hi hL
  exact ⟨fun h => hstep.trans (if_pos h), fun h => hstep.trans (if_neg h)⟩

end Sys2Proof.Machine
end

section
/-! SUPPORT. The host operations' own statements (40_control.md): CTRL's CLR and NOP, the register writes, and the
byte accesses. -/

namespace Sys2Proof.Machine

/-! ### IRQ_EN (40_control.md R74) -/

theorem State.irqLine_updRegs (s : State) (e : Engine) (g : Regs → Regs) :
    (s.updRegs e g).irqLine e = (g (s.regs e)).irqLevel := by
  rw [State.irqLine, State.regs_updRegs]

/-- The register reads the two enables it was given, in place. -/
theorem Regs.irqEnWord_writeIrqEn (data : Word) (r : Regs) : (r.writeIrqEn data).irqEnWord = data &&& 3#32 := by
  refine BitVec.eq_of_getLsbD_eq fun k _ => ?_
  rw [irqEnWord_getLsbD, bitField_getLsbD, bitField_getLsbD, getLsbD_and_three]
  match k with
  | 0 => simp [Regs.writeIrqEn]
  | 1 => simp [Regs.writeIrqEn]
  | k + 2 => simp

theorem State.readReg_irqEn_writeIrqEn (s : State) (e : Engine) (data : Word) :
    (s.writeIrqEn e data).readReg e .irqEn = data &&& 3#32 := by
  rw [State.readReg, State.writeIrqEn, State.regs_updRegs, Regs.irqEnWord_writeIrqEn]

/-- Settles O19: the write is its update of the registers, the read and the line are looked up in these. -/
theorem irqEnableWriteTakesEffectAtOnce : Obligations.IrqEnableWriteTakesEffectAtOnce := by
  refine ⟨fun data => ⟨decodeBus_regWrite .enc .irqEn data, decodeBus_regWrite .dec .irqEn data⟩,
    fun s e data => ⟨s.writeIrqEn e data, rfl, rfl, s.readReg_irqEn_writeIrqEn e data, ?line⟩⟩
  case line => exact s.irqLine_updRegs e (Regs.writeIrqEn data)

/-! ### SRC_LEN (40_control.md R75) -/

theorem State.updRegs_updRegs (s : State) (e : Engine) (f g : Regs → Regs) :
    (s.updRegs e f).updRegs e g = s.updRegs e fun r => g (f r) := by
  cases e <;> rfl

theorem halfOf_lo_withHalf_lo (v : Word64) (d : Word) : halfOf .lo (withHalf .lo v d) = d :=
  BitVec.extractLsb'_append_eq_right

/-- A number's low half and then its high half leave nothing of the value before. -/
theorem withHalf_hi_withHalf_lo (v n : Word64) :
    withHalf .hi (withHalf .lo v (halfOf .lo n)) (halfOf .hi n) = n := by
  refine BitVec.eq_of_toNat_eq ?_
  rw [withHalf_hi, ← halfOf_lo_toNat, halfOf_lo_withHalf_lo, halfOf_toNat_add, BitVec.toNat_ofNat,
    Nat.mod_eq_of_lt n.isLt]

theorem State.writeSrcLen_lo_then_hi (s : State) (e : Engine) (n : Word64) :
    (s.writeSrcLen e .lo (halfOf .lo n)).writeSrcLen e .hi (halfOf .hi n) =
      s.updRegs e fun g => { g with srcLen := n } := by
  simp only [State.writeSrcLen, State.updRegs_updRegs, withHalf_hi_withHalf_lo]

theorem exec_srcLenWr_lo (s : State) (e : Engine) (data : Word) :
    exec (.srcLenWr e .lo data) s = .next (s.updRegs e fun g =>
      { g with srcLen := BitVec.ofNat 64 (g.srcLen.toNat / 2 ^ 32 * 2 ^ 32 + data.toNat) }) := by
  simp only [exec, execSrcLenWr, State.writeSrcLen, withHalf_lo]

theorem exec_srcLenWr_hi (s : State) (e : Engine) (data : Word) :
    exec (.srcLenWr e .hi data) s = .next (s.updRegs e fun g =>
      { g with srcLen := BitVec.ofNat 64 (data.toNat * 2 ^ 32 + g.srcLen.toNat % 2 ^ 32) }) := by
  simp only [exec, execSrcLenWr, State.writeSrcLen, withHalf_hi]

/-- Settles O20: each write as the number it makes, and the two halves of a number in turn. -/
theorem sourceLengthIsWrittenByHalves : Obligations.SourceLengthIsWrittenByHalves := by
  refine ⟨fun data => ⟨decodeBus_regWrite .enc .srcLenLo data, decodeBus_regWrite .enc .srcLenHi data,
    decodeBus_regWrite .dec .srcLenLo data, decodeBus_regWrite .dec .srcLenHi data⟩,
    fun s e data => ⟨exec_srcLenWr_lo s e data, exec_srcLenWr_hi s e data⟩,
    fun s e n => ⟨s.writeSrcLen e .lo (halfOf .lo n), rfl, ?pair⟩⟩
  case pair => exact congrArg Host.Outcome.next (s.writeSrcLen_lo_then_hi e n)

/-! ### WRB (40_control.md R78) -/

theorem State.memWrite_of_lt {s : State} {b : Buffer} {k : Nat} (h : k < s.cap b) (v : Byte) :
    s.memWrite b k v = some (s.setByte b k v) :=
  if_pos h

theorem exec_wrb_of_lt {s : State} {b : Buffer} {idx : Word64} (hb : s.busy b.engine = false)
    (h : idx.toNat < s.cap b) (data : Byte) :
    exec (.wrb b idx data) s = .next (s.setByte b idx.toNat data) := by
  simp [exec, execWrb, hb, State.memWrite_of_lt h]

theorem State.byteAt_setByte_self (s : State) (b : Buffer) (k : Nat) (v : Byte) :
    (s.setByte b k v).byteAt b k = v := by
  rw [State.byteAt_setByte, if_pos ⟨rfl, rfl⟩]

/-- One byte is written as a sequence of one. -/
theorem State.sameBytesBut_setByte (s : State) (b : Buffer) (k : Nat) (v : Byte) :
    SameBytesBut b k 1 s (s.setByte b k v) :=
  s.sameBytesBut_setBytes b k [v]

/-- A byte write is a change of that buffer's bytes and of nothing else. -/
theorem State.setByte_eq_setMem (s : State) (b : Buffer) (k : Nat) (v : Byte) :
    s.setByte b k v = s.setMem b ((s.setByte b k v).mem b) := by
  rw [State.setByte, State.mem_setMem_self]

/-- Settles O23: below the capacity the write is that of one byte, above it the refusal is the index's. -/
theorem writeByteChangesOneByte : Obligations.WriteByteChangesOneByte := by
  refine fun s b idx data => ⟨fun hb h => ?below, rfl, fun hb h => ?above⟩
  case below =>
    exact ⟨s.setByte b idx.toNat data, exec_wrb_of_lt hb h data, s.byteAt_setByte_self b idx.toNat data,
      s.sameBytesBut_setByte b idx.toNat data, s.setByte_eq_setMem b idx.toNat data⟩
  case above => simp [exec_wrb_of_le h, hb]

/-! ### CLR and NOP (40_control.md R72, R73) -/

theorem State.acknowledge_of_idle {s : State} {e : Engine} (h : s.busy e = false) :
    s.acknowledge e = s.updRegs e Regs.clearStatus := by
  simp [State.acknowledge, h]

theorem State.acknowledge_of_busy {s : State} {e : Engine} (h : s.busy e = true) : s.acknowledge e = s :=
  if_pos h

theorem State.busy_enc_of_idle {s : State} (h : s.enc.phase = .idle) : s.busy .enc = false :=
  congrArg EncPhase.busy h

theorem State.busy_dec_of_idle {s : State} (h : s.dec.phase = .idle) : s.busy .dec = false :=
  congrArg DecPhase.busy h

@[simp] theorem Regs.irqLevel_clearStatus (r : Regs) : r.clearStatus.irqLevel = false := rfl

/-- With DONE and ERR clear nothing holds the line, whatever is enabled. -/
theorem State.irqLine_acknowledge_of_idle {s : State} {e : Engine} (h : s.busy e = false) :
    (s.acknowledge e).irqLine e = false := by
  rw [State.acknowledge_of_idle h, State.irqLine_updRegs, Regs.irqLevel_clearStatus]

/-- CLR on an idle engine: the next state it answers, and the line in it. -/
theorem State.next_acknowledge_of_idle {s : State} {e : Engine} (h : s.busy e = false) :
    (.next (s.acknowledge e) : Host.Outcome State Fault Refusal) = .next (s.updRegs e Regs.clearStatus) ∧
    ∀ t, (.next (s.acknowledge e) : Host.Outcome State Fault Refusal) = .next t → t.irqLine e = false := by
  refine ⟨congrArg Host.Outcome.next (State.acknowledge_of_idle h), fun t ht => ?_⟩
  cases ht
  exact State.irqLine_acknowledge_of_idle h

theorem exec_encClr (data : Word) (s : State) : exec (.encClr data) s = .next (s.acknowledge .enc) := rfl

theorem exec_decClr (data : Word) (s : State) : exec (.decClr data) s = .next (s.acknowledge .dec) := rfl

/-- Settles O17: CLR is the acknowledgement, idle and busy, and O4 says which CTRL write it is. -/
theorem clearDropsTheStatusOnly : Obligations.ClearDropsTheStatusOnly := by
  intro s data
  refine ⟨fun h => ?enc, fun h => ?dec, fun h => ?encBusy, fun h => ?decBusy, fun h => ?decode⟩
  case enc => exact State.next_acknowledge_of_idle (State.busy_enc_of_idle h)
  case dec => exact State.next_acknowledge_of_idle (State.busy_dec_of_idle h)
  case encBusy => rw [exec_encClr, State.acknowledge_of_busy h]
  case decBusy => rw [exec_decClr, State.acknowledge_of_busy h]
  case decode =>
    obtain ⟨_, clr, _⟩ := ctrlCommandIsSelectedByTwoBits data
    exact clr h

/-- Settles O18: NOP answers its state, and O4 says which CTRL write it is. -/
theorem nopChangesNothing : Obligations.NopChangesNothing := by
  intro s data
  obtain ⟨_, _, nop⟩ := ctrlCommandIsSelectedByTwoBits data
  exact ⟨rfl, rfl, nop⟩

/-! ### Registers that are not written (40_control.md R76) -/

/-- The rows left to a read-only register or a reserved offset are RO.WR. -/
theorem decodeWrite_of_readOnly (e : Engine) {r : Reg} (data : Word) (h : r.readOnly = true) :
    decodeWrite e r data = .roWr e r data := by
  cases r with
  | ctrl | irqEn | srcLenLo | srcLenHi => cases h
  | status | reserved0C | outLenLo | outLenHi | errPosLo | errPosHi | srcCapLo | srcCapHi | dstCapLo | dstCapHi
  | hdrLen | reserved3C => rfl

/-- Settles O21: the write's row is RO.WR, which answers its state. -/
theorem readOnlyRegistersIgnoreWrites : Obligations.ReadOnlyRegistersIgnoreWrites := by
  refine fun s e r data h => ⟨?_, rfl⟩
  rw [decodeBus_regWrite, decodeWrite_of_readOnly e data h]

/-! ### RDB (40_control.md R77) -/

theorem exec_rdb_of_lt {s : State} {b : Buffer} {idx : Word64} (h : idx.toNat < s.cap b) :
    exec (.rdb b idx) s = .next (s.giveHost (.byte (s.byteAt b idx.toNat))) := by
  simp only [exec, execRdb, State.memRead_of_lt h]

/-- Settles O22: the read below the capacity, and the refusal from it on. -/
theorem readByteReturnsTheByte : Obligations.ReadByteReturnsTheByte :=
  fun _ _ _ => ⟨rfl, exec_rdb_of_lt, exec_rdb_of_le⟩

end Sys2Proof.Machine
end

section
/-! SUPPORT. The size of the closed form (41_encoder.md R92, R93): the bytes of a run, the lengths of the maximal runs
together, and the bound with the inputs that reach it. -/

namespace Sys2Proof.Machine

/-! ### The runs of an input -/

/-- A byte in front of an input is in its first maximal run, whatever follows. -/
theorem maximalRuns_cons (c : Byte) (rest : List Byte) : ∃ r more, maximalRuns (c :: rest) = (c, r + 1) :: more := by
  rw [maximalRuns]
  split
  · split
    · subst c; exact ⟨_, _, rfl⟩
    · exact ⟨0, _, rfl⟩
  · exact ⟨0, [], rfl⟩

theorem maximalRuns_cons_self {c : Byte} {bs : List Byte} {r : Nat} {more : List (Byte × Nat)}
    (h : maximalRuns bs = (c, r) :: more) : maximalRuns (c :: bs) = (c, r + 1) :: more := by
  rw [maximalRuns, h]
  exact if_pos rfl

theorem maximalRuns_cons_of_ne {c d : Byte} (h : c ≠ d) (rest : List Byte) :
    maximalRuns (c :: d :: rest) = (c, 1) :: maximalRuns (d :: rest) := by
  obtain ⟨r, more, hd⟩ := maximalRuns_cons d rest
  rw [maximalRuns, hd]
  exact if_neg h

/-- The maximal runs hold every byte of the input once. -/
theorem sum_maximalRuns (bs : List Byte) : ((maximalRuns bs).map Prod.snd).sum = bs.length := by
  induction bs with
  | nil => rfl
  | cons c rest ih =>
    match rest with
    | [] => rfl
    | d :: rest =>
      by_cases hcd : c = d
      · subst hcd
        obtain ⟨r, more, hd⟩ := maximalRuns_cons c rest
        rw [maximalRuns_cons_self hd]
        simp only [hd, List.map_cons, List.sum_cons, List.length_cons] at ih ⊢
        omega
      · rw [maximalRuns_cons_of_ne hcd, List.map_cons, List.sum_cons, ih, List.length_cons (a := c), Nat.add_comm]

/-! ### The bytes of a run -/

/-- The bytes a maximal run of length `r` takes (41_encoder.md R93). -/
def runSize (r : Nat) : Nat := 3 * (r / 255) + restSize (r % 255)

theorem runBytes_length (c : Byte) (r : Nat) : (runBytes c r).length = runSize r := by
  have rest : (runUnit c (r % 255)).length = restSize (r % 255) := by
    match r % 255 with
    | 0 | 1 | _ + 2 => rfl
  simp [runBytes, runSize, rest, Nat.mul_comm]

theorem leBytes_length (n : Word) : (leBytes n).length = 4 := rfl

theorem compressBody_length (bs : List Byte) :
    (compressBody bs).length = ((maximalRuns bs).map fun p => runSize p.2).sum := by
  rw [compressBody, List.length_flatten, List.map_map]
  exact congrArg List.sum (List.map_congr_left fun p _ => runBytes_length p.1 p.2)

theorem compress_length (bs : List Byte) :
    (compress bs).length = 4 + ((maximalRuns bs).map fun p => runSize p.2).sum := by
  rw [compress, List.length_append, leBytes_length, compressBody_length]

/-! ### The bound -/

theorem two_mul_restSize_le (r : Nat) : 2 * restSize r ≤ 3 * r := by
  match r with
  | 0 | 1 => decide
  | r + 2 => rw [restSize]; omega

/-- No run takes more than three bytes for two copies. -/
theorem two_mul_runSize_le (r : Nat) : 2 * runSize r ≤ 3 * r := by
  have rest := two_mul_restSize_le (r % 255)
  rw [runSize]
  omega

theorem two_mul_sum_runSize_le (runs : List (Byte × Nat)) :
    2 * (runs.map fun p => runSize p.2).sum ≤ 3 * (runs.map Prod.snd).sum := by
  induction runs with
  | nil => decide
  | cons p runs ih =>
    have head := two_mul_runSize_le p.2
    simp only [List.map_cons, List.sum_cons]
    omega

/-- Of runs of length 1 and 2, each one of length 1 stays one half byte below the bound. -/
theorem two_mul_sum_runSize_of_short {runs : List (Byte × Nat)} (h : ∀ p ∈ runs, p.2 = 1 ∨ p.2 = 2) :
    2 * (runs.map fun p => runSize p.2).sum + (runs.filter fun p => p.2 = 1).length =
      3 * (runs.map Prod.snd).sum := by
  induction runs with
  | nil => rfl
  | cons p runs ih =>
    have rest := ih fun q hq => h q (List.mem_cons_of_mem p hq)
    simp only [List.map_cons, List.sum_cons]
    rcases h p List.mem_cons_self with hp | hp
    · have size : runSize 1 = 1 := rfl
      rw [List.filter_cons_of_pos (by simp [hp]), List.length_cons, hp, size]
      omega
    · have size : runSize 2 = 3 := rfl
      rw [List.filter_cons_of_neg (by simp [hp]), hp, size]
      omega

theorem compress_length_le (bs : List Byte) : (compress bs).length ≤ 4 + 3 * bs.length / 2 := by
  have bound := two_mul_sum_runSize_le (maximalRuns bs)
  rw [sum_maximalRuns] at bound
  rw [compress_length]
  omega

/-- Settles O10: the size of each run, twice it against three times the run's length, and the sum over the runs. -/
theorem compressedSizeIsBounded : Obligations.CompressedSizeIsBounded := by
  refine ⟨fun b => ⟨compress_length b, compress_length_le b⟩, fun b runs ones => ?reached, fun b hb => ?number⟩
  case reached =>
    have sum := two_mul_sum_runSize_of_short runs
    rw [sum_maximalRuns] at sum
    rw [compress_length]
    omega
  case number =>
    have bound := compress_length_le b
    omega

end Sys2Proof.Machine
end

section
/-! SUPPORT. ENC's own statements (41_encoder.md R79 to R91): the checks of START, and the steps HEADER, SCAN and
TAIL. -/

namespace Sys2Proof.Machine

/-! ### START (41_encoder.md R79, R80) -/

theorem exec_encStart (data : Word) (s : State) : exec (.encStart data) s = .next (startEnc s) := rfl

/-- The state in which START leaves a job that begins (41_encoder.md R79). -/
def encBegun (s : State) : State := { encLatched s with enc := { (encLatched s).enc with phase := .header } }

/-- START on an idle ENC makes its checks on the latched length, in order. -/
theorem startEnc_of_idle {s : State} (h : s.enc.phase = .idle) :
    startEnc s =
      if 2 ^ 32 ≤ s.enc.regs.srcLen.toNat then (encLatched s).raiseFault .enc .inputTooLarge .none 0#64
      else if s.cap .encSrc < s.enc.regs.srcLen.toNat then (encLatched s).raiseFault .enc .bufferBounds .none 0#64
      else encBegun s := by
  have started := startEnc_cases s
  generalize startEnc s = t at started
  cases started with
  | ignored hp => exact absurd h hp
  | tooLarge _ hn => rw [if_pos hn]
  | beyond _ hn hc => rw [if_neg (by omega), if_pos hc]
  | begun _ hn hc => rw [if_neg (by omega), if_neg (by omega)]; rfl

/-- A length that fits begins the job. -/
theorem exec_encStart_of_le {s : State} (h : s.enc.phase = .idle) (hn : s.enc.regs.srcLen.toNat < 2 ^ 32)
    (hc : s.enc.regs.srcLen.toNat ≤ s.cap .encSrc) (data : Word) :
    exec (.encStart data) s = .next (encBegun s) := by
  rw [exec_encStart, startEnc_of_idle h, if_neg (by omega), if_neg (by omega)]

/-- Settles O14: the three answers of the checks. -/
theorem encStartChecksTheLength : Obligations.EncStartChecksTheLength := by
  refine fun s data h => ⟨fun hn hc => ?begins, fun hn => ?tooLarge, fun hn hc => ?beyond⟩
  case begins => exact exec_encStart_of_le h hn hc data
  case tooLarge => rw [exec_encStart, startEnc_of_idle h, if_pos hn]; rfl
  case beyond => rw [exec_encStart, startEnc_of_idle h, if_neg (by omega), if_pos hc]; rfl

/-! ### A step of ENC, by its phase -/

/-- A listed move of ENC is one encoder step from the state with that move taken off the listing. -/
theorem step_of_enc_listed {s : State} {rest : List Agent} (h : s.schedule = .enc :: rest) :
    step s = encStep { s with schedule := rest } := by
  have listed : step { { s with schedule := rest } with schedule := .enc :: rest } = step s :=
    congrArg step (State.with_schedule_eq h)
  exact listed.symm.trans (step_enc { s with schedule := rest })

theorem encStep_header {s : State} (hp : s.enc.phase = .header) :
    encStep s = .next (if 4 ≤ s.cap .encDst then encHeaderDone s
      else s.raiseFault .enc .allocationFailure .none 0#64) := by
  rw [encStep, hp]
  exact encHeader_cases s

/-- With room for what has been emitted, an empty run is flushed as nothing, so a flush fits or its unit is too long. -/
theorem encRun_fits {s : State} {pos : Word64} (ho : s.enc.job.outPos.toNat ≤ s.cap .encDst)
    (h : pos.toNat = s.enc.job.runStart.toNat ∨ s.enc.job.outPos.toNat + (encRun s pos).length ≤ s.cap .encDst) :
    s.enc.job.outPos.toNat + (encRun s pos).length ≤ s.cap .encDst := by
  rcases h with h | h
  · simpa [encRun, h, runUnit] using ho
  · exact h

/-- The state after a SCAN step has flushed the run before `i` and started the next one with the byte there. -/
def encFlushed (s : State) : State :=
  encAdvance (encRestart (s.byteAt .encSrc s.enc.job.i.toNat) (encEmitted (encRun s s.enc.job.i) s))

/-- A SCAN step extends the run, or flushes it and starts the next one, or faults (41_encoder.md R85). -/
theorem encStep_scan {s : State} (hp : s.enc.phase = .scan) (hi : s.enc.job.i.toNat < s.cap .encSrc)
    (hr : s.enc.job.runStart.toNat ≤ s.enc.job.i.toNat) (ho : s.enc.job.outPos.toNat ≤ s.cap .encDst) :
    encStep s = .next (
      if s.byteAt .encSrc s.enc.job.i.toNat = s.enc.job.runChar ∧
          s.enc.job.i.toNat - s.enc.job.runStart.toNat ≠ 255 then encAdvance s
      else if s.enc.job.outPos.toNat + (encRun s s.enc.job.i).length ≤ s.cap .encDst then encFlushed s
      else s.raiseFault .enc .allocationFailure .none s.enc.job.i) := by
  rcases encStep_cases s with ⟨t, ht, hm⟩ | ⟨_, _, hcap⟩ | ⟨_, ⟨_, hlt⟩ | ⟨htail, _⟩⟩
  · rw [ht]
    cases hm with
    | extend _ _ _ hc hl => rw [if_pos ⟨hc, hl⟩]
    | flush _ _ _ hc hf => rw [if_neg (by tauto), if_pos (encRun_fits ho hf)]; rfl
    | scanFault _ _ _ hc hf => rw [if_neg (by tauto), if_neg (by omega)]
    | idle h | headerFault h | header h | complete h | tailFault h => rw [hp] at h; cases h
  · omega
  · omega
  · rw [hp] at htail; cases htail

/-- The state after a TAIL step has flushed the last run and completed. -/
def encFinished (s : State) : State := encComplete (encEmitted (encRun s s.enc.job.n) s)

/-- A TAIL step flushes the last run and completes, or faults (41_encoder.md R90). -/
theorem encStep_tail {s : State} (hp : s.enc.phase = .tail)
    (hr : s.enc.job.runStart.toNat ≤ s.enc.job.n.toNat) (ho : s.enc.job.outPos.toNat ≤ s.cap .encDst) :
    encStep s = .next (
      if s.enc.job.outPos.toNat + (encRun s s.enc.job.n).length ≤ s.cap .encDst then encFinished s
      else s.raiseFault .enc .allocationFailure .none s.enc.job.n) := by
  rcases encStep_cases s with ⟨t, ht, hm⟩ | ⟨_, hscan, _⟩ | ⟨_, ⟨hscan, _⟩ | ⟨_, hlt⟩⟩
  · rw [ht]
    cases hm with
    | complete _ _ hf => rw [if_pos (encRun_fits ho hf)]; rfl
    | tailFault _ _ hf => rw [if_neg (by omega)]
    | idle h | headerFault h | header h | extend h | flush h | scanFault h => rw [hp] at h; cases h
  · rw [hp] at hscan; cases hscan
  · rw [hp] at hscan; cases hscan
  · omega

/-! ### The bytes a step of ENC writes -/

/-- What holds of the bytes after a write holds of every state with these bytes. -/
theorem holds_of_byteAt_setBytes {s t : State} {b : Buffer} {k : Nat} {vs : List Byte}
    (h : ∀ c j, t.byteAt c j = (s.setBytes b k vs).byteAt c j) :
    Holds t b k vs ∧ SameBytesBut b k vs.length s t :=
  ⟨fun j hj => (h b (k + j)).trans (s.holds_setBytes b k vs j hj),
    fun c j hj => (h c j).trans (s.sameBytesBut_setBytes b k vs c j hj)⟩

theorem encHeaderDone_byteAt (s : State) (b : Buffer) (k : Nat) :
    (encHeaderDone s).byteAt b k =
      (s.setBytes .encDst 0 (leBytes (s.enc.job.n.extractLsb' 0 32))).byteAt b k :=
  State.byteAt_congr (by cases b <;> rfl) rfl k

theorem encAdvance_byteAt (s : State) (b : Buffer) (k : Nat) : (encAdvance s).byteAt b k = s.byteAt b k :=
  State.byteAt_congr (by cases b <;> rfl) rfl k

theorem encRestart_byteAt (c : Byte) (s : State) (b : Buffer) (k : Nat) : (encRestart c s).byteAt b k = s.byteAt b k :=
  State.byteAt_congr (by cases b <;> rfl) rfl k

theorem encComplete_byteAt (s : State) (b : Buffer) (k : Nat) : (encComplete s).byteAt b k = s.byteAt b k :=
  State.byteAt_congr (by cases b <;> rfl) rfl k

/-! ### HEADER (41_encoder.md R82) -/

/-- The header's bytes are the low ones of the 64-bit length. -/
theorem leBytes_low_half (n : Word64) :
    leBytes (n.extractLsb' 0 32) =
      [n.extractLsb' 0 8, n.extractLsb' 8 8, n.extractLsb' 16 8, n.extractLsb' 24 8] := by
  simp only [leBytes, ← BitVec.setWidth_eq_extractLsb' (x := n) (w := 32) (by decide),
    BitVec.extractLsb'_setWidth_of_le, Nat.reduceAdd, Nat.reduceLeDiff]

/-- The whole next state of a HEADER step that fits, but for the bytes it writes. -/
theorem encHeaderDone_eq (s : State) :
    encHeaderDone s = { s with enc := { s.enc with
      phase := if s.enc.job.n = 0#64 then .tail else .scan,
      regs := { s.enc.regs with hdrLen := s.enc.job.n.setWidth 32 },
      job := { s.enc.job with outPos := 4#64 },
      dst := (encHeaderDone s).enc.dst } } := by
  have empty : s.enc.job.n.toNat = 0 ↔ s.enc.job.n = 0#64 := (BitVec.toNat_eq (y := 0#64)).symm
  simp only [encHeaderDone, empty, BitVec.setWidth_eq_extractLsb' (x := s.enc.job.n) (w := 32) (by decide)]
  rfl

/-- Settles O31: the two cases of the header, with the bytes of the one that fits. -/
theorem encHeaderStepWritesTheLength : Obligations.EncHeaderStepWritesTheLength := by
  intro s rest hs hp n
  have next := (step_of_enc_listed hs).trans (encStep_header (s := { s with schedule := rest }) hp)
  refine ⟨fun h => ?fits, fun h => ?short⟩
  case fits =>
    have bytes := holds_of_byteAt_setBytes (encHeaderDone_byteAt { s with schedule := rest })
    rw [leBytes_low_half] at bytes
    exact ⟨_, next.trans (congrArg _ (if_pos h)), encHeaderDone_eq _, bytes⟩
  case short => exact next.trans (congrArg _ (if_neg (Nat.not_le.mpr h)))

/-! ### SCAN (41_encoder.md R85) -/

/-- The unit of a run as the statements write it out (41_encoder.md R84). -/
theorem runUnit_eq (ch : Byte) (len : Nat) :
    runUnit ch len = if len = 0 then [] else if len = 1 then [ch] else [ch, ch, BitVec.ofNat 8 len] := by
  match len with
  | 0 | 1 | _ + 2 => rfl

/-- The end of a SCAN step in the arithmetic of the counter. -/
theorem encAdvance_eq {s : State} (hp : s.enc.phase = .scan) :
    encAdvance s = { s with enc := { s.enc with
      phase := if s.enc.job.i + 1#64 = s.enc.job.n then .tail else .scan,
      job := { s.enc.job with i := s.enc.job.i + 1#64 } } } := by
  have next : BitVec.ofNat 64 (s.enc.job.i.toNat + 1) = s.enc.job.i + 1#64 := by
    rw [BitVec.ofNat_add, BitVec.ofNat_toNat, BitVec.setWidth_eq]
  simp only [encAdvance, next, hp]

theorem encFlushed_byteAt (s : State) (b : Buffer) (k : Nat) :
    (encFlushed s).byteAt b k = (s.setBytes .encDst s.enc.job.outPos.toNat (encRun s s.enc.job.i)).byteAt b k := by
  rw [encFlushed, encAdvance_byteAt, encRestart_byteAt, encEmitted_byteAt]

/-- The whole next state of a SCAN step that flushes, but for the bytes it writes. -/
theorem encFlushed_eq {s : State} (hp : s.enc.phase = .scan) :
    encFlushed s = { s with enc := { s.enc with
      phase := if s.enc.job.i + 1#64 = s.enc.job.n then .tail else .scan,
      job := { s.enc.job with
        i := s.enc.job.i + 1#64, runStart := s.enc.job.i, runChar := s.byteAt .encSrc s.enc.job.i.toNat,
        outPos := BitVec.ofNat 64 (s.enc.job.outPos.toNat + (encRun s s.enc.job.i).length) },
      dst := (encFlushed s).enc.dst } } :=
  encAdvance_eq (s := encRestart _ (encEmitted (encRun s s.enc.job.i) s)) hp

/-- Settles O32: the three cases of the step, with the bytes of the one that flushes. -/
theorem encScanStepTakesOneByte : Obligations.EncScanStepTakesOneByte := by
  intro s rest hs hp hi hr ho j c length u phase'
  have next := (step_of_enc_listed hs).trans (encStep_scan (s := { s with schedule := rest }) hp hi hr ho)
  have unit : encRun { s with schedule := rest } j.i = u := runUnit_eq _ _
  have flushes (h : c ≠ j.runChar ∨ length = 255) : ¬ (c = j.runChar ∧ length ≠ 255) := by tauto
  refine ⟨fun hc hl => ?run, fun h hf => ?fits, fun h hf => ?short⟩
  case run => exact next.trans (congrArg _ ((if_pos ⟨hc, hl⟩).trans (encAdvance_eq hp)))
  case fits =>
    have bytes := holds_of_byteAt_setBytes (encFlushed_byteAt { s with schedule := rest })
    have whole := encFlushed_eq (s := { s with schedule := rest }) hp
    rw [unit] at next bytes whole
    exact ⟨_, next.trans (congrArg _ ((if_neg (flushes h)).trans (if_pos hf))), whole, bytes⟩
  case short =>
    rw [unit] at next
    exact next.trans (congrArg _ ((if_neg (flushes h)).trans (if_neg (Nat.not_le.mpr hf))))

/-! ### TAIL (41_encoder.md R90, R91) -/

theorem encFinished_byteAt (s : State) (b : Buffer) (k : Nat) :
    (encFinished s).byteAt b k = (s.setBytes .encDst s.enc.job.outPos.toNat (encRun s s.enc.job.n)).byteAt b k := by
  rw [encFinished, encComplete_byteAt, encEmitted_byteAt]

/-- The whole next state of a TAIL step that completes, but for the bytes it writes. -/
theorem encFinished_eq (s : State) :
    encFinished s = { s with enc := { s.enc with
      phase := .idle,
      regs := { s.enc.regs with
        done := true, outLen := BitVec.ofNat 64 (s.enc.job.outPos.toNat + (encRun s s.enc.job.n).length) },
      job := { s.enc.job with
        outPos := BitVec.ofNat 64 (s.enc.job.outPos.toNat + (encRun s s.enc.job.n).length) },
      dst := (encFinished s).enc.dst } } := rfl

/-- Settles O33: the two cases of the step, with the bytes of the one that completes. -/
theorem encTailStepCompletes : Obligations.EncTailStepCompletes := by
  intro s rest hs hp hr ho j length u
  have next := (step_of_enc_listed hs).trans (encStep_tail (s := { s with schedule := rest }) hp hr ho)
  have unit : encRun { s with schedule := rest } j.n = u := runUnit_eq _ _
  refine ⟨fun hf => ?fits, fun hf => ?short⟩
  case fits =>
    have bytes := holds_of_byteAt_setBytes (encFinished_byteAt { s with schedule := rest })
    have whole := encFinished_eq { s with schedule := rest }
    rw [unit] at next bytes whole
    exact ⟨_, next.trans (congrArg _ (if_pos hf)), whole, bytes⟩
  case short =>
    rw [unit] at next
    exact next.trans (congrArg _ (if_neg (Nat.not_le.mpr hf)))

end Sys2Proof.Machine
end

section
/-! SUPPORT. The closed form taken apart at the end of a counted run, as ENC flushes it (41_encoder.md R85, R88,
R92). -/

namespace Sys2Proof.Machine

/-- Copies in front of an input lengthen its first maximal run. -/
theorem maximalRuns_replicate_append {c : Byte} {bs : List Byte} {r : Nat} {more : List (Byte × Nat)}
    (h : maximalRuns bs = (c, r) :: more) (k : Nat) :
    maximalRuns (List.replicate k c ++ bs) = (c, r + k) :: more := by
  induction k with
  | zero => exact h
  | succ k ih => rw [List.replicate_succ, List.cons_append, maximalRuns_cons_self ih, Nat.add_assoc]

theorem compressBody_of_maximalRuns {c : Byte} {bs : List Byte} {r : Nat} {more : List (Byte × Nat)}
    (h : maximalRuns bs = (c, r) :: more) :
    compressBody bs = runBytes c r ++ (more.map fun p => runBytes p.1 p.2).flatten := by
  rw [compressBody, h]
  rfl

/-- A run that ENC counts to its end takes one unit. -/
theorem runBytes_of_le (c : Byte) {r : Nat} (h : r ≤ 255) : runBytes c r = runUnit c r := by
  rcases Nat.lt_or_eq_of_le h with h | rfl
  · rw [runBytes, Nat.div_eq_of_lt h, Nat.mod_eq_of_lt h]
    rfl
  · rfl

theorem runBytes_add_255 (c : Byte) (r : Nat) : runBytes c (r + 255) = runUnit c 255 ++ runBytes c r := by
  rw [runBytes, runBytes, Nat.add_div_right r (by decide), Nat.add_mod_right, List.replicate_succ, List.flatten_cons,
    List.append_assoc]
  rfl

/-- What ENC flushes, when the counted run is followed by another byte or is 255 long, is the front of the closed form
of what it has counted and still has to read. -/
theorem compressBody_flush {c d : Byte} {k : Nat} (hk : k ≤ 255) (h : d ≠ c ∨ k = 255) (rest : List Byte) :
    compressBody (List.replicate k c ++ d :: rest) = runUnit c k ++ compressBody (d :: rest) := by
  by_cases hdc : d = c
  · obtain rfl : k = 255 := h.resolve_left (not_not_intro hdc)
    subst hdc
    obtain ⟨r, more, hd⟩ := maximalRuns_cons d rest
    rw [compressBody_of_maximalRuns (maximalRuns_replicate_append hd 255), compressBody_of_maximalRuns hd,
      runBytes_add_255, List.append_assoc]
  · match k with
    | 0 => rfl
    | k + 1 =>
      have runs := maximalRuns_replicate_append (maximalRuns_cons_of_ne (Ne.symm hdc) rest) k
      rw [List.replicate_succ', List.append_assoc, List.singleton_append, compressBody_of_maximalRuns runs,
        Nat.add_comm 1 k, runBytes_of_le c hk]
      rfl

/-- The last counted run is the closed form of itself. -/
theorem compressBody_replicate (c : Byte) {k : Nat} (hk : k ≤ 255) :
    compressBody (List.replicate k c) = runUnit c k := by
  match k with
  | 0 => rfl
  | k + 1 =>
    have runs : maximalRuns (List.replicate k c ++ [c]) = [(c, 1 + k)] := maximalRuns_replicate_append rfl k
    rw [List.replicate_succ', compressBody_of_maximalRuns runs, Nat.add_comm 1 k, runBytes_of_le c hk]
    exact List.append_nil _

end Sys2Proof.Machine
end

section
/-! SUPPORT. A whole job of ENC (41_encoder.md R92; 70_reset_and_hazards.md R145): what holds between two of its steps,
the step lemma of each phase, and the job as their composition. -/

namespace Sys2Proof.Machine

/-! ### Moves of ENC in a row -/

theorem movesOf_enc_of_encStep {s t : State} (h : encStep s = .next t) (k : Nat) :
    movesOf .enc (k + 1) s = movesOf .enc k t := by
  rw [movesOf, step_enc, h]

theorem movesOf_enc_succ_next {s u : State} {k : Nat} (h : movesOf .enc (k + 1) s = .next u) :
    ∃ t, encStep s = .next t ∧ movesOf .enc k t = .next u := by
  rw [movesOf, step_enc] at h
  cases hs : encStep s with
  | next t => rw [hs] at h; exact ⟨t, rfl, h⟩
  | fault f => rw [hs] at h; cases h
  | refused r => rw [hs] at h; cases h

/-- The last move of a row is one encoder step from where the moves before it ended. -/
theorem movesOf_enc_succ {k : Nat} {s u v : State} (h : movesOf .enc k s = .next u) (hu : encStep u = .next v) :
    movesOf .enc (k + 1) s = .next v := by
  induction k generalizing s with
  | zero => cases h; exact movesOf_enc_of_encStep hu 0
  | succ k ih =>
    obtain ⟨t, hs, ht⟩ := movesOf_enc_succ_next h
    rw [movesOf_enc_of_encStep hs, ih ht]

theorem encStep_idle {s : State} (h : s.enc.phase = .idle) : encStep s = .next s := by
  rw [encStep, h]

/-! ### Writes in a row -/

theorem State.setBytes_append (s : State) (b : Buffer) (k : Nat) (vs ws : List Byte) :
    s.setBytes b k (vs ++ ws) = (s.setBytes b k vs).setBytes b (k + vs.length) ws := by
  cases b <;> simp only [State.setBytes, State.setMem, State.mem, Memory.setAll_append]

/-- A write is read as such from every state with the same bytes. -/
theorem State.byteAt_setBytes_congr {s t : State} (h : ∀ c j, t.byteAt c j = s.byteAt c j) (b : Buffer) (k : Nat)
    (vs : List Byte) (c : Buffer) (j : Nat) : (t.setBytes b k vs).byteAt c j = (s.setBytes b k vs).byteAt c j := by
  simp only [State.byteAt_setBytes, h]

/-! ### Between two steps of a job -/

/-- ENC's job that began in `s` runs, with HDR_LEN `hdr`: the status START cleared, and all that the job leaves
alone. -/
structure EncRunning (s : State) (hdr : Word) (v : State) : Prop where
  dec : v.dec = s.dec
  caps : v.caps = s.caps
  src : v.enc.src = s.enc.src
  regs : v.enc.regs = { s.enc.regs.clearForStart with hdrLen := hdr }

/-- ENC's job on `b` that began in `s` has scanned `i` bytes and written `out`: `run_char` stands `i - run_start` times
before `i`, and the rest of the closed form is that of the counted run and the bytes from `i` on
(41_encoder.md R86, R87, R92). -/
structure EncScanned (s : State) (b : List Byte) (i : Nat) (out : List Byte) (v : State) : Prop where
  running : EncRunning s (BitVec.ofNat 32 b.length) v
  phase : v.enc.phase = if i = b.length then .tail else .scan
  total : v.enc.job.n.toNat = b.length
  counter : v.enc.job.i.toNat = i
  runStart : v.enc.job.runStart.toNat ≤ i
  run : i - v.enc.job.runStart.toNat ≤ 255
  bytes : ∀ c k, v.byteAt c k = (s.setBytes .encDst 0 out).byteAt c k
  outPos : v.enc.job.outPos.toNat = out.length
  fits : out.length ≤ s.cap .encDst
  pending : compress b =
    out ++ compressBody (List.replicate (i - v.enc.job.runStart.toNat) v.enc.job.runChar ++ b.drop i)

/-- ENC's job on `b` that began in `s` has ended in AllocationFailure, and DST is smaller than the closed form. -/
structure EncFailed (s : State) (b : List Byte) (v : State) : Prop where
  phase : v.enc.phase = .idle
  dec : v.dec = s.dec
  src : v.enc.src = s.enc.src
  done : v.enc.regs.done = false
  err : v.enc.regs.err = true
  code : v.enc.regs.code = .allocationFailure
  outLen : v.enc.regs.outLen = 0#64
  short : s.cap .encDst < (compress b).length

/-- ENC's job on `b` that began in `s` has completed with the closed form in DST. -/
structure EncCompleted (s : State) (b : List Byte) (v : State) : Prop where
  phase : v.enc.phase = .idle
  dec : v.dec = s.dec
  src : v.enc.src = s.enc.src
  done : v.enc.regs.done = true
  err : v.enc.regs.err = false
  outLen : v.enc.regs.outLen.toNat = (compress b).length
  hdrLen : v.enc.regs.hdrLen = BitVec.ofNat 32 b.length
  bytes : ∀ c k, v.byteAt c k = (s.setBytes .encDst 0 (compress b)).byteAt c k
  fits : (compress b).length ≤ s.cap .encDst

/-- A running job that finds no room in DST fails. -/
theorem EncRunning.failed {s v : State} {hdr : Word} (h : EncRunning s hdr v) {b : List Byte}
    (short : s.cap .encDst < (compress b).length) (pos : Word64) :
    EncFailed s b (v.raiseFault .enc .allocationFailure .none pos) where
  phase := rfl
  dec := h.dec
  src := h.src
  done := congrArg Regs.done h.regs
  err := rfl
  code := rfl
  outLen := congrArg Regs.outLen h.regs
  short := short

theorem EncRunning.cap {s v : State} {hdr : Word} (h : EncRunning s hdr v) (b : Buffer) : v.cap b = s.cap b := by
  rw [State.cap, h.caps, State.cap]

theorem EncScanned.busy {s v : State} {b out : List Byte} {i : Nat} (h : EncScanned s b i out v) :
    v.busy .enc = true := by
  rw [State.busy, h.phase]
  split <;> rfl

theorem EncScanned.outPos_le {s v : State} {b out : List Byte} {i : Nat} (h : EncScanned s b i out v) :
    v.enc.job.outPos.toNat ≤ v.cap .encDst := by
  rw [h.outPos, h.running.cap]
  exact h.fits

/-- A job that has written `out` finds `u` after it when it has written `u` there. -/
theorem EncScanned.byteAt_append {s v w : State} {b out : List Byte} {i : Nat} (h : EncScanned s b i out v)
    {u : List Byte} (hw : ∀ c k, w.byteAt c k = (v.setBytes .encDst v.enc.job.outPos.toNat u).byteAt c k)
    (c : Buffer) (k : Nat) : w.byteAt c k = (s.setBytes .encDst 0 (out ++ u)).byteAt c k := by
  rw [hw, h.outPos, State.byteAt_setBytes_congr h.bytes, State.setBytes_append, Nat.zero_add]

/-- What a step may write fits in DST, so the write index does not wrap. -/
theorem EncScanned.outPos_append {s v : State} {b out : List Byte} {i : Nat} (h : EncScanned s b i out v)
    {u : List Byte} (fits : (out ++ u).length ≤ s.cap .encDst) :
    (BitVec.ofNat 64 (v.enc.job.outPos.toNat + u.length)).toNat = (out ++ u).length := by
  have bound : s.cap .encDst < 2 ^ 64 := (s.caps.get .encDst).isLt
  rw [h.outPos, ← List.length_append, BitVec.toNat_ofNat, Nat.mod_eq_of_lt (by omega)]

/-! ### The HEADER step -/

theorem encBegun_running (s : State) : EncRunning s 0#32 (encBegun s) := ⟨rfl, rfl, rfl, rfl⟩

/-- The header step of a job on `b` has written the length, and the closed form of `b` is still to come. -/
theorem encBegun_header {s : State} {b : List Byte} (hn : b.length < 2 ^ 32)
    (hl : s.enc.regs.srcLen = BitVec.ofNat 64 b.length) :
    ∃ v, encStep (encBegun s) = .next v ∧ ((∃ out, EncScanned s b 0 out v) ∨ EncFailed s b v) := by
  refine ⟨_, encStep_header rfl, ?_⟩
  have low : (encBegun s).enc.job.n.extractLsb' 0 32 = BitVec.ofNat 32 b.length := by
    change s.enc.regs.srcLen.extractLsb' 0 32 = _
    rw [hl, ← BitVec.setWidth_eq_extractLsb' (by decide), BitVec.setWidth_ofNat_of_le (by decide)]
  have total : (encBegun s).enc.job.n.toNat = b.length := by
    change s.enc.regs.srcLen.toNat = _
    rw [hl, BitVec.toNat_ofNat, Nat.mod_eq_of_lt (by omega)]
  split
  case isTrue h =>
    refine .inl ⟨leBytes (BitVec.ofNat 32 b.length), ?_⟩
    exact
      { running := ⟨rfl, rfl, rfl, by rw [← low]; rfl⟩
        phase := by simp only [encHeaderDone, total, eq_comm]
        total := total
        counter := rfl
        runStart := Nat.le_refl 0
        run := Nat.zero_le 255
        bytes := fun c k => by
          rw [encHeaderDone_byteAt, low]
          exact State.byteAt_setBytes_congr (fun c k => State.byteAt_congr (by cases c <;> rfl) rfl k) _ _ _ _ _
        outPos := rfl
        fits := h
        pending := rfl }
  case isFalse h =>
    have short : s.cap .encDst < (compress b).length := by
      rw [compress_length]
      exact Nat.lt_add_right _ (Nat.lt_of_not_le h)
    exact .inr ((encBegun_running s).failed short 0#64)

/-! ### The SCAN step -/

theorem encAdvance_counts {v : State} {i len : Nat} (hp : v.enc.phase = .scan) (hi : v.enc.job.i.toNat = i)
    (hn : v.enc.job.n.toNat = len) (h : i < len) :
    (encAdvance v).enc.job.i.toNat = i + 1 ∧
    (encAdvance v).enc.phase = if i + 1 = len then .tail else .scan := by
  have bound := v.enc.job.n.isLt
  have next : (v.enc.job.i + 1#64).toNat = i + 1 := by
    rw [BitVec.toNat_add, hi]
    exact Nat.mod_eq_of_lt (show i + 1 < 2 ^ 64 by omega)
  have last : v.enc.job.i + 1#64 = v.enc.job.n ↔ i + 1 = len := by rw [BitVec.toNat_eq, next, hn]
  rw [encAdvance_eq hp]
  exact ⟨next, by simp only [last]⟩

section
variable {s v : State} {b out : List Byte} {i : Nat} (h : EncScanned s b i out v)
include h

theorem EncScanned.phase_scan (hi : i < b.length) : v.enc.phase = .scan := by
  rw [h.phase, if_neg (Nat.ne_of_lt hi)]

/-- The byte that a SCAN step reads is the input's. -/
theorem EncScanned.byteAt_src (hb : Holds s .encSrc 0 b) (hi : i < b.length) : v.byteAt .encSrc i = b[i] := by
  have same := s.sameBytesBut_setBytes .encDst 0 out .encSrc i (.inl (by decide))
  rw [h.bytes, same, ← hb i hi, Nat.zero_add]

/-- A byte that continues the run is counted into it. -/
theorem EncScanned.extend (hi : i < b.length) (hc : b[i] = v.enc.job.runChar)
    (hl : i - v.enc.job.runStart.toNat ≠ 255) : EncScanned s b (i + 1) out (encAdvance v) := by
  obtain ⟨counter, phase⟩ := encAdvance_counts (h.phase_scan hi) h.counter h.total hi
  have start := h.runStart
  have run := h.run
  exact
    { running := ⟨h.running.dec, h.running.caps, h.running.src, h.running.regs⟩
      phase := phase
      total := h.total
      counter := counter
      runStart := Nat.le_succ_of_le start
      run := by change i + 1 - v.enc.job.runStart.toNat ≤ 255; omega
      bytes := fun c k => by rw [encAdvance_byteAt, h.bytes]
      outPos := h.outPos
      fits := h.fits
      pending := by
        change compress b = out ++ compressBody (List.replicate (i + 1 - v.enc.job.runStart.toNat)
          v.enc.job.runChar ++ b.drop (i + 1))
        rw [h.pending, List.drop_eq_getElem_cons hi, hc, Nat.sub_add_comm start, List.replicate_succ',
          List.append_assoc, List.singleton_append] }

/-- Before a byte that ends the counted run, the run's unit is the front of the rest of the closed form. -/
theorem EncScanned.pending_flush (hi : i < b.length)
    (hc : b[i] ≠ v.enc.job.runChar ∨ i - v.enc.job.runStart.toNat = 255) :
    compress b = (out ++ encRun v v.enc.job.i) ++ compressBody (b.drop i) := by
  have unit := compressBody_flush h.run hc (b.drop (i + 1))
  rw [← List.drop_eq_getElem_cons hi] at unit
  rw [h.pending, unit, encRun, h.counter, List.append_assoc]

/-- A byte that ends the counted run is the first one of the next run, after the unit of the one before. -/
theorem EncScanned.flush (hb : Holds s .encSrc 0 b) (hi : i < b.length)
    (hc : b[i] ≠ v.enc.job.runChar ∨ i - v.enc.job.runStart.toNat = 255)
    (fits : (out ++ encRun v v.enc.job.i).length ≤ s.cap .encDst) :
    EncScanned s b (i + 1) (out ++ encRun v v.enc.job.i) (encFlushed v) := by
  have char : v.byteAt .encSrc v.enc.job.i.toNat = b[i] := by rw [h.counter]; exact h.byteAt_src hb hi
  have scan := h.phase_scan hi
  obtain ⟨counter, phase⟩ := encAdvance_counts
    (v := encRestart (v.byteAt .encSrc v.enc.job.i.toNat) (encEmitted (encRun v v.enc.job.i) v)) scan h.counter h.total
    hi
  exact
    { running := ⟨h.running.dec, h.running.caps, h.running.src, h.running.regs⟩
      phase := phase
      total := h.total
      counter := counter
      runStart := by change v.enc.job.i.toNat ≤ i + 1; rw [h.counter]; exact Nat.le_succ i
      run := by change i + 1 - v.enc.job.i.toNat ≤ 255; rw [h.counter]; omega
      bytes := h.byteAt_append (encFlushed_byteAt v)
      outPos := h.outPos_append fits
      fits := fits
      pending := by
        change compress b = _ ++ compressBody (List.replicate (i + 1 - v.enc.job.i.toNat)
          (v.byteAt .encSrc v.enc.job.i.toNat) ++ b.drop (i + 1))
        rw [h.pending_flush hi hc, char, h.counter, Nat.add_sub_cancel_left, List.drop_eq_getElem_cons hi]
        rfl }

/-- A SCAN step of a job takes the next byte or fails. -/
theorem EncScanned.step (hb : Holds s .encSrc 0 b) (hcap : b.length ≤ s.cap .encSrc) (hi : i < b.length) :
    ∃ w, encStep v = .next w ∧ ((∃ out', EncScanned s b (i + 1) out' w) ∨ EncFailed s b w) := by
  have inSrc : v.enc.job.i.toNat < v.cap .encSrc := by rw [h.counter, h.running.cap]; omega
  have start : v.enc.job.runStart.toNat ≤ v.enc.job.i.toNat := by rw [h.counter]; exact h.runStart
  refine ⟨_, encStep_scan (h.phase_scan hi) inSrc start h.outPos_le, ?_⟩
  rw [h.outPos, h.running.cap, ← List.length_append]
  simp only [h.counter, h.byteAt_src hb hi]
  split
  case isTrue hc => exact .inl ⟨out, h.extend hi hc.1 hc.2⟩
  case isFalse hc =>
    have ends : b[i] ≠ v.enc.job.runChar ∨ i - v.enc.job.runStart.toNat = 255 := by tauto
    split
    case isTrue fits => exact .inl ⟨_, h.flush hb hi ends fits⟩
    case isFalse full =>
      refine .inr (h.running.failed ?_ _)
      rw [h.pending_flush hi ends, List.length_append]
      omega

end

/-! ### The TAIL step -/

section
variable {s v : State} {b out : List Byte} (h : EncScanned s b b.length out v)
include h

theorem EncScanned.pending_last : compress b = out ++ encRun v v.enc.job.n := by
  rw [h.pending, List.drop_length, List.append_nil, compressBody_replicate _ h.run, encRun, h.total]

/-- The TAIL step of a job completes it or fails. -/
theorem EncScanned.finish :
    ∃ w, encStep v = .next w ∧ (EncCompleted s b w ∨ EncFailed s b w) := by
  have tail : v.enc.phase = .tail := by rw [h.phase, if_pos rfl]
  have start : v.enc.job.runStart.toNat ≤ v.enc.job.n.toNat := by rw [h.total]; exact h.runStart
  refine ⟨_, encStep_tail tail start h.outPos_le, ?_⟩
  rw [h.outPos, h.running.cap, ← List.length_append]
  split
  case isTrue fits =>
    have outPos := h.outPos_append fits
    have bytes := h.byteAt_append (encFinished_byteAt v)
    rw [← h.pending_last] at fits outPos bytes
    exact .inl
      { phase := rfl
        dec := h.running.dec
        src := h.running.src
        done := rfl
        err := congrArg Regs.err h.running.regs
        outLen := outPos
        hdrLen := congrArg Regs.hdrLen h.running.regs
        bytes := bytes
        fits := fits }
  case isFalse full =>
    rw [← h.pending_last] at full
    exact .inr (h.running.failed (Nat.lt_of_not_le full) _)

end

/-! ### The job -/

section
variable {s : State} {b : List Byte} (hn : b.length < 2 ^ 32) (hl : s.enc.regs.srcLen = BitVec.ofNat 64 b.length)
  (hcap : b.length ≤ s.cap .encSrc) (hb : Holds s .encSrc 0 b)
include hn hl hcap hb

/-- After the header step and `i` steps of the scan a job has scanned `i` bytes, or has failed. -/
theorem encBegun_scans (i : Nat) (hi : i ≤ b.length) :
    ∃ v, movesOf .enc (i + 1) (encBegun s) = .next v ∧ ((∃ out, EncScanned s b i out v) ∨ EncFailed s b v) := by
  induction i with
  | zero =>
    obtain ⟨v, hv, ends⟩ := encBegun_header hn hl
    exact ⟨v, movesOf_enc_succ rfl hv, ends⟩
  | succ i ih =>
    obtain ⟨v, hv, ⟨out, scanned⟩ | failed⟩ := ih (Nat.le_of_succ_le hi)
    · obtain ⟨w, hw, ends⟩ := scanned.step hb hcap hi
      exact ⟨w, movesOf_enc_succ hv hw, ends⟩
    · exact ⟨v, movesOf_enc_succ hv (encStep_idle failed.phase), .inr failed⟩

/-- After `n + 2` steps a job has completed or failed. -/
theorem encBegun_ends :
    ∃ u, movesOf .enc (b.length + 2) (encBegun s) = .next u ∧ (EncCompleted s b u ∨ EncFailed s b u) := by
  obtain ⟨v, hv, ⟨out, scanned⟩ | failed⟩ := encBegun_scans hn hl hcap hb b.length (Nat.le_refl _)
  · obtain ⟨w, hw, ends⟩ := scanned.finish
    exact ⟨w, movesOf_enc_succ hv hw, ends⟩
  · exact ⟨v, movesOf_enc_succ hv (encStep_idle failed.phase), .inr failed⟩

/-- A job whose output fits is busy until its last step. -/
theorem encBegun_busy (fits : (compress b).length ≤ s.cap .encDst) (k : Nat) (hk : k < b.length + 2) :
    ∃ v, movesOf .enc k (encBegun s) = .next v ∧ v.busy .enc = true := by
  match k with
  | 0 => exact ⟨encBegun s, rfl, rfl⟩
  | i + 1 =>
    obtain ⟨v, hv, ⟨out, scanned⟩ | failed⟩ := encBegun_scans hn hl hcap hb i (by omega)
    · exact ⟨v, hv, scanned.busy⟩
    · exact absurd fits (Nat.not_le.mpr failed.short)

end

/-- Settles O50: START begins the job, and its `n + 2` steps end in one of the two ways the size of DST decides. -/
theorem encJobComputesCompress : Obligations.EncJobComputesCompress := by
  intro s b data hp hn hl hcap hb
  have len : s.enc.regs.srcLen.toNat = b.length := by
    rw [hl, BitVec.toNat_ofNat, Nat.mod_eq_of_lt (by omega)]
  have begins := exec_encStart_of_le hp (by omega) (by omega) data
  obtain ⟨u, hu, completed | failed⟩ := encBegun_ends hn hl hcap hb
  · have hdr : u.enc.regs.hdrLen.toNat = b.length := by
      rw [completed.hdrLen, BitVec.toNat_ofNat, Nat.mod_eq_of_lt hn]
    obtain ⟨holds, others⟩ := holds_of_byteAt_setBytes completed.bytes
    exact ⟨encBegun s, u, begins, hu, completed.phase, completed.dec, completed.src,
      fun fits => ⟨completed.done, completed.err, completed.outLen, hdr, holds, others,
        encBegun_busy hn hl hcap hb fits⟩,
      fun short => absurd completed.fits (Nat.not_le.mpr short)⟩
  · exact ⟨encBegun s, u, begins, hu, failed.phase, failed.dec, failed.src,
      fun fits => absurd fits (Nat.not_le.mpr failed.short),
      fun _ => ⟨failed.done, failed.err, failed.code, failed.outLen⟩⟩

end Sys2Proof.Machine
end

section
/-! SUPPORT. DEC's own statements (42_decoder.md R97 to R111): the checks of START, and the CHECK step. -/

namespace Sys2Proof.Machine

/-! ### START (42_decoder.md R97, R98) -/

theorem exec_decStart (data : Word) (s : State) : exec (.decStart data) s = .next (startDec s) := rfl

/-- The state in which START leaves a job that begins (42_decoder.md R97). -/
def decBegun (s : State) : State := { decLatched s with dec := { (decLatched s).dec with phase := .header } }

/-- START on an idle DEC makes its checks on the latched length, in order. -/
theorem startDec_of_idle {s : State} (h : s.dec.phase = .idle) :
    startDec s =
      if s.cap .decSrc < s.dec.regs.srcLen.toNat then (decLatched s).raiseFault .dec .bufferBounds .none 0#64
      else if s.dec.regs.srcLen.toNat < 4 then (decLatched s).raiseFault .dec .malformedEncoding .shortHeader 0#64
      else decBegun s := by
  have started := startDec_cases s
  generalize startDec s = t at started
  cases started with
  | ignored hp => exact absurd h hp
  | beyond _ hc => rw [if_pos hc]
  | short _ hc hn => rw [if_neg (by omega), if_pos hn]
  | begun _ hc hn => rw [if_neg (by omega), if_neg (by omega)]; rfl

/-- A length that fits and holds a header begins the job. -/
theorem exec_decStart_of_le {s : State} (h : s.dec.phase = .idle) (hn : 4 ≤ s.dec.regs.srcLen.toNat)
    (hc : s.dec.regs.srcLen.toNat ≤ s.cap .decSrc) (data : Word) :
    exec (.decStart data) s = .next (decBegun s) := by
  rw [exec_decStart, startDec_of_idle h, if_neg (by omega), if_neg (by omega)]

/-- Settles O15: the three answers of the checks. -/
theorem decStartChecksTheLength : Obligations.DecStartChecksTheLength := by
  refine fun s data h => ⟨fun hn hc => ?begins, fun hc => ?beyond, fun hc hn => ?short⟩
  case begins => exact exec_decStart_of_le h hn hc data
  case beyond => rw [exec_decStart, startDec_of_idle h, if_pos hc]; rfl
  case short => rw [exec_decStart, startDec_of_idle h, if_neg (by omega), if_pos hn]; rfl

/-! ### CHECK (42_decoder.md R110, R111) -/

/-- A listed move of DEC is one decoder step from the state with that move taken off the listing. -/
theorem step_of_dec_listed {s : State} {rest : List Agent} (h : s.schedule = .dec :: rest) :
    step s = decStep { s with schedule := rest } := by
  have listed : step { { s with schedule := rest } with schedule := .dec :: rest } = step s :=
    congrArg step (State.with_schedule_eq h)
  exact listed.symm.trans (step_dec { s with schedule := rest })

/-- A CHECK step completes an exactly filled output, or faults (42_decoder.md R110). -/
theorem decStep_check {s : State} (hp : s.dec.phase = .check) :
    decStep s = .next (if s.dec.job.w.toNat = s.dec.job.orig.toNat then decComplete s
      else s.raiseFault .dec .malformedEncoding .underfill s.dec.job.len) := by
  rw [decStep, fetchDec, hp]
  simp only [decCheck, ne_eq, ite_not]
  split <;> rfl

/-- Settles O30: the two cases of the step. -/
theorem checkStepDemandsAnExactFill : Obligations.CheckStepDemandsAnExactFill := by
  intro s rest hs hp
  have next := (step_of_dec_listed hs).trans (decStep_check (s := { s with schedule := rest }) hp)
  exact ⟨fun h => next.trans (congrArg _ (if_pos h)), fun h => next.trans (congrArg _ (if_neg h))⟩

end Sys2Proof.Machine
end

section
/-! SUPPORT. The parse of a body taken apart at a unit (30_encoding.md R59, R60), and the result of a job after some of
its units (42_decoder.md R112). -/

namespace Sys2Proof.Machine

/-! ### The first unit of a body -/

theorem parseBody_equal_pair (c k : Byte) (rest : List Byte) :
    parseBody (c :: c :: k :: rest) = .esc c k :: parseBody rest := by
  rw [parseBody, if_pos rfl]

theorem parseBody_of_ne {c d : Byte} (h : d ≠ c) (rest : List Byte) :
    parseBody (c :: d :: rest) = .lit c :: parseBody (d :: rest) := by
  cases rest with
  | nil => rfl
  | cons k rest => rw [parseBody, if_neg h]

/-- The first unit of a parse is the one the demultiplexer finds, and the parse goes on after its bytes. -/
theorem decodeUnit_of_parseBody {bs : List Byte} {u : StreamUnit} {us : List StreamUnit} (h : parseBody bs = u :: us) :
    ∃ rest, bs = u.bytes ++ rest ∧ decodeUnit bs = .ok (u.instr, rest) ∧ parseBody rest = us := by
  match bs with
  | [] => cases h
  | [c] => cases h; exact ⟨[], rfl, rfl, rfl⟩
  | [c, d] => cases h; exact ⟨[d], rfl, rfl, rfl⟩
  | c :: d :: k :: rest =>
    by_cases hdc : d = c
    · subst hdc
      rw [parseBody_equal_pair] at h
      cases h
      exact ⟨rest, rfl, decodeUnit_equal_pair d k rest, rfl⟩
    · rw [parseBody_of_ne hdc] at h
      cases h
      exact ⟨d :: k :: rest, rfl, decodeUnit_of_ne hdc (k :: rest), rfl⟩

theorem eq_nil_of_parseBody {bs : List Byte} (h : parseBody bs = []) : bs = [] := by
  match bs with
  | [] => rfl
  | [_] | [_, _] => cases h
  | c :: d :: k :: rest =>
    rw [parseBody] at h
    split at h <;> cases h

/-! ### A unit as one instruction -/

/-- A unit stands for copies of its first byte. -/
theorem StreamUnit.expand_eq_replicate (u : StreamUnit) : u.expand = List.replicate u.expand.length u.first := by
  cases u <;> simp [expand, first]

theorem StreamUnit.bytes_length_pos (u : StreamUnit) : 0 < u.bytes.length := by
  cases u <;> simp [bytes]

/-- A unit of either kind appends its copies and moves on by its bytes (42_decoder.md R103, R104). -/
theorem exec_unit (u : StreamUnit) (s : State) :
    exec u.instr s = (decAppendMany u.first s.dec.job.i u.expand.length s).andThen
      fun t => .next (decAdvance u.bytes.length t) := by
  cases u with
  | lit v => exact execLit_eq_many v s
  | esc v k => rw [StreamUnit.expand, List.length_replicate]; rfl

/-! ### The result after some of the units -/

/-- How a job ends that has produced `out` and still has to read `us`, of which the first unit stands at index `at0` of
a stream of `total` bytes (42_decoder.md R112). -/
def decodeRest (orig total at0 : Nat) (out : List Byte) (us : List StreamUnit) : DecodeResult :=
  match crossingUnit orig at0 out.length us with
  | some pos => .overflow pos
  | none => if (out ++ expandUnits us).length = orig then .done (out ++ expandUnits us) else .underfill total

theorem decompress_eq_decodeRest (b0 b1 b2 b3 : Byte) (body : List Byte) :
    decompress (b0 :: b1 :: b2 :: b3 :: body) =
      decodeRest (ofLeBytes b0 b1 b2 b3).toNat (b0 :: b1 :: b2 :: b3 :: body).length 4 [] (parseBody body) := by
  have total : (b0 :: b1 :: b2 :: b3 :: body).length = 4 + body.length := Nat.add_comm body.length 4
  rw [total]
  rfl

theorem expandUnits_cons (u : StreamUnit) (us : List StreamUnit) :
    expandUnits (u :: us) = u.expand ++ expandUnits us := rfl

theorem decodeRest_nil (orig total at0 : Nat) (out : List Byte) :
    decodeRest orig total at0 out [] = if out.length = orig then .done out else .underfill total := by
  simp [decodeRest, crossingUnit, expandUnits]

theorem decodeRest_of_fits {orig : Nat} {out : List Byte} {u : StreamUnit} (total at0 : Nat) (us : List StreamUnit)
    (h : out.length + u.expand.length ≤ orig) :
    decodeRest orig total at0 out (u :: us) =
      decodeRest orig total (at0 + u.bytes.length) (out ++ u.expand) us := by
  simp only [decodeRest, crossingUnit, if_neg (Nat.not_lt.mpr h), expandUnits_cons, List.append_assoc,
    List.length_append]

theorem decodeRest_of_crosses {orig : Nat} {out : List Byte} {u : StreamUnit} (total at0 : Nat) (us : List StreamUnit)
    (h : orig < out.length + u.expand.length) : decodeRest orig total at0 out (u :: us) = .overflow at0 := by
  rw [decodeRest, crossingUnit, if_pos h]

/-- No unit crosses where all together produce no more than `orig` bytes. -/
theorem decodeRest_of_exact {orig : Nat} (total at0 : Nat) {out : List Byte} {us : List StreamUnit}
    (h : (out ++ expandUnits us).length = orig) :
    decodeRest orig total at0 out us = .done (out ++ expandUnits us) := by
  induction us generalizing at0 out with
  | nil =>
    rw [expandUnits, List.map_nil, List.flatten_nil, List.append_nil] at h ⊢
    rw [decodeRest_nil, if_pos h]
  | cons u us ih =>
    rw [expandUnits_cons, ← List.append_assoc] at h ⊢
    rw [decodeRest_of_fits total at0 us (by simp only [List.length_append] at h; omega), ih _ h]

end Sys2Proof.Machine
end

section
/-! SUPPORT. A whole job of DEC (42_decoder.md R112; 70_reset_and_hazards.md R145): what holds between two of its steps,
the step lemma of each phase, and the job as their composition. -/

namespace Sys2Proof.Machine

/-! ### Moves of DEC in a row -/

theorem movesOf_dec_of_decStep {s t : State} (h : decStep s = .next t) (k : Nat) :
    movesOf .dec (k + 1) s = movesOf .dec k t := by
  have hs : step { s with schedule := .dec :: s.schedule } = decStep s := step_dec s
  rw [movesOf, hs, h]

theorem decStep_idle {s : State} (h : s.dec.phase = .idle) : decStep s = .next s := by
  rw [decStep, fetchDec, h]

/-- "An IDLE engine takes no step" (10_state.md R30). -/
theorem movesOf_dec_idle {s : State} (h : s.dec.phase = .idle) (k : Nat) : movesOf .dec k s = .next s := by
  induction k with
  | zero => rfl
  | succ k ih => rw [movesOf_dec_of_decStep (decStep_idle h), ih]

/-! ### A BODY step on the stream -/

/-- A BODY step runs the unit that the demultiplexer finds in the stream at `i` (42_decoder.md R102;
30_encoding.md R59). -/
theorem decStep_body_of_decodeUnit {s : State} {stream rest : List Byte} {i : Nat} {x : Instr}
    (hp : s.dec.phase = .body) (hi : s.dec.job.i.toNat = i) (hlen : s.dec.job.len.toNat = stream.length)
    (hcap : stream.length ≤ s.cap .decSrc) (hs : Holds s .decSrc 0 stream)
    (hd : decodeUnit (stream.drop i) = .ok (x, rest)) : decStep s = exec x s := by
  have inside : i < stream.length := by
    by_contra h
    rw [List.drop_eq_nil_of_le (Nat.le_of_not_lt h)] at hd
    cases hd
  have byte (j : Nat) (hj : j < stream.length) : s.byteAt .decSrc j = stream.getD j 0#8 := by
    rw [List.getD_eq_getElem _ _ hj, ← hs j hj, Nat.zero_add]
  have step : decStep s = _ := step_dec_body hp (by omega) (by omega)
  obtain ⟨esc, lit⟩ := unitKindByTheNextByte stream i inside
  rw [step, hi, hlen]
  by_cases two : i + 2 < stream.length
  · rw [byte i inside, byte (i + 1) (by omega), byte (i + 2) two]
    split
    case isTrue h => cases hd.symm.trans (esc h); rfl
    case isFalse h => cases hd.symm.trans (lit h); rfl
  · rw [if_neg (fun h => two h.1), byte i inside]
    cases hd.symm.trans (lit fun h => two h.1)
    rfl

/-- A unit whose copies fit is appended. -/
theorem exec_unit_of_fits {u : StreamUnit} {s : State}
    (h : s.dec.job.w.toNat + u.expand.length ≤ s.dec.job.orig.toNat) (hc : s.dec.job.orig.toNat ≤ s.cap .decDst) :
    exec u.instr s = .next (decAdvance u.bytes.length (decAppended u.first u.expand.length s)) := by
  rw [exec_unit, decAppendMany_fits _ _ _ _ h hc]
  rfl

/-- A unit that crosses `orig` raises OVERFLOW at its index. -/
theorem exec_unit_of_crosses {u : StreamUnit} {s : State} (hw : s.dec.job.w.toNat ≤ s.dec.job.orig.toNat)
    (h : s.dec.job.orig.toNat < s.dec.job.w.toNat + u.expand.length) (hc : s.dec.job.orig.toNat ≤ s.cap .decDst) :
    exec u.instr s = .next ((decAppended u.first (s.dec.job.orig.toNat - s.dec.job.w.toNat) s).raiseFault .dec
      .malformedEncoding .overflow s.dec.job.i) := by
  rw [exec_unit, decAppendMany_overflows _ _ _ _ hw h hc]
  rfl

theorem decAdvance_byteAt (size : Nat) (s : State) (b : Buffer) (k : Nat) :
    (decAdvance size s).byteAt b k = s.byteAt b k :=
  State.byteAt_congr (by cases b <;> rfl) rfl k

theorem decComplete_byteAt (s : State) (b : Buffer) (k : Nat) : (decComplete s).byteAt b k = s.byteAt b k :=
  State.byteAt_congr (by cases b <;> rfl) rfl k

/-! ### Between two steps of a job -/

/-- DEC's job that began in `s` runs, with `original_length` `orig` in HDR_LEN: the status START cleared, and all that
the job leaves alone. -/
structure DecRunning (s : State) (orig : Word) (v : State) : Prop where
  enc : v.enc = s.enc
  caps : v.caps = s.caps
  src : v.dec.src = s.dec.src
  regs : v.dec.regs = { s.dec.regs.clearForStart with hdrLen := orig }

/-- DEC's job on `stream` that began in `s` has read the stream up to index `i`, where a unit stands or the stream
ends, and has produced `out` (42_decoder.md R102, R106, R108). -/
structure DecRead (s : State) (stream : List Byte) (orig : Word) (i : Nat) (out : List Byte) (v : State) : Prop where
  running : DecRunning s orig v
  phase : v.dec.phase = if i = stream.length then .check else .body
  total : v.dec.job.len.toNat = stream.length
  header : v.dec.job.orig = orig
  counter : v.dec.job.i.toNat = i
  inside : i ≤ stream.length
  bytes : ∀ c k, v.byteAt c k = (s.setBytes .decDst 0 out).byteAt c k
  produced : v.dec.job.w.toNat = out.length
  fits : out.length ≤ orig.toNat

/-- DEC has recorded MalformedEncoding with this detail at this stream index. -/
structure DecFailed (detail : ErrDetail) (pos : Nat) (v : State) : Prop where
  done : v.dec.regs.done = false
  err : v.dec.regs.err = true
  code : v.dec.regs.code = .malformedEncoding
  detail : v.dec.regs.detail = detail
  errPos : v.dec.regs.errPos.toNat = pos
  outLen : v.dec.regs.outLen = 0#64

theorem DecFailed.recorded {detail : ErrDetail} {pos : Nat} {v : State} (h : DecFailed detail pos v) :
    v.dec.regs.done = false ∧ v.dec.regs.err = true ∧ v.dec.regs.code = .malformedEncoding ∧
    v.dec.regs.detail = detail ∧ v.dec.regs.errPos.toNat = pos ∧ v.dec.regs.outLen = 0#64 :=
  ⟨h.done, h.err, h.code, h.detail, h.errPos, h.outLen⟩

/-- DEC's job that began in `s` has completed with `bs` in DST. -/
structure DecCompleted (s : State) (bs : List Byte) (v : State) : Prop where
  done : v.dec.regs.done = true
  err : v.dec.regs.err = false
  outLen : v.dec.regs.outLen.toNat = bs.length
  bytes : ∀ c k, v.byteAt c k = (s.setBytes .decDst 0 bs).byteAt c k

/-- What the host finds after a job with this result. The job of a stream without a header does not begin. -/
def DecShows (s v : State) : DecodeResult → Prop
  | .done bs => DecCompleted s bs v
  | .overflow pos => DecFailed .overflow pos v
  | .underfill pos => DecFailed .underfill pos v
  | .shortHeader => False

/-- DEC's job that began in `s` has ended with this result. -/
structure DecEnded (s : State) (orig : Word) (result : DecodeResult) (v : State) : Prop where
  phase : v.dec.phase = .idle
  enc : v.enc = s.enc
  src : v.dec.src = s.dec.src
  hdrLen : v.dec.regs.hdrLen = orig
  shows : DecShows s v result

/-- A fault of a running job records its code, detail and position, and the status START cleared. -/
theorem DecRunning.failed {s v : State} {orig : Word} (h : DecRunning s orig v) (detail : ErrDetail) (pos : Word64) :
    DecFailed detail pos.toNat (v.raiseFault .dec .malformedEncoding detail pos) where
  done := congrArg Regs.done h.regs
  err := rfl
  code := rfl
  detail := rfl
  errPos := rfl
  outLen := congrArg Regs.outLen h.regs

/-- A step that leaves a running job idle has ended it. -/
theorem DecRunning.ended {s v w : State} {orig : Word} {result : DecodeResult} (h : DecRunning s orig v)
    (phase : w.dec.phase = .idle) (enc : w.enc = v.enc) (src : w.dec.src = v.dec.src)
    (hdrLen : w.dec.regs.hdrLen = v.dec.regs.hdrLen) (shows : DecShows s w result) : DecEnded s orig result w where
  phase := phase
  enc := enc.trans h.enc
  src := src.trans h.src
  hdrLen := hdrLen.trans (congrArg Regs.hdrLen h.regs)
  shows := shows

theorem DecRunning.cap {s v : State} {orig : Word} (h : DecRunning s orig v) (b : Buffer) : v.cap b = s.cap b := by
  rw [State.cap, h.caps, State.cap]

/-! ### The BODY and CHECK steps -/

section
variable {s v : State} {stream out : List Byte} {orig : Word} {i : Nat} (h : DecRead s stream orig i out v)
include h

/-- A unit that starts inside the stream is read by a BODY step, which runs it. -/
theorem DecRead.runs_unit (hs : Holds s .decSrc 0 stream) (hcap : stream.length ≤ s.cap .decSrc) {x : Instr}
    {rest : List Byte} (hd : decodeUnit (stream.drop i) = .ok (x, rest)) : decStep v = exec x v := by
  have inside : i ≠ stream.length := by
    rintro rfl
    rw [List.drop_length] at hd
    cases hd
  have holds : Holds v .decSrc 0 stream := fun j hj =>
    (h.bytes _ _).trans ((s.sameBytesBut_setBytes .decDst 0 out _ _ (.inl (by decide))).trans (hs j hj))
  exact decStep_body_of_decodeUnit (h.phase.trans (if_neg inside)) h.counter h.total
    (by rw [h.running.cap]; exact hcap) holds hd

/-- After a unit whose copies fit the job stands at the end of its bytes. -/
theorem DecRead.take {u : StreamUnit} (hi : i + u.bytes.length ≤ stream.length)
    (hw : out.length + u.expand.length ≤ orig.toNat) :
    DecRead s stream orig (i + u.bytes.length) (out ++ u.expand)
      (decAdvance u.bytes.length (decAppended u.first u.expand.length v)) := by
  have size := u.bytes_length_pos
  have lenBound := v.dec.job.len.isLt
  have origBound := orig.isLt
  have total := h.total
  have counter : (BitVec.ofNat 64 (v.dec.job.i.toNat + u.bytes.length)).toNat = i + u.bytes.length := by
    rw [h.counter, BitVec.toNat_ofNat, Nat.mod_eq_of_lt (by omega)]
  have ends : BitVec.ofNat 64 (v.dec.job.i.toNat + u.bytes.length) = v.dec.job.len ↔
      i + u.bytes.length = stream.length := by
    rw [BitVec.toNat_eq, counter, total]
  have body : v.dec.phase = .body := h.phase.trans (if_neg (by omega))
  exact
    { running := ⟨h.running.enc, h.running.caps, h.running.src, h.running.regs⟩
      phase := by
        change (if BitVec.ofNat 64 (v.dec.job.i.toNat + u.bytes.length) = v.dec.job.len then DecPhase.check
          else v.dec.phase) = _
        simp only [ends, body]
      total := total
      header := h.header
      counter := counter
      inside := hi
      bytes := fun c k => by
        rw [decAdvance_byteAt, decAppended_byteAt, h.produced, ← u.expand_eq_replicate,
          State.byteAt_setBytes_congr h.bytes, State.setBytes_append, Nat.zero_add]
      produced := by
        change (BitVec.ofNat 64 (v.dec.job.w.toNat + u.expand.length)).toNat = _
        rw [h.produced, BitVec.toNat_ofNat, Nat.mod_eq_of_lt (by omega), List.length_append]
      fits := by rw [List.length_append]; exact hw }

/-- A unit that crosses `orig` ends the job. -/
theorem DecRead.overflow (c : Byte) (k : Nat) :
    DecEnded s orig (.overflow i)
      ((decAppended c k v).raiseFault .dec .malformedEncoding .overflow v.dec.job.i) := by
  have appended : DecRunning s orig (decAppended c k v) :=
    ⟨h.running.enc, h.running.caps, h.running.src, h.running.regs⟩
  have shows := appended.failed .overflow v.dec.job.i
  rw [h.counter] at shows
  exact appended.ended rfl rfl rfl rfl shows

end

/-- The CHECK step ends the job: with its output where that is `orig` long, else in UNDERFILL at the stream's end. -/
theorem DecRead.check {s v : State} {stream out : List Byte} {orig : Word}
    (h : DecRead s stream orig stream.length out v) :
    ∃ w, decStep v = .next w ∧
      DecEnded s orig (if out.length = orig.toNat then .done out else .underfill stream.length) w := by
  refine ⟨_, decStep_check (h.phase.trans (if_pos rfl)), ?_⟩
  rw [h.produced, h.header]
  split
  case isTrue filled =>
    refine h.running.ended rfl rfl rfl rfl (?_ : DecCompleted s out (decComplete v))
    exact
      { done := rfl
        err := congrArg Regs.err h.running.regs
        outLen := by
          change (v.dec.job.orig.setWidth 64).toNat = _
          rw [h.header, BitVec.toNat_setWidth_of_le (by decide), filled]
        bytes := fun c k => by rw [decComplete_byteAt, h.bytes] }
  case isFalse =>
    have shows := h.running.failed .underfill v.dec.job.len
    rw [h.total] at shows
    exact h.running.ended rfl rfl rfl rfl shows

/-! ### The job -/

section
variable {s : State} {stream : List Byte} {orig : Word} (hs : Holds s .decSrc 0 stream)
  (hcap : stream.length ≤ s.cap .decSrc) (ho : orig.toNat ≤ s.cap .decDst)
include hs hcap ho

/-- A BODY step reads the unit it stands before, or ends the job at a unit that crosses `orig`. -/
theorem DecRead.step {v : State} {out : List Byte} {i : Nat} {u : StreamUnit} {us : List StreamUnit}
    (h : DecRead s stream orig i out v) (hus : parseBody (stream.drop i) = u :: us) :
    ∃ w, decStep v = .next w ∧
      ((out.length + u.expand.length ≤ orig.toNat ∧ parseBody (stream.drop (i + u.bytes.length)) = us ∧
          DecRead s stream orig (i + u.bytes.length) (out ++ u.expand) w) ∨
        (orig.toNat < out.length + u.expand.length ∧ DecEnded s orig (.overflow i) w)) := by
  obtain ⟨rest, split, unit, parsed⟩ := decodeUnit_of_parseBody hus
  have runs := h.runs_unit hs hcap unit
  have room : v.dec.job.orig.toNat ≤ v.cap .decDst := by rw [h.header, h.running.cap]; exact ho
  by_cases fits : out.length + u.expand.length ≤ orig.toNat
  · have moved := exec_unit_of_fits (u := u) (s := v) (by rw [h.produced, h.header]; exact fits) room
    have next : stream.drop (i + u.bytes.length) = rest := by rw [← List.drop_drop, split, List.drop_left]
    have inside : i + u.bytes.length ≤ stream.length := by
      have size := u.bytes_length_pos
      have length := congrArg List.length split
      rw [List.length_drop, List.length_append] at length
      omega
    exact ⟨_, runs.trans moved, .inl ⟨fits, next ▸ parsed, h.take inside fits⟩⟩
  · have crosses : orig.toNat < out.length + u.expand.length := Nat.lt_of_not_le fits
    have moved := exec_unit_of_crosses (u := u) (s := v) (by rw [h.produced, h.header]; exact h.fits)
      (by rw [h.produced, h.header]; exact crosses) room
    exact ⟨_, runs.trans moved, .inr ⟨crosses, h.overflow _ _⟩⟩

/-- From a unit on, the job takes one step for each unit and one more, and ends as the closed form of these units. -/
theorem DecRead.ends {v : State} {out : List Byte} {i : Nat} {us : List StreamUnit}
    (h : DecRead s stream orig i out v) (hus : parseBody (stream.drop i) = us) :
    ∃ w, movesOf .dec (us.length + 1) v = .next w ∧
      DecEnded s orig (decodeRest orig.toNat stream.length i out us) w := by
  induction us generalizing v out i with
  | nil =>
    have last : i = stream.length :=
      Nat.le_antisymm h.inside (List.drop_eq_nil_iff.mp (eq_nil_of_parseBody hus))
    subst last
    obtain ⟨w, hw, ended⟩ := h.check
    rw [decodeRest_nil]
    exact ⟨w, movesOf_dec_of_decStep hw 0, ended⟩
  | cons u us ih =>
    obtain ⟨t, ht, ⟨fits, parsed, read⟩ | ⟨crosses, ended⟩⟩ := h.step hs hcap ho hus
    · obtain ⟨w, hw, ended⟩ := ih read parsed
      rw [decodeRest_of_fits _ _ _ fits]
      exact ⟨w, (movesOf_dec_of_decStep ht _).trans hw, ended⟩
    · rw [decodeRest_of_crosses _ _ _ crosses]
      exact ⟨t, (movesOf_dec_of_decStep ht _).trans (movesOf_dec_idle ended.phase _), ended⟩

end

/-- The header step of a job stands before the first unit and has produced nothing. -/
theorem decBegun_header {s : State} {b0 b1 b2 b3 : Byte} {body : List Byte}
    (hlen : s.dec.regs.srcLen.toNat = body.length + 4) (hcap : body.length + 4 ≤ s.cap .decSrc)
    (hs : Holds s .decSrc 0 (b0 :: b1 :: b2 :: b3 :: body)) (ho : (ofLeBytes b0 b1 b2 b3).toNat ≤ s.cap .decDst) :
    ∃ v, decStep (decBegun s) = .next v ∧
      DecRead s (b0 :: b1 :: b2 :: b3 :: body) (ofLeBytes b0 b1 b2 b3) 4 [] v := by
  have byte (j : Nat) (hj : j < body.length + 4) :
      (decBegun s).byteAt .decSrc j = (b0 :: b1 :: b2 :: b3 :: body)[j] := by
    rw [← hs j hj, Nat.zero_add]
    rfl
  have header : decStep (decBegun s) = exec (.hdr (ofLeBytes b0 b1 b2 b3)) (decBegun s) := by
    have room : 4 ≤ (decBegun s).cap .decSrc := (Nat.le_add_left 4 body.length).trans hcap
    have step : decStep (decBegun s) = _ := step_dec_header rfl room
    rw [step, byte 0 (by omega), byte 1 (by omega), byte 2 (by omega), byte 3 (by omega)]
    rfl
  refine ⟨_, header.trans ((execHdr_cases _ _).trans (congrArg _ (if_pos ho))), ?_⟩
  have ends : s.dec.regs.srcLen = 4#64 ↔ 4 = body.length + 4 := by
    rw [BitVec.toNat_eq, hlen]
    exact eq_comm
  exact
    { running := ⟨rfl, rfl, rfl, rfl⟩
      phase := by
        change (if s.dec.regs.srcLen = 4#64 then DecPhase.check else .body) = _
        simp only [ends]
        rfl
      total := hlen
      header := rfl
      counter := rfl
      inside := Nat.le_add_left 4 body.length
      bytes := fun c k => State.byteAt_congr (by cases c <;> rfl) rfl k
      produced := rfl
      fits := Nat.zero_le _ }

/-- Settles O51: START begins the job, its header step stands before the first unit, and from there it ends as the
closed form of its units. -/
theorem decJobComputesDecompress : Obligations.DecJobComputesDecompress := by
  intro s b0 b1 b2 b3 body data hp hn hl hcap hs ho
  have len : s.dec.regs.srcLen.toNat = body.length + 4 := by
    rw [hl, BitVec.toNat_ofNat, Nat.mod_eq_of_lt hn]
  have begins := exec_decStart_of_le hp (by omega) (by omega) data
  obtain ⟨v, hv, read⟩ := decBegun_header len hcap hs ho
  obtain ⟨u, hu, ended⟩ := read.ends hs hcap ho rfl
  have shows : DecShows s u (decompress (b0 :: b1 :: b2 :: b3 :: body)) :=
    (decompress_eq_decodeRest b0 b1 b2 b3 body).symm ▸ ended.shows
  refine ⟨decBegun s, u, begins, (movesOf_dec_of_decStep hv _).trans hu, ended.phase, ended.enc, ended.src,
    ended.hdrLen, fun bs h => ?done, fun pos h => ?overflow, fun pos h => ?underfill⟩
  case done =>
    rw [h] at shows
    have completed : DecCompleted s bs u := shows
    exact ⟨completed.done, completed.err, completed.outLen, holds_of_byteAt_setBytes completed.bytes⟩
  case overflow =>
    rw [h] at shows
    exact shows.recorded
  case underfill =>
    rw [h] at shows
    exact shows.recorded

end Sys2Proof.Machine
end

section
/-! SUPPORT. The round trip (42_decoder.md R113): the parse of the closed form, run by run, and the two jobs one after
the other. -/

namespace Sys2Proof.Machine

/-! ### The header (30_encoding.md R58) -/

theorem ofLeBytes_leBytes (n : Word) :
    ofLeBytes (n.extractLsb' 0 8) (n.extractLsb' 8 8) (n.extractLsb' 16 8) (n.extractLsb' 24 8) = n := by
  have bound := n.isLt
  refine BitVec.eq_of_toNat_eq ?_
  simp only [ofLeBytes, BitVec.toNat_ofNat, BitVec.extractLsb'_toNat, Nat.shiftRight_eq_div_pow]
  omega

/-- A closed form is a header with the input's length and a body. -/
theorem compress_eq_header_cons {bs : List Byte} (h : bs.length < 2 ^ 32) :
    ∃ b0 b1 b2 b3, compress bs = b0 :: b1 :: b2 :: b3 :: compressBody bs ∧
      (ofLeBytes b0 b1 b2 b3).toNat = bs.length := by
  refine ⟨_, _, _, _, rfl, ?_⟩
  rw [ofLeBytes_leBytes, BitVec.toNat_ofNat, Nat.mod_eq_of_lt h]

/-! ### The body -/

theorem head?_compressBody_cons (c : Byte) (rest : List Byte) : (compressBody (c :: rest)).head? = some c := by
  obtain ⟨r, more, runs⟩ := maximalRuns_cons c rest
  have first : (runBytes c (r + 1)).head? = some c := by
    by_cases long : r + 1 < 255
    · rw [runBytes_of_le c (by omega)]
      cases r <;> rfl
    · obtain ⟨k, hk⟩ := Nat.exists_eq_add_of_le (Nat.le_of_not_lt long)
      rw [hk, Nat.add_comm, runBytes_add_255]
      rfl
  rw [compressBody_of_maximalRuns runs, List.head?_append, first]
  rfl

/-- The unit of a counted run expands to the run, and the parse goes on after it: a unit of one copy is followed by
another byte or by nothing (41_encoder.md R94 (c)). -/
theorem expand_parse_runUnit_append {c : Byte} {k : Nat} {body : List Byte} (hk : k ≤ 255)
    (h : k = 1 → body.head? ≠ some c) :
    expandUnits (parseBody (runUnit c k ++ body)) = List.replicate k c ++ expandUnits (parseBody body) := by
  match k with
  | 0 => rfl
  | 1 =>
    cases body with
    | nil => rfl
    | cons d body =>
      have other : d ≠ c := fun e => h rfl (congrArg some e)
      exact congrArg expandUnits (parseBody_of_ne other body)
  | k + 2 =>
    have count : (BitVec.ofNat 8 (k + 2)).toNat = k + 2 := by
      rw [BitVec.toNat_ofNat, Nat.mod_eq_of_lt (by omega)]
    have parsed : parseBody (runUnit c (k + 2) ++ body) = .esc c (BitVec.ofNat 8 (k + 2)) :: parseBody body :=
      parseBody_equal_pair c _ body
    rw [parsed, expandUnits_cons, StreamUnit.expand, count]

/-- The units of the closed form expand to the input; the induction counts the run before `bs` as ENC does. -/
theorem expand_parse_compressBody_run (c : Byte) {k : Nat} (hk : k ≤ 255) (bs : List Byte) :
    expandUnits (parseBody (compressBody (List.replicate k c ++ bs))) = List.replicate k c ++ bs := by
  induction bs generalizing c k with
  | nil =>
    have run := expand_parse_runUnit_append (c := c) (body := []) hk (fun _ => nofun)
    rw [List.append_nil, compressBody_replicate c hk]
    rw [List.append_nil] at run
    exact run.trans (List.append_nil _)
  | cons d bs ih =>
    by_cases counted : d = c ∧ k ≠ 255
    · obtain ⟨rfl, short⟩ := counted
      have longer := ih d (k := k + 1) (by omega)
      rwa [List.replicate_succ', List.append_assoc, List.singleton_append] at longer
    · have ends : d ≠ c ∨ k = 255 := by tauto
      have next : expandUnits (parseBody (compressBody (d :: bs))) = d :: bs := ih d (k := 1) (by decide)
      have other : k = 1 → (compressBody (d :: bs)).head? ≠ some c := by
        rintro rfl
        rw [head?_compressBody_cons]
        exact fun e => ends.elim (fun ne => ne (Option.some.inj e)) (by decide)
      rw [compressBody_flush hk ends, expand_parse_runUnit_append hk other, next]

theorem expand_parse_compressBody (bs : List Byte) : expandUnits (parseBody (compressBody bs)) = bs :=
  expand_parse_compressBody_run 0#8 (Nat.zero_le 255) bs

/-- "decompress(compress(b)) == b" on the closed forms (42_decoder.md R113). -/
theorem decompress_compress {bs : List Byte} (h : bs.length < 2 ^ 32) : decompress (compress bs) = .done bs := by
  obtain ⟨b0, b1, b2, b3, stream, orig⟩ := compress_eq_header_cons h
  have output := expand_parse_compressBody bs
  rw [stream, decompress_eq_decodeRest, decodeRest_of_exact _ _ (by rw [output, orig]; rfl), output]
  rfl

/-! ### The block -/

/-- A run of ENC's job ends where the job does, so where the closed form fits, its output is the closed form. -/
theorem encJob_output {s u : State} {b : List Byte} {data : Word} (hp : s.enc.phase = .idle) (hn : b.length < 2 ^ 32)
    (hl : s.enc.regs.srcLen = BitVec.ofNat 64 b.length) (hcap : b.length ≤ s.cap .encSrc) (hb : Holds s .encSrc 0 b)
    (fits : (compress b).length ≤ s.cap .encDst)
    (run : ∃ t, exec (.encStart data) s = .next t ∧ movesOf .enc (b.length + 2) t = .next u) :
    u.enc.regs.outLen.toNat = (compress b).length ∧ Holds u .encDst 0 (compress b) := by
  obtain ⟨t, ht, hu⟩ := run
  obtain ⟨t', u', ht', hu', _, _, _, job, _⟩ := encJobComputesCompress s b data hp hn hl hcap hb
  cases ht.symm.trans ht'
  cases hu.symm.trans hu'
  obtain ⟨_, _, outLen, _, holds, _⟩ := job fits
  exact ⟨outLen, holds⟩

/-- Settles O52: ENC's output is the closed form of `b`, DEC's job on it is the closed form of that stream, and the
closed forms are inverse. -/
theorem roundTripOnTheBlock : Obligations.RoundTripOnTheBlock := by
  intro s u s' b data data' hp hn hl hcap hb fits run hp' hl' bytes hcap' room
  obtain ⟨outLen, output⟩ := encJob_output hp hn hl hcap hb fits run
  have holds : Holds s' .decSrc 0 (compress b) := fun j hj => (bytes _ (by omega)).trans (output j hj)
  have bound := u.enc.regs.outLen.isLt
  have srcLen : s'.dec.regs.srcLen = BitVec.ofNat 64 (compress b).length := by
    rw [hl', ← outLen, BitVec.ofNat_toNat, BitVec.setWidth_eq]
  rw [outLen] at bound hcap'
  have inverse := decompress_compress hn
  obtain ⟨b0, b1, b2, b3, stream, orig⟩ := compress_eq_header_cons hn
  rw [stream] at holds bound srcLen hcap' inverse
  obtain ⟨t', u', starts, runs, idle, _, _, _, job, _⟩ := decJobComputesDecompress s' b0 b1 b2 b3 (compressBody b)
    data' hp' bound srcLen hcap' holds (orig.trans_le room)
  obtain ⟨done, err, length, holds', _⟩ := job b inverse
  exact ⟨t', u', _, starts, runs, idle, done, err, length, holds'⟩

end Sys2Proof.Machine
end

section
/-! SUPPORT. Where a recorded fault comes from (60_exceptions.md R120, R124): the sites of each engine, and that every
move either leaves the recorded fault, clears it, or records one at a site. -/

namespace Sys2Proof.Machine

/-! ### What a move does to the recorded fault -/

/-- The fault registers read the same in `r'` as in `r`. -/
structure SameFault (r r' : Regs) : Prop where
  err : r'.err = r.err
  code : r'.code = r.code
  detail : r'.detail = r.detail
  errPos : r'.errPos = r.errPos

/-- The registers show a job that ended in this fault: neither DONE nor an OUT_LEN (60_exceptions.md R124). -/
structure FaultRecorded (code : ErrCode) (detail : ErrDetail) (pos : Word64) (r : Regs) : Prop where
  done : r.done = false
  outLen : r.outLen = 0#64
  code : r.code = code
  detail : r.detail = detail
  errPos : r.errPos = pos

/-- A move that took an engine's registers from `r` to `r'` explains ERR: where ERR is 1 after it, it left the recorded
fault, or it ended the job, which `idle` says, with a fault that one of the engine's sites raises. -/
def ErrExplained (site : ErrCode → ErrDetail → Word64 → Prop) (idle : Prop) (r r' : Regs) : Prop :=
  r'.err = true →
    SameFault r r' ∨ (idle ∧ ∃ code detail pos, site code detail pos ∧ FaultRecorded code detail pos r')

section
variable {site : ErrCode → ErrDetail → Word64 → Prop} {idle : Prop} {r r' : Regs}

theorem ErrExplained.of_same (h : SameFault r r') : ErrExplained site idle r r' := fun _ => .inl h

theorem ErrExplained.of_eq (h : r' = r) : ErrExplained site idle r r' := .of_same (h ▸ ⟨rfl, rfl, rfl, rfl⟩)

theorem ErrExplained.of_cleared (h : r'.err = false) : ErrExplained site idle r r' := fun err => by simp [h] at err

theorem ErrExplained.of_recordFault {code : ErrCode} {detail : ErrDetail} {pos : Word64} (hi : idle)
    (hs : site code detail pos) (hd : r'.done = false) (ho : r'.outLen = 0#64) :
    ErrExplained site idle r (r'.recordFault code detail pos) :=
  fun _ => .inr ⟨hi, code, detail, pos, hs, ⟨hd, ho, rfl, rfl, rfl⟩⟩

end

/-- A busy engine shows neither DONE nor an OUT_LEN (10_state.md R20). -/
theorem StatusOk.of_busy {busy : Bool} {r : Regs} (h : StatusOk busy r) (hb : busy = true) :
    r.done = false ∧ r.outLen = 0#64 := by
  obtain ⟨notDone, _, _, _, _, outLen⟩ := h
  refine ⟨by simpa [hb] using notDone, ?_⟩
  by_contra ho
  obtain ⟨notBusy, _⟩ := outLen ho
  simp [hb] at notBusy

theorem EncPhase.busy_of_ne_idle {p : EncPhase} (h : p ≠ .idle) : p.busy = true := by
  cases p with
  | idle => exact absurd rfl h
  | header | scan | tail => rfl

theorem DecPhase.busy_of_ne_idle {p : DecPhase} (h : p ≠ .idle) : p.busy = true := by
  cases p with
  | idle => exact absurd rfl h
  | header | body | check => rfl

/-! ### The sites (60_exceptions.md R120) -/

/-- The faults ENC can raise from its state `e`, with their positions; `started` says that the move runs its START. -/
inductive EncFaultSite (e : Enc) (started : Prop) : ErrCode → ErrDetail → Word64 → Prop where
  | tooLarge : e.phase = .idle → started → EncFaultSite e started .inputTooLarge .none 0#64
  | beyond : e.phase = .idle → started → EncFaultSite e started .bufferBounds .none 0#64
  | header : e.phase = .header → EncFaultSite e started .allocationFailure .none 0#64
  | scan : e.phase = .scan → EncFaultSite e started .allocationFailure .none e.job.i
  | tail : e.phase = .tail → EncFaultSite e started .allocationFailure .none e.job.n

/-- The faults DEC can raise from its state `d`, with their positions; `started` says that the move runs its START. -/
inductive DecFaultSite (d : Dec) (started : Prop) : ErrCode → ErrDetail → Word64 → Prop where
  | beyond : d.phase = .idle → started → DecFaultSite d started .bufferBounds .none 0#64
  | short : d.phase = .idle → started → DecFaultSite d started .malformedEncoding .shortHeader 0#64
  | header : d.phase = .header → DecFaultSite d started .allocationFailure .none 0#64
  | body : d.phase = .body → DecFaultSite d started .malformedEncoding .overflow d.job.i
  | check : d.phase = .check → DecFaultSite d started .malformedEncoding .underfill d.job.len

/-- A move from `s` to `t` explains ENC's ERR by ENC's sites. -/
abbrev EncErrExplained (started : Prop) (s t : State) : Prop :=
  ErrExplained (EncFaultSite s.enc started) (t.enc.phase = .idle) s.enc.regs t.enc.regs

/-- A move from `s` to `t` explains DEC's ERR by DEC's sites. -/
abbrev DecErrExplained (started : Prop) (s t : State) : Prop :=
  ErrExplained (DecFaultSite s.dec started) (t.dec.phase = .idle) s.dec.regs t.dec.regs

/-! ### The moves of the engines -/

theorem EncMove.encErrExplained {s t : State} (h : EncMove s t) (ok : StatusOk s.enc.phase.busy s.enc.regs)
    (started : Prop) : EncErrExplained started s t := by
  have raised {code : ErrCode} {pos : Word64} (busy : s.enc.phase ≠ .idle)
      (site : EncFaultSite s.enc started code .none pos) :
      EncErrExplained started s (s.raiseFault .enc code .none pos) := by
    obtain ⟨done, outLen⟩ := ok.of_busy (EncPhase.busy_of_ne_idle busy)
    exact .of_recordFault rfl site done outLen
  cases h with
  | idle => exact .of_eq rfl
  | header | extend | flush | complete => exact .of_same ⟨rfl, rfl, rfl, rfl⟩
  | headerFault hp => exact raised (by simp [hp]) (.header hp)
  | scanFault hp => exact raised (by simp [hp]) (.scan hp)
  | tailFault hp => exact raised (by simp [hp]) (.tail hp)

theorem DecMove.decErrExplained {s t : State} (h : DecMove s t) (ok : StatusOk s.dec.phase.busy s.dec.regs)
    (started : Prop) : DecErrExplained started s t := by
  have ended (busy : s.dec.phase ≠ .idle) : s.dec.regs.done = false ∧ s.dec.regs.outLen = 0#64 :=
    ok.of_busy (DecPhase.busy_of_ne_idle busy)
  cases h with
  | idle => exact .of_eq rfl
  | header | unit | complete => exact .of_same ⟨rfl, rfl, rfl, rfl⟩
  | headerFault orig hp =>
    obtain ⟨done, outLen⟩ := ended (by simp [hp])
    exact .of_recordFault (r' := { s.dec.regs with hdrLen := orig }) rfl (.header hp) done outLen
  | overflow c k hp =>
    obtain ⟨done, outLen⟩ := ended (by simp [hp])
    exact .of_recordFault rfl (.body hp) done outLen
  | underfill hp =>
    obtain ⟨done, outLen⟩ := ended (by simp [hp])
    exact .of_recordFault rfl (.check hp) done outLen

/-! ### The moves of the host -/

theorem EncStarted.encErrExplained {s t : State} (h : EncStarted s t) {started : Prop} (hs : started) :
    EncErrExplained started s t := by
  cases h with
  | ignored => exact .of_eq rfl
  | tooLarge hp => exact .of_recordFault rfl (.tooLarge hp hs) rfl rfl
  | beyond hp => exact .of_recordFault rfl (.beyond hp hs) rfl rfl
  | begun => exact .of_cleared rfl

theorem DecStarted.decErrExplained {s t : State} (h : DecStarted s t) {started : Prop} (hs : started) :
    DecErrExplained started s t := by
  cases h with
  | ignored => exact .of_eq rfl
  | beyond hp => exact .of_recordFault rfl (.beyond hp hs) rfl rfl
  | short hp => exact .of_recordFault rfl (.short hp hs) rfl rfl
  | begun => exact .of_cleared rfl

theorem EncStarted.dec {s t : State} (h : EncStarted s t) : t.dec = s.dec := by cases h <;> rfl

theorem DecStarted.enc {s t : State} (h : DecStarted s t) : t.enc = s.enc := by cases h <;> rfl

theorem HostMove.encErrExplained {s t : State} {i : Instr} (h : HostMove s i t) {started : Prop}
    (hs : ∀ data, i = .encStart data → started) : EncErrExplained started s t := by
  cases h with
  | startEnc data t h => exact h.encErrExplained (hs data rfl)
  | startDec data t h => exact .of_eq (congrArg Enc.regs h.enc)
  | clearEnc => exact .of_cleared rfl
  | irqEn e | srcLen e => cases e <;> exact .of_same ⟨rfl, rfl, rfl, rfl⟩
  | writeByte => exact .of_eq (State.setByte_encRegs _ _ _ _)
  | clearDec | read | readByte | nothing => exact .of_eq rfl

theorem HostMove.decErrExplained {s t : State} {i : Instr} (h : HostMove s i t) {started : Prop}
    (hs : ∀ data, i = .decStart data → started) : DecErrExplained started s t := by
  cases h with
  | startDec data t h => exact h.decErrExplained (hs data rfl)
  | startEnc data t h => exact .of_eq (congrArg Dec.regs h.dec)
  | clearDec => exact .of_cleared rfl
  | irqEn e | srcLen e => cases e <;> exact .of_same ⟨rfl, rfl, rfl, rfl⟩
  | writeByte => exact .of_eq (State.setByte_decRegs _ _ _ _)
  | clearEnc | read | readByte | nothing => exact .of_eq rfl

/-! ### The step -/

theorem step_encErrExplained {s t : State} (hi : Inv s) (h : step s = .next t) :
    EncErrExplained (∃ data u, fetch s = .instr (.encStart data) u) s t := by
  obtain ⟨u, hu, _, move⟩ := step_next h
  rw [EncErrExplained, ← hu.enc]
  obtain rfl | rfl | ⟨i, hf, _, hm⟩ | hm | hm := move
  · exact .of_eq rfl
  · exact .of_cleared rfl
  · exact hm.encErrExplained fun data hd => ⟨data, u, hd ▸ hf⟩
  · exact hm.encErrExplained (hu.inv hi).encStatus _
  · exact .of_eq (congrArg Enc.regs hm.others.1)

theorem step_decErrExplained {s t : State} (hi : Inv s) (h : step s = .next t) :
    DecErrExplained (∃ data u, fetch s = .instr (.decStart data) u) s t := by
  obtain ⟨u, hu, _, move⟩ := step_next h
  rw [DecErrExplained, ← hu.dec]
  obtain rfl | rfl | ⟨i, hf, _, hm⟩ | hm | hm := move
  · exact .of_eq rfl
  · exact .of_cleared rfl
  · exact hm.decErrExplained fun data hd => ⟨data, u, hd ▸ hf⟩
  · exact .of_eq (congrArg Dec.regs hm.others.1)
  · exact hm.decErrExplained (hu.inv hi).decStatus _

/-- Settles O48: each engine's ERR after a step is explained, and its sites are the rows of the list. -/
theorem faultsComeFromTheListedSites : Obligations.FaultsComeFromTheListedSites := by
  refine fun s t hi h => ⟨fun err => ?enc, fun err => ?dec⟩
  case enc =>
    obtain same | ⟨idle, code, detail, pos, site, shown⟩ := step_encErrExplained hi h err
    · exact .inl ⟨same.err ▸ err, same.code, same.detail, same.errPos⟩
    · have none : detail = .none := by cases site <;> rfl
      refine .inr ⟨idle, shown.done, shown.outLen, shown.detail.trans none, ?_⟩
      cases site with
      | tooLarge hp hs => exact .inl ⟨hp, hs, shown.errPos, .inl shown.code⟩
      | beyond hp hs => exact .inl ⟨hp, hs, shown.errPos, .inr shown.code⟩
      | header hp => exact .inr (.inl ⟨hp, shown.code, shown.errPos⟩)
      | scan hp => exact .inr (.inr (.inl ⟨hp, shown.code, shown.errPos⟩))
      | tail hp => exact .inr (.inr (.inr ⟨hp, shown.code, shown.errPos⟩))
  case dec =>
    obtain same | ⟨idle, code, detail, pos, site, shown⟩ := step_decErrExplained hi h err
    · exact .inl ⟨same.err ▸ err, same.code, same.detail, same.errPos⟩
    · refine .inr ⟨idle, shown.done, shown.outLen, ?_⟩
      cases site with
      | beyond hp hs => exact .inl ⟨hp, hs, shown.errPos, .inl ⟨shown.code, shown.detail⟩⟩
      | short hp hs => exact .inl ⟨hp, hs, shown.errPos, .inr ⟨shown.code, shown.detail⟩⟩
      | header hp => exact .inr (.inl ⟨hp, shown.code, shown.detail, shown.errPos⟩)
      | body hp => exact .inr (.inr (.inl ⟨hp, shown.code, shown.detail, shown.errPos⟩))
      | check hp => exact .inr (.inr (.inr ⟨hp, shown.code, shown.detail, shown.errPos⟩))

end Sys2Proof.Machine
end

section
/-! SUPPORT. A START on a busy engine (70_reset_and_hazards.md R141). -/

namespace Sys2Proof.Machine

theorem startEnc_of_busy {s : State} (h : s.busy .enc = true) : startEnc s = s :=
  if_pos h

theorem startDec_of_busy {s : State} (h : s.busy .dec = true) : startDec s = s :=
  if_pos h

/-- Settles O16: each engine's START checks BUSY first, and answers its state when it is set. -/
theorem startWhileBusyIsIgnored : Obligations.StartWhileBusyIsIgnored := by
  refine fun s data => ⟨fun h => ?enc, fun h => ?dec⟩
  case enc => rw [exec_encStart, startEnc_of_busy h]
  case dec => rw [exec_decStart, startDec_of_busy h]

end Sys2Proof.Machine
end

section
/-! SUPPORT. What one step of the machine can do to one engine, said once, and from it what each step does to STATUS,
OUT_LEN and the phase (10_state.md R20, R28, R30; 60_exceptions.md R134). -/

namespace Sys2Proof.Machine

/-! ### What a step can do to an engine -/

/-- The registers that the STATUS invariants speak of read the same in `r'` as in `r`. -/
structure SameStatus (r r' : Regs) : Prop where
  done : r'.done = r.done
  err : r'.err = r.err
  code : r'.code = r.code
  detail : r'.detail = r.detail
  outLen : r'.outLen = r.outLen

theorem SameStatus.of_eq {r r' : Regs} (h : r' = r) : SameStatus r r' := h ▸ ⟨rfl, rfl, rfl, rfl, rfl⟩

/-- From `s` to `t` ENC keeps its phase, its job, its status and HDR_LEN, and its SRC while it is busy. -/
structure EncKept (s t : State) : Prop where
  phase : t.enc.phase = s.enc.phase
  job : t.enc.job = s.enc.job
  status : SameStatus s.enc.regs t.enc.regs
  hdrLen : t.enc.regs.hdrLen = s.enc.regs.hdrLen
  src : s.enc.phase ≠ .idle → ∀ k, t.byteAt .encSrc k = s.byteAt .encSrc k

/-- From `s` to `t` DEC keeps its phase, its job, its status and HDR_LEN. -/
structure DecKept (s t : State) : Prop where
  phase : t.dec.phase = s.dec.phase
  job : t.dec.job = s.dec.job
  status : SameStatus s.dec.regs t.dec.regs
  hdrLen : t.dec.regs.hdrLen = s.dec.regs.hdrLen

/-- What a step of the machine from `s` to `t` can do to ENC: keep it so; reset it; run its START or its CLR; or make
one of its moves. -/
inductive EncChange (s t : State) : Prop where
  | kept (h : EncKept s t)
  | reset (h : t.enc = Enc.reset)
  | started (data : Word) (u : State) (ran : fetch s = .instr (.encStart data) u) (same : SameBlock s u)
      (h : EncStarted u t)
  | cleared (data : Word) (u : State) (ran : fetch s = .instr (.encClr data) u) (idle : s.enc.phase = .idle)
      (h : t.enc = { s.enc with regs := s.enc.regs.clearStatus })
  | moved (u : State) (same : SameBlock s u) (h : EncMove u t)

/-- What a step of the machine from `s` to `t` can do to DEC. -/
inductive DecChange (s t : State) : Prop where
  | kept (h : DecKept s t)
  | reset (h : t.dec = Dec.reset)
  | started (data : Word) (u : State) (ran : fetch s = .instr (.decStart data) u) (same : SameBlock s u)
      (h : DecStarted u t)
  | cleared (data : Word) (u : State) (ran : fetch s = .instr (.decClr data) u) (idle : s.dec.phase = .idle)
      (h : t.dec = { s.dec with regs := s.dec.regs.clearStatus })
  | moved (u : State) (same : SameBlock s u) (h : DecMove u t)

theorem EncKept.of_enc {s t : State} (h : t.enc = s.enc) (he : t.epoch = s.epoch) : EncKept s t where
  phase := congrArg Enc.phase h
  job := congrArg Enc.job h
  status := .of_eq (congrArg Enc.regs h)
  hdrLen := congrArg (fun e => e.regs.hdrLen) h
  src := fun _ => State.byteAt_congr (congrArg Enc.src h : t.mem .encSrc = s.mem .encSrc) he

theorem DecKept.of_dec {s t : State} (h : t.dec = s.dec) : DecKept s t :=
  ⟨congrArg Dec.phase h, congrArg Dec.job h, .of_eq (congrArg Dec.regs h), congrArg (fun d => d.regs.hdrLen) h⟩

/-- What ENC keeps from a state with the same block, it keeps. -/
theorem EncKept.after {s u t : State} (h : EncKept u t) (hu : SameBlock s u) : EncKept s t where
  phase := hu.enc ▸ h.phase
  job := hu.enc ▸ h.job
  status := hu.enc ▸ h.status
  hdrLen := hu.enc ▸ h.hdrLen
  src := fun busy k => (h.src (hu.enc ▸ busy) k).trans (hu.byteAt .encSrc k)

theorem DecKept.after {s u t : State} (h : DecKept u t) (hu : SameBlock s u) : DecKept s t where
  phase := hu.dec ▸ h.phase
  job := hu.dec ▸ h.job
  status := hu.dec ▸ h.status
  hdrLen := hu.dec ▸ h.hdrLen

theorem EncPhase.eq_idle_of_not_busy {p : EncPhase} (h : p.busy = false) : p = .idle := by
  cases p with
  | idle => rfl
  | header | scan | tail => cases h

theorem DecPhase.eq_idle_of_not_busy {p : DecPhase} (h : p.busy = false) : p = .idle := by
  cases p with
  | idle => rfl
  | header | body | check => cases h

theorem DecStarted.epoch {s t : State} (h : DecStarted s t) : t.epoch = s.epoch := by cases h <;> rfl

/-- A write to a buffer of an idle engine leaves the SRC of a busy ENC. -/
theorem EncKept.of_setByte {s : State} {b : Buffer} (hb : s.busy b.engine = false) (idx : Nat) (data : Byte) :
    EncKept s (s.setByte b idx data) where
  phase := State.setByte_encPhase s b idx data
  job := State.setByte_encJob s b idx data
  status := .of_eq (State.setByte_encRegs s b idx data)
  hdrLen := congrArg Regs.hdrLen (State.setByte_encRegs s b idx data)
  src := fun busy k => by
    have other : Buffer.encSrc ≠ b := by
      rintro rfl
      exact busy (EncPhase.eq_idle_of_not_busy hb)
    rw [State.byteAt_setByte, if_neg fun h => other h.1]

theorem HostMove.encChange {s u t : State} {i : Instr} (h : HostMove u i t) (hu : SameBlock s u)
    (ran : fetch s = .instr i u) : EncChange s t := by
  have kept (h : EncKept u t) : EncChange s t := .kept (h.after hu)
  cases h with
  | read | readByte | nothing | clearDec => exact kept (.of_enc rfl rfl)
  | startDec data t h => exact kept (.of_enc h.enc h.epoch)
  | startEnc data t h => exact .started data u ran hu h
  | clearEnc data idle =>
    have idle : s.enc.phase = .idle := hu.enc ▸ EncPhase.eq_idle_of_not_busy idle
    exact .cleared data u ran idle (by rw [← hu.enc]; rfl)
  | irqEn e | srcLen e =>
    cases e with
    | enc => exact kept ⟨rfl, rfl, ⟨rfl, rfl, rfl, rfl, rfl⟩, rfl, fun _ _ => rfl⟩
    | dec => exact kept (.of_enc rfl rfl)
  | writeByte b idx data idle => exact kept (.of_setByte idle idx.toNat data)

theorem HostMove.decChange {s u t : State} {i : Instr} (h : HostMove u i t) (hu : SameBlock s u)
    (ran : fetch s = .instr i u) : DecChange s t := by
  have kept (h : DecKept u t) : DecChange s t := .kept (h.after hu)
  cases h with
  | read | readByte | nothing | clearEnc => exact kept (.of_dec rfl)
  | startEnc data t h => exact kept (.of_dec h.dec)
  | startDec data t h => exact .started data u ran hu h
  | clearDec data idle =>
    have idle : s.dec.phase = .idle := hu.dec ▸ DecPhase.eq_idle_of_not_busy idle
    exact .cleared data u ran idle (by rw [← hu.dec]; rfl)
  | irqEn e | srcLen e =>
    cases e with
    | enc => exact kept (.of_dec rfl)
    | dec => exact kept ⟨rfl, rfl, ⟨rfl, rfl, rfl, rfl, rfl⟩, rfl⟩
  | writeByte b idx data =>
    exact kept ⟨State.setByte_decPhase _ _ _ _, State.setByte_decJob _ _ _ _,
      .of_eq (State.setByte_decRegs _ _ _ _), congrArg Regs.hdrLen (State.setByte_decRegs _ _ _ _)⟩

theorem step_encChange {s t : State} (h : step s = .next t) : EncChange s t := by
  obtain ⟨u, hu, _, rfl | rfl | ⟨i, ran, _, hm⟩ | hm | hm⟩ := step_next h
  · exact .kept (.of_enc hu.enc hu.epoch)
  · exact .reset rfl
  · exact hm.encChange hu ran
  · exact .moved u hu hm
  · obtain ⟨enc, _, epoch, _⟩ := hm.others
    exact .kept (.of_enc (enc.trans hu.enc) (epoch.trans hu.epoch))

theorem step_decChange {s t : State} (h : step s = .next t) : DecChange s t := by
  obtain ⟨u, hu, _, rfl | rfl | ⟨i, ran, _, hm⟩ | hm | hm⟩ := step_next h
  · exact .kept (.of_dec hu.dec)
  · exact .reset rfl
  · exact hm.decChange hu ran
  · obtain ⟨dec, _⟩ := hm.others
    exact .kept (.of_dec (dec.trans hu.dec))
  · exact .moved u hu hm

/-! ### The phase and DONE (10_state.md R28, R30; 60_exceptions.md R134) -/

/-- A START of an idle ENC ends in IDLE or in HEADER. -/
theorem EncStarted.header_of_ne_idle {s t : State} (h : EncStarted s t) (hs : s.enc.phase = .idle)
    (ht : t.enc.phase ≠ .idle) : t.enc.phase = .header := by
  cases h with
  | ignored => exact absurd hs ht
  | tooLarge | beyond => exact absurd rfl ht
  | begun => rfl

theorem DecStarted.header_of_ne_idle {s t : State} (h : DecStarted s t) (hs : s.dec.phase = .idle)
    (ht : t.dec.phase ≠ .idle) : t.dec.phase = .header := by
  cases h with
  | ignored => exact absurd hs ht
  | beyond | short => exact absurd rfl ht
  | begun => rfl

theorem EncMove.eq_of_idle {s t : State} (h : EncMove s t) (hs : s.enc.phase = .idle) : t = s := by
  cases h with
  | idle => rfl
  | headerFault hp | header hp | extend hp | flush hp | scanFault hp | complete hp | tailFault hp =>
    cases hs.symm.trans hp

theorem DecMove.eq_of_idle {s t : State} (h : DecMove s t) (hs : s.dec.phase = .idle) : t = s := by
  cases h with
  | idle => rfl
  | header _ hp | headerFault _ hp | unit _ _ _ hp | overflow _ _ hp | complete hp | underfill hp =>
    cases hs.symm.trans hp

/-- Settles O47: of all that a step can do to an idle engine, its START alone leaves it busy. -/
theorem onlyStartLeavesIdle : Obligations.OnlyStartLeavesIdle := by
  refine fun s t h => ⟨fun hs ht => ?enc, fun hs ht => ?dec⟩
  case enc =>
    cases step_encChange h with
    | kept same => exact absurd (same.phase.trans hs) ht
    | reset he => exact absurd (congrArg Enc.phase he) ht
    | started data u ran same h => exact ⟨data, u, ran, h.header_of_ne_idle (same.enc ▸ hs) ht⟩
    | cleared _ _ _ _ he => exact absurd ((congrArg Enc.phase he).trans hs) ht
    | moved u same hm =>
      have hu : u.enc.phase = .idle := same.enc ▸ hs
      exact absurd (hm.eq_of_idle hu ▸ hu) ht
  case dec =>
    cases step_decChange h with
    | kept same => exact absurd (same.phase.trans hs) ht
    | reset he => exact absurd (congrArg Dec.phase he) ht
    | started data u ran same h => exact ⟨data, u, ran, h.header_of_ne_idle (same.dec ▸ hs) ht⟩
    | cleared _ _ _ _ he => exact absurd ((congrArg Dec.phase he).trans hs) ht
    | moved u same hm =>
      have hu : u.dec.phase = .idle := same.dec ▸ hs
      exact absurd (hm.eq_of_idle hu ▸ hu) ht

/-- A START never sets DONE: it clears it, or is ignored. -/
theorem EncStarted.done {s t : State} (h : EncStarted s t) (hs : s.enc.regs.done = false) :
    t.enc.regs.done = false := by
  cases h with
  | ignored => exact hs
  | tooLarge | beyond | begun => rfl

theorem DecStarted.done {s t : State} (h : DecStarted s t) (hs : s.dec.regs.done = false) :
    t.dec.regs.done = false := by
  cases h with
  | ignored => exact hs
  | beyond | short | begun => rfl

/-- Of ENC's moves only the completion in TAIL sets DONE (41_encoder.md R91). -/
theorem EncMove.sets_done {s t : State} (h : EncMove s t) (hs : s.enc.regs.done = false)
    (ht : t.enc.regs.done = true) :
    s.enc.phase = .tail ∧ t.enc.phase = .idle ∧ t.enc.regs.outLen = t.enc.job.outPos := by
  cases h with
  | complete hp => exact ⟨hp, rfl, rfl⟩
  | idle | headerFault | header | extend | flush | scanFault | tailFault => cases hs.symm.trans ht

/-- Of DEC's moves only the completion in CHECK sets DONE (42_decoder.md R111). -/
theorem DecMove.sets_done {s t : State} (h : DecMove s t) (hs : s.dec.regs.done = false)
    (ht : t.dec.regs.done = true) :
    s.dec.phase = .check ∧ t.dec.phase = .idle ∧ s.dec.job.w.toNat = s.dec.job.orig.toNat := by
  cases h with
  | complete hp filled => exact ⟨hp, rfl, filled⟩
  | idle | header | headerFault | unit | overflow | underfill => cases hs.symm.trans ht

/-- Settles O49: of all that a step can do to an engine, its completing move alone sets DONE. -/
theorem onlyCompletionSetsDone : Obligations.OnlyCompletionSetsDone := by
  refine fun s t h => ⟨fun hs ht => ?enc, fun hs ht => ?dec⟩
  case enc =>
    cases step_encChange h with
    | kept same => cases (same.status.done.trans hs).symm.trans ht
    | reset he | cleared _ _ _ _ he => cases (congrArg (fun e => e.regs.done) he).symm.trans ht
    | started data u ran same h => cases (h.done (same.enc ▸ hs)).symm.trans ht
    | moved u same hm => exact same.enc ▸ hm.sets_done (same.enc ▸ hs) ht
  case dec =>
    cases step_decChange h with
    | kept same => cases (same.status.done.trans hs).symm.trans ht
    | reset he | cleared _ _ _ _ he => cases (congrArg (fun d => d.regs.done) he).symm.trans ht
    | started data u ran same h => cases (h.done (same.dec ▸ hs)).symm.trans ht
    | moved u same hm => exact same.dec ▸ hm.sets_done (same.dec ▸ hs) ht

/-! ### The STATUS invariants (10_state.md R20) -/

/-- The STATUS invariants are about DONE, ERR, ERRCODE, ERRDETAIL and OUT_LEN alone. -/
theorem StatusOk.of_same {busy : Bool} {r r' : Regs} (h : StatusOk busy r) (same : SameStatus r r') :
    StatusOk busy r' := by
  simpa only [StatusOk, same.done, same.err, same.code, same.detail, same.outLen] using h

theorem StatusOk.clearForStart (busy : Bool) (r : Regs) : StatusOk busy r.clearForStart := by
  simp [StatusOk, Regs.clearForStart, Regs.clearStatus]

/-- CLR keeps OUT_LEN, which an idle engine without ERR may show. -/
theorem StatusOk.clearStatus (r : Regs) : StatusOk false r.clearStatus := by
  simp [StatusOk, Regs.clearStatus]

/-- A fault of a busy engine: DONE and OUT_LEN were 0 and stay so. -/
theorem StatusOk.recordFault {r : Regs} {code : ErrCode} {detail : ErrDetail} (h : StatusOk true r)
    (hc : code ≠ .none) (hd : detail ≠ .none → code = .malformedEncoding) (pos : Word64) :
    StatusOk false (r.recordFault code detail pos) := by
  obtain ⟨done, outLen⟩ := h.of_busy rfl
  simpa [StatusOk, Regs.recordFault, done, outLen, hc] using hd

/-- The completion of a busy engine, which shows no fault. -/
theorem StatusOk.recordDone {r : Regs} (h : StatusOk true r) (outLen : Word64) :
    StatusOk false (r.recordDone outLen) := by
  obtain ⟨_, notErr, _, code, detail, _⟩ := h
  have err : r.err = false := by simpa using notErr
  simpa [StatusOk, Regs.recordDone, err] using ⟨by simpa [err] using code, detail⟩

theorem StatusOk.reset : StatusOk false Regs.reset := by
  simp [StatusOk, Regs.reset]

theorem EncStarted.statusOk {s t : State} (h : EncStarted s t) (ok : StatusOk s.enc.phase.busy s.enc.regs) :
    StatusOk t.enc.phase.busy t.enc.regs := by
  have latched := StatusOk.clearForStart true s.enc.regs
  cases h with
  | ignored => exact ok
  | tooLarge | beyond => exact latched.recordFault (by decide) nofun 0#64
  | begun => exact latched

theorem DecStarted.statusOk {s t : State} (h : DecStarted s t) (ok : StatusOk s.dec.phase.busy s.dec.regs) :
    StatusOk t.dec.phase.busy t.dec.regs := by
  have latched := StatusOk.clearForStart true s.dec.regs
  cases h with
  | ignored => exact ok
  | beyond => exact latched.recordFault (by decide) nofun 0#64
  | short => exact latched.recordFault (by decide) (fun _ => rfl) 0#64
  | begun => exact latched

theorem encAdvance_busy {s : State} (h : s.enc.phase.busy = true) : (encAdvance s).enc.phase.busy = true := by
  change EncPhase.busy (if _ then .tail else s.enc.phase) = true
  split
  · rfl
  · exact h

theorem decAdvance_busy {s : State} (size : Nat) (h : s.dec.phase.busy = true) :
    (decAdvance size s).dec.phase.busy = true := by
  change DecPhase.busy (if _ then .check else s.dec.phase) = true
  split
  · rfl
  · exact h

theorem encHeaderDone_busy (s : State) : (encHeaderDone s).enc.phase.busy = true := by
  change EncPhase.busy (if _ then .tail else .scan) = true
  split <;> rfl

theorem decHeaderDone_busy (orig : Word) (s : State) : (decHeaderDone orig s).dec.phase.busy = true := by
  change DecPhase.busy (if _ then .check else .body) = true
  split <;> rfl

theorem EncMove.statusOk {s t : State} (h : EncMove s t) (ok : StatusOk s.enc.phase.busy s.enc.regs) :
    StatusOk t.enc.phase.busy t.enc.regs := by
  have busy {p : EncPhase} (hp : s.enc.phase = p) (hb : p.busy = true) : s.enc.phase.busy = true := hp ▸ hb
  have goesOn {p : EncPhase} (hs : s.enc.phase.busy = true) (hp : p.busy = true) : StatusOk p.busy s.enc.regs := by
    rwa [hp, ← hs]
  have faults (hs : s.enc.phase.busy = true) (pos : Word64) :
      StatusOk false (s.enc.regs.recordFault .allocationFailure .none pos) :=
    (hs ▸ ok).recordFault (by decide) nofun pos
  cases h with
  | idle => exact ok
  | headerFault hp | scanFault hp | tailFault hp => exact faults (busy hp rfl) _
  | header hp => exact (goesOn (busy hp rfl) (encHeaderDone_busy s)).of_same ⟨rfl, rfl, rfl, rfl, rfl⟩
  | extend hp | flush hp => exact goesOn (busy hp rfl) (encAdvance_busy (busy hp rfl))
  | complete hp => exact (busy hp rfl ▸ ok).recordDone _

theorem DecMove.statusOk {s t : State} (h : DecMove s t) (ok : StatusOk s.dec.phase.busy s.dec.regs) :
    StatusOk t.dec.phase.busy t.dec.regs := by
  have busy {p : DecPhase} (hp : s.dec.phase = p) (hb : p.busy = true) : s.dec.phase.busy = true := hp ▸ hb
  have goesOn {p : DecPhase} (hs : s.dec.phase.busy = true) (hp : p.busy = true) : StatusOk p.busy s.dec.regs := by
    rwa [hp, ← hs]
  have malformed (hs : s.dec.phase.busy = true) (detail : ErrDetail) (pos : Word64) :
      StatusOk false (s.dec.regs.recordFault .malformedEncoding detail pos) :=
    (hs ▸ ok).recordFault (by decide) (fun _ => rfl) pos
  cases h with
  | idle => exact ok
  | header orig hp => exact (goesOn (busy hp rfl) (decHeaderDone_busy orig s)).of_same ⟨rfl, rfl, rfl, rfl, rfl⟩
  | headerFault orig hp =>
    have ok : StatusOk true { s.dec.regs with hdrLen := orig } := busy hp rfl ▸ ok
    exact ok.recordFault (by decide) nofun _
  | unit c count size hp => exact goesOn (busy hp rfl) (decAdvance_busy size (busy hp rfl))
  | overflow c k hp => exact malformed (busy hp rfl) _ _
  | underfill hp => exact malformed (busy hp rfl) _ _
  | complete hp => exact (busy hp rfl ▸ ok).recordDone _

theorem EncChange.statusOk {s t : State} (h : EncChange s t) (ok : StatusOk s.enc.phase.busy s.enc.regs) :
    StatusOk t.enc.phase.busy t.enc.regs := by
  cases h with
  | kept same => exact same.phase ▸ ok.of_same same.status
  | reset he => exact he ▸ StatusOk.reset
  | started data u ran same h => exact h.statusOk (same.enc ▸ ok)
  | cleared data u ran idle he =>
    rw [he]
    exact idle ▸ StatusOk.clearStatus s.enc.regs
  | moved u same hm => exact hm.statusOk (same.enc ▸ ok)

theorem DecChange.statusOk {s t : State} (h : DecChange s t) (ok : StatusOk s.dec.phase.busy s.dec.regs) :
    StatusOk t.dec.phase.busy t.dec.regs := by
  cases h with
  | kept same => exact same.phase ▸ ok.of_same same.status
  | reset he => exact he ▸ StatusOk.reset
  | started data u ran same h => exact h.statusOk (same.dec ▸ ok)
  | cleared data u ran idle he =>
    rw [he]
    exact idle ▸ StatusOk.clearStatus s.dec.regs
  | moved u same hm => exact hm.statusOk (same.dec ▸ ok)

/-! ### OUT_LEN without DONE (10_state.md R20 (d); 40_control.md R72) -/

/-- OUT_LEN is not 0 only when DONE = 1: R20's own clause (d). -/
def OutLenShown (r : Regs) : Prop := r.outLen ≠ 0#64 → r.done = true

theorem OutLenShown.of_same {r r' : Regs} (h : OutLenShown r) (same : SameStatus r r') : OutLenShown r' := by
  simpa only [OutLenShown, same.outLen, same.done] using h

theorem OutLenShown.of_zero {r : Regs} (h : r.outLen = 0#64) : OutLenShown r := fun ho => absurd h ho

theorem EncStarted.outLenShown {s t : State} (h : EncStarted s t) (shown : OutLenShown s.enc.regs) :
    OutLenShown t.enc.regs := by
  cases h with
  | ignored => exact shown
  | tooLarge | beyond | begun => exact .of_zero rfl

theorem DecStarted.outLenShown {s t : State} (h : DecStarted s t) (shown : OutLenShown s.dec.regs) :
    OutLenShown t.dec.regs := by
  cases h with
  | ignored => exact shown
  | beyond | short | begun => exact .of_zero rfl

/-- No move of ENC but its completion writes OUT_LEN or DONE, and that one sets DONE. -/
theorem EncMove.outLenShown {s t : State} (h : EncMove s t) (shown : OutLenShown s.enc.regs) :
    OutLenShown t.enc.regs := by
  cases h with
  | idle | headerFault | header | extend | flush | scanFault | tailFault => exact shown
  | complete => exact fun _ => rfl

theorem DecMove.outLenShown {s t : State} (h : DecMove s t) (shown : OutLenShown s.dec.regs) :
    OutLenShown t.dec.regs := by
  cases h with
  | idle | header | headerFault | unit | overflow | underfill => exact shown
  | complete => exact fun _ => rfl

/-- Only CLR can leave OUT_LEN without DONE. -/
theorem EncChange.outLenShown {s t : State} (h : EncChange s t) (shown : OutLenShown s.enc.regs) :
    OutLenShown t.enc.regs ∨ ∃ data u, fetch s = .instr (.encClr data) u := by
  cases h with
  | kept same => exact .inl (shown.of_same same.status)
  | reset he => exact .inl (.of_zero (congrArg (fun e => e.regs.outLen) he))
  | started data u ran same h => exact .inl (h.outLenShown (same.enc ▸ shown))
  | cleared data u ran => exact .inr ⟨data, u, ran⟩
  | moved u same hm => exact .inl (hm.outLenShown (same.enc ▸ shown))

theorem DecChange.outLenShown {s t : State} (h : DecChange s t) (shown : OutLenShown s.dec.regs) :
    OutLenShown t.dec.regs ∨ ∃ data u, fetch s = .instr (.decClr data) u := by
  cases h with
  | kept same => exact .inl (shown.of_same same.status)
  | reset he => exact .inl (.of_zero (congrArg (fun d => d.regs.outLen) he))
  | started data u ran same h => exact .inl (h.outLenShown (same.dec ▸ shown))
  | cleared data u ran => exact .inr ⟨data, u, ran⟩
  | moved u same hm => exact .inl (hm.outLenShown (same.dec ▸ shown))

/-! ### What reads of STATUS and OUT_LEN return -/

theorem ErrCode.bits_ne_zero_iff (c : ErrCode) : c.bits ≠ 0#4 ↔ c ≠ .none := by cases c <;> decide

theorem ErrCode.bits_eq_two_iff (c : ErrCode) : c.bits = 2#4 ↔ c = .malformedEncoding := by cases c <;> decide

theorem ErrDetail.bits_ne_zero_iff (d : ErrDetail) : d.bits ≠ 0#4 ↔ d ≠ .none := by cases d <;> decide

/-- A register pair reads 0 in both halves exactly when its value is 0. -/
theorem halfOf_ne_zero_iff (v : Word64) : (halfOf .lo v ≠ 0#32 ∨ halfOf .hi v ≠ 0#32) ↔ v ≠ 0#64 := by
  rw [← not_and_or, not_iff_not]
  constructor
  · rintro ⟨lo, hi⟩
    have value := halfOf_toNat_add v
    rw [lo, hi] at value
    exact BitVec.eq_of_toNat_eq value.symm
  · rintro rfl
    exact ⟨halfOf_zero .lo, halfOf_zero .hi⟩

/-- The STATUS invariants, said of what reads return. -/
theorem statusOk_iff_reads (s : State) (e : Engine) :
    (let v := s.readReg e .status
    ¬ (v.getLsbD 0 = true ∧ v.getLsbD 1 = true) ∧ ¬ (v.getLsbD 0 = true ∧ v.getLsbD 2 = true) ∧
    ¬ (v.getLsbD 1 = true ∧ v.getLsbD 2 = true) ∧
    (v.extractLsb' 4 4 ≠ 0#4 ↔ v.getLsbD 2 = true) ∧
    (v.extractLsb' 8 4 ≠ 0#4 → v.extractLsb' 4 4 = 2#4) ∧
    (s.readReg e .outLenLo ≠ 0#32 ∨ s.readReg e .outLenHi ≠ 0#32 → v.getLsbD 0 = false ∧ v.getLsbD 2 = false)) ↔
    StatusOk (s.busy e) (s.regs e) := by
  simp only [State.readReg, statusWord_busy, statusWord_done, statusWord_err, statusWord_code, statusWord_detail,
    ErrCode.bits_ne_zero_iff, ErrCode.bits_eq_two_iff, ErrDetail.bits_ne_zero_iff, halfOf_ne_zero_iff, StatusOk]

/-- R20's clause (d), said of what reads return. -/
theorem outLenShown_iff_reads (s : State) (e : Engine) :
    (s.readReg e .outLenLo ≠ 0#32 ∨ s.readReg e .outLenHi ≠ 0#32 → (s.readReg e .status).getLsbD 1 = true) ↔
    OutLenShown (s.regs e) := by
  simp only [State.readReg, statusWord_done, halfOf_ne_zero_iff, OutLenShown]

/-- Every step keeps the STATUS invariants of both engines. -/
theorem step_statusOk {s t : State} (h : step s = .next t) (ok : ∀ e, StatusOk (s.busy e) (s.regs e)) (e : Engine) :
    StatusOk (t.busy e) (t.regs e) := by
  cases e with
  | enc => exact (step_encChange h).statusOk (ok .enc)
  | dec => exact (step_decChange h).statusOk (ok .dec)

/-- Settles O42: the reads say the STATUS invariants and clause (d), which reset meets and the steps keep. -/
theorem statusBitsStayConsistent : Obligations.StatusBitsStayConsistent := by
  unfold Obligations.StatusBitsStayConsistent
  intro ok okd
  refine ⟨fun caps e => ⟨?reset, ?resetD⟩, fun s t hs h e => ?step, fun s t hs h => ⟨?enc, ?dec⟩⟩
  case reset =>
    refine (statusOk_iff_reads _ e).mpr ?_
    rw [State.busy_resetWith, State.regs_resetWith]
    exact .reset
  case resetD =>
    refine (outLenShown_iff_reads _ e).mpr (.of_zero ?_)
    rw [State.regs_resetWith]
    rfl
  case step => exact (statusOk_iff_reads t e).mpr (step_statusOk h (fun e => (statusOk_iff_reads s e).mp (hs e)) e)
  case enc =>
    have shown := (outLenShown_iff_reads s .enc).mp (hs .enc).2
    exact ((step_encChange h).outLenShown shown).imp_left (outLenShown_iff_reads t .enc).mpr
  case dec =>
    have shown := (outLenShown_iff_reads s .dec).mp (hs .dec).2
    exact ((step_decChange h).outLenShown shown).imp_left (outLenShown_iff_reads t .dec).mpr

end Sys2Proof.Machine
end

section
/-! SUPPORT. The invariant of the machine: reset meets it, every step keeps it, and from it no engine leaves its buffers
(10_state.md R20; 20_memory.md R37, R40; 41_encoder.md R86, R95; 42_decoder.md R106, R114). -/

namespace Sys2Proof.Machine

/-! ### ENC's working registers, by phase -/

theorem EncJobOk.of_idle {s : State} (hp : s.enc.phase = .idle) : EncJobOk s := by
  simp only [EncJobOk, hp]

theorem EncJobOk.at_header {s : State} (h : EncJobOk s) (hp : s.enc.phase = .header) :
    s.enc.job.n.toNat < 2 ^ 32 ∧ s.enc.job.n.toNat ≤ s.cap .encSrc ∧ s.enc.job.i = 0#64 ∧
      s.enc.job.runStart = 0#64 ∧ s.enc.job.runChar = 0#8 ∧ s.enc.job.outPos = 0#64 := by
  simpa only [EncJobOk, hp] using h

theorem EncJobOk.at_scan {s : State} (h : EncJobOk s) (hp : s.enc.phase = .scan) :
    s.enc.job.i.toNat < s.enc.job.n.toNat ∧ EncScanOk s := by
  simpa only [EncJobOk, hp] using h

theorem EncJobOk.at_tail {s : State} (h : EncJobOk s) (hp : s.enc.phase = .tail) :
    s.enc.job.i = s.enc.job.n ∧ EncScanOk s := by
  simpa only [EncJobOk, hp] using h

/-- Between two steps of the scan the phase says whether a byte is left. -/
theorem EncJobOk.of_scan {s : State} (ok : EncScanOk s) (hi : s.enc.job.i.toNat ≤ s.enc.job.n.toNat)
    (hp : s.enc.phase = if s.enc.job.i.toNat = s.enc.job.n.toNat then .tail else .scan) : EncJobOk s := by
  split at hp
  case isTrue last => simpa only [EncJobOk, hp] using ⟨BitVec.eq_of_toNat_eq last, ok⟩
  case isFalse more => simpa only [EncJobOk, hp] using ⟨by omega, ok⟩

theorem State.cap_congr {s t : State} (h : t.caps = s.caps) (b : Buffer) : t.cap b = s.cap b := by
  rw [State.cap, h, State.cap]

theorem EncKept.encJobOk {s t : State} (h : EncKept s t) (hc : t.caps = s.caps) (ok : EncJobOk s) : EncJobOk t := by
  have cap := State.cap_congr hc
  have scan (busy : s.enc.phase ≠ .idle) (ok : EncScanOk s) : EncScanOk t := by
    simpa only [EncScanOk, h.job, h.hdrLen, h.src busy, cap] using ok
  cases hp : s.enc.phase with
  | idle => exact .of_idle (h.phase.trans hp)
  | header => simpa only [EncJobOk, h.phase, hp, h.job, cap] using ok.at_header hp
  | scan =>
    obtain ⟨hi, ok⟩ := ok.at_scan hp
    simpa only [EncJobOk, h.phase, hp, h.job] using ⟨hi, scan (by simp [hp]) ok⟩
  | tail =>
    obtain ⟨hi, ok⟩ := ok.at_tail hp
    simpa only [EncJobOk, h.phase, hp, h.job] using ⟨hi, scan (by simp [hp]) ok⟩

/-- The header leaves nothing counted, and 4 bytes written. -/
theorem encHeaderDone_jobOk {s : State} (ok : EncJobOk s) (hp : s.enc.phase = .header) (h4 : 4 ≤ s.cap .encDst) :
    EncJobOk (encHeaderDone s) := by
  obtain ⟨hn, hcap, hi, hrs, _, _⟩ := ok.at_header hp
  have low : (s.enc.job.n.extractLsb' 0 32).toNat = s.enc.job.n.toNat := by
    rw [BitVec.extractLsb'_toNat, Nat.shiftRight_zero, Nat.mod_eq_of_lt hn]
  refine .of_scan ?_ ?_ ?_
  · refine ⟨hn, hcap, ?_, ?_, ?_, ?_, Nat.le_refl 4, h4, Nat.le_add_right _ _, low⟩
    · change s.enc.job.runStart.toNat ≤ s.enc.job.i.toNat; simp [hi, hrs]
    · change s.enc.job.i.toNat - s.enc.job.runStart.toNat ≤ 255; simp [hi]
    · change 0 < s.enc.job.i.toNat → _; simp [hi]
    · change ∀ k, _ → k < s.enc.job.i.toNat → _; simp [hi]
  · change s.enc.job.i.toNat ≤ s.enc.job.n.toNat; simp [hi]
  · change (if s.enc.job.n.toNat = 0 then EncPhase.tail else .scan) =
      if s.enc.job.i.toNat = s.enc.job.n.toNat then _ else _
    simp [hi, eq_comm]

/-- A byte that continues a counted run below 255 is counted into it. -/
theorem encAdvance_jobOk {s : State} (ok : EncJobOk s) (hp : s.enc.phase = .scan)
    (hc : s.byteAt .encSrc s.enc.job.i.toNat = s.enc.job.runChar)
    (hl : s.enc.job.i.toNat - s.enc.job.runStart.toNat ≠ 255) : EncJobOk (encAdvance s) := by
  obtain ⟨hi, hn, hcap, hrs, hrun, hne, hbytes, h4, hout, hbound, hhdr⟩ := ok.at_scan hp
  obtain ⟨counter, phase⟩ := encAdvance_counts hp rfl rfl hi
  refine .of_scan ?_ (by rw [counter]; exact hi) (by rw [phase, counter]; rfl)
  refine ⟨hn, hcap, ?_, ?_, fun _ => ?_, fun k hk hki => ?_, h4, hout, hbound, hhdr⟩
  · rw [counter]; exact Nat.le_succ_of_le hrs
  · rw [counter]; change s.enc.job.i.toNat + 1 - s.enc.job.runStart.toNat ≤ 255; omega
  · rw [counter]; exact Nat.lt_succ_of_le hrs
  · rw [counter] at hki
    rw [encAdvance_byteAt]
    rcases Nat.lt_or_eq_of_le (Nat.le_of_lt_succ hki) with hki | rfl
    · exact hbytes k hk hki
    · exact hc

/-- The unit of a counted run takes at most one and a half times the run's bytes (41_encoder.md R95). -/
theorem two_mul_runUnit_length_le (ch : Byte) (len : Nat) : 2 * (runUnit ch len).length ≤ 3 * len := by
  match len with
  | 0 | 1 => simp [runUnit]
  | len + 2 => simp only [runUnit, List.length_cons, List.length_nil]; omega

/-- Between two steps of the scan the output is within DST. -/
theorem EncScanOk.outPos_le {s : State} (ok : EncScanOk s) : s.enc.job.outPos.toNat ≤ s.cap .encDst := by
  obtain ⟨_, _, _, _, _, _, _, hout, _⟩ := ok
  exact hout

/-- An emitted unit that fits moves the write index on without a wrap. -/
theorem encEmitted_outPos_toNat {s : State} {u : List Byte} (h : s.enc.job.outPos.toNat + u.length ≤ s.cap .encDst) :
    (encEmitted u s).enc.job.outPos.toNat = s.enc.job.outPos.toNat + u.length := by
  have bound : s.cap .encDst < 2 ^ 64 := (s.caps.get .encDst).isLt
  change (BitVec.ofNat 64 (s.enc.job.outPos.toNat + u.length)).toNat = _
  rw [BitVec.toNat_ofNat, Nat.mod_eq_of_lt (by omega)]

theorem encFlushed_counts {s : State} (hp : s.enc.phase = .scan) (hi : s.enc.job.i.toNat < s.enc.job.n.toNat) :
    (encFlushed s).enc.job.i.toNat = s.enc.job.i.toNat + 1 ∧
    (encFlushed s).enc.phase = if s.enc.job.i.toNat + 1 = s.enc.job.n.toNat then .tail else .scan :=
  encAdvance_counts (v := encRestart (s.byteAt .encSrc s.enc.job.i.toNat) (encEmitted (encRun s s.enc.job.i) s))
    hp rfl rfl hi

/-- A byte that ends the counted run is the first one of the next run. -/
theorem encFlushed_jobOk {s : State} (ok : EncJobOk s) (hp : s.enc.phase = .scan)
    (fits : s.enc.job.outPos.toNat + (encRun s s.enc.job.i).length ≤ s.cap .encDst) : EncJobOk (encFlushed s) := by
  obtain ⟨hi, hn, hcap, hrs, hrun, _, _, h4, hout, hbound, hhdr⟩ := ok.at_scan hp
  obtain ⟨counter, phase⟩ := encFlushed_counts hp hi
  have unit := two_mul_runUnit_length_le s.enc.job.runChar (s.enc.job.i.toNat - s.enc.job.runStart.toNat)
  have outPos : (encFlushed s).enc.job.outPos.toNat = s.enc.job.outPos.toNat + (encRun s s.enc.job.i).length :=
    encEmitted_outPos_toNat fits
  refine .of_scan ?_ (by rw [counter]; exact hi) (by rw [counter]; exact phase)
  refine ⟨hn, hcap, ?_, ?_, fun _ => ?_, fun k hk hki => ?_, ?_, ?_, ?_, hhdr⟩
  · rw [counter]; exact Nat.le_succ _
  · rw [counter]; exact (Nat.add_sub_cancel_left (n := s.enc.job.i.toNat) (m := 1)).trans_le (by decide)
  · rw [counter]; exact Nat.lt_succ_self _
  · rw [counter] at hki
    obtain rfl : k = s.enc.job.i.toNat := Nat.le_antisymm (Nat.le_of_lt_succ hki) hk
    rw [encFlushed_byteAt]
    exact s.sameBytesBut_setBytes .encDst _ _ .encSrc _ (.inl (by decide))
  · rw [outPos]; omega
  · rw [outPos]; exact fits
  · rw [outPos, encRun]
    change _ ≤ 8 + 3 * s.enc.job.i.toNat
    omega

theorem EncMove.jobOk {s t : State} (h : EncMove s t) (ok : EncJobOk s) : EncJobOk t := by
  cases h with
  | idle => exact ok
  | headerFault | scanFault | complete | tailFault => exact .of_idle rfl
  | header hp h4 => exact encHeaderDone_jobOk ok hp h4
  | extend hp _ _ hc hl => exact encAdvance_jobOk ok hp hc hl
  | flush hp _ _ _ hf =>
    obtain ⟨_, scan⟩ := ok.at_scan hp
    exact encFlushed_jobOk ok hp (encRun_fits scan.outPos_le hf)

theorem EncStarted.jobOk {s t : State} (h : EncStarted s t) (ok : EncJobOk s) : EncJobOk t := by
  cases h with
  | ignored => exact ok
  | tooLarge | beyond => exact .of_idle rfl
  | begun _ hn hc => exact ⟨hn, hc, rfl, rfl, rfl, rfl⟩

theorem EncChange.jobOk {s t : State} (h : EncChange s t) (hc : t.caps = s.caps) (ok : EncJobOk s) : EncJobOk t := by
  cases h with
  | kept same => exact same.encJobOk hc ok
  | reset he => exact .of_idle (congrArg Enc.phase he)
  | started data u ran same h => exact h.jobOk (ok.congr same.enc same.caps same.epoch)
  | cleared data u ran idle he => exact .of_idle ((congrArg Enc.phase he).trans idle)
  | moved u same hm => exact hm.jobOk (ok.congr same.enc same.caps same.epoch)

/-! ### DEC's working registers, by phase -/

theorem DecJobOk.of_idle {s : State} (hp : s.dec.phase = .idle) : DecJobOk s := by
  simp only [DecJobOk, hp]

theorem DecJobOk.at_header {s : State} (h : DecJobOk s) (hp : s.dec.phase = .header) :
    4 ≤ s.dec.job.len.toNat ∧ s.dec.job.len.toNat ≤ s.cap .decSrc ∧ s.dec.job.i = 0#64 ∧ s.dec.job.w = 0#64 ∧
      s.dec.job.orig = 0#32 := by
  simpa only [DecJobOk, hp] using h

theorem DecJobOk.at_body {s : State} (h : DecJobOk s) (hp : s.dec.phase = .body) :
    s.dec.job.i.toNat < s.dec.job.len.toNat ∧ DecBodyOk s := by
  simpa only [DecJobOk, hp] using h

/-- Between two steps of the body the phase says whether the stream goes on. -/
theorem DecJobOk.of_body {s : State} (ok : DecBodyOk s) (hi : s.dec.job.i.toNat ≤ s.dec.job.len.toNat)
    (hp : s.dec.phase = if s.dec.job.i = s.dec.job.len then .check else .body) : DecJobOk s := by
  split at hp
  case isTrue last => simpa only [DecJobOk, hp] using ⟨last, ok⟩
  case isFalse more =>
    have inside : s.dec.job.i.toNat ≠ s.dec.job.len.toNat := fun h => more (BitVec.eq_of_toNat_eq h)
    simpa only [DecJobOk, hp] using ⟨by omega, ok⟩

theorem DecKept.decJobOk {s t : State} (h : DecKept s t) (hc : t.caps = s.caps) (ok : DecJobOk s) : DecJobOk t := by
  simpa only [DecJobOk, DecBodyOk, h.phase, h.job, h.hdrLen, State.cap_congr hc] using ok

theorem decHeaderDone_jobOk {s : State} (ok : DecJobOk s) (hp : s.dec.phase = .header) {orig : Word}
    (ho : orig.toNat ≤ s.cap .decDst) : DecJobOk (decHeaderDone orig s) := by
  obtain ⟨hlen, hcap, _⟩ := ok.at_header hp
  refine .of_body ⟨Nat.le_refl 4, hcap, Nat.zero_le _, ho, rfl⟩ hlen ?_
  change (if s.dec.job.len = 4#64 then DecPhase.check else .body) = if 4#64 = s.dec.job.len then _ else _
  simp only [eq_comm]

/-- The bytes of the unit at `i` end where the stream does or before it. -/
theorem unit_inside {s : State} {count size : Nat} (hi : s.dec.job.i.toNat < s.dec.job.len.toNat)
    (hs : size = 1 ∧ count = 1 ∨ size = 3 ∧ count < 256 ∧ s.dec.job.i.toNat + 2 < s.dec.job.len.toNat) :
    s.dec.job.i.toNat + size ≤ s.dec.job.len.toNat := by
  omega

/-- A move inside the stream does not wrap `i`. -/
theorem decAdvance_i_toNat {s : State} {size : Nat} (h : s.dec.job.i.toNat + size ≤ s.dec.job.len.toNat) :
    (decAdvance size s).dec.job.i.toNat = s.dec.job.i.toNat + size := by
  have bound := s.dec.job.len.isLt
  change (BitVec.ofNat 64 (s.dec.job.i.toNat + size)).toNat = _
  rw [BitVec.toNat_ofNat, Nat.mod_eq_of_lt (by omega)]

/-- Appending copies that fit does not wrap `w`. -/
theorem decAppended_w_toNat {s : State} {count : Nat} (hw : s.dec.job.w.toNat ≤ s.dec.job.orig.toNat)
    (h : count = 0 ∨ s.dec.job.w.toNat + count ≤ s.dec.job.orig.toNat) (c : Byte) :
    (decAppended c count s).dec.job.w.toNat = s.dec.job.w.toNat + count := by
  have bound := s.dec.job.orig.isLt
  rw [decAppended_decW, BitVec.toNat_ofNat, Nat.mod_eq_of_lt (by omega)]

theorem decUnit_jobOk {s : State} (ok : DecJobOk s) (hp : s.dec.phase = .body) (c : Byte) {count size : Nat}
    (hs : size = 1 ∧ count = 1 ∨ size = 3 ∧ count < 256 ∧ s.dec.job.i.toNat + 2 < s.dec.job.len.toNat)
    (hw : count = 0 ∨ s.dec.job.w.toNat + count ≤ s.dec.job.orig.toNat) :
    DecJobOk (decAdvance size (decAppended c count s)) := by
  obtain ⟨hi, h4, hcap, hwo, hoc, hhdr⟩ := ok.at_body hp
  have inside := unit_inside hi hs
  have counter := decAdvance_i_toNat (s := decAppended c count s) inside
  have produced : (decAdvance size (decAppended c count s)).dec.job.w.toNat = s.dec.job.w.toNat + count :=
    decAppended_w_toNat hwo hw c
  refine .of_body ⟨?_, hcap, ?_, hoc, hhdr⟩ ?_ ?_
  · rw [counter]; exact Nat.le_add_right_of_le h4
  · rw [produced]; change _ ≤ s.dec.job.orig.toNat; omega
  · rw [counter]; exact inside
  · change (if _ then DecPhase.check else s.dec.phase) = _
    rw [hp]
    rfl

theorem DecMove.jobOk {s t : State} (h : DecMove s t) (ok : DecJobOk s) : DecJobOk t := by
  cases h with
  | idle => exact ok
  | headerFault | overflow | complete | underfill => exact .of_idle rfl
  | header orig hp ho => exact decHeaderDone_jobOk ok hp ho
  | unit c count size hp hs hw => exact decUnit_jobOk ok hp c hs hw

theorem DecStarted.jobOk {s t : State} (h : DecStarted s t) (ok : DecJobOk s) : DecJobOk t := by
  cases h with
  | ignored => exact ok
  | beyond | short => exact .of_idle rfl
  | begun _ hc hn => exact ⟨hn, hc, rfl, rfl, rfl⟩

theorem DecChange.jobOk {s t : State} (h : DecChange s t) (hc : t.caps = s.caps) (ok : DecJobOk s) : DecJobOk t := by
  cases h with
  | kept same => exact same.decJobOk hc ok
  | reset he => exact .of_idle (congrArg Dec.phase he)
  | started data u ran same h => exact h.jobOk (ok.congr same.dec same.caps)
  | cleared data u ran idle he => exact .of_idle ((congrArg Dec.phase he).trans idle)
  | moved u same hm => exact hm.jobOk (ok.congr same.dec same.caps)


/-! ### The codes an engine records (60_exceptions.md R118) -/

theorem EncStarted.code_ne {s t : State} (h : EncStarted s t) (ok : s.enc.regs.code ≠ .malformedEncoding) :
    t.enc.regs.code ≠ .malformedEncoding := by
  cases h with
  | ignored => exact ok
  | tooLarge | beyond | begun => exact nofun

theorem EncMove.code_ne {s t : State} (h : EncMove s t) (ok : s.enc.regs.code ≠ .malformedEncoding) :
    t.enc.regs.code ≠ .malformedEncoding := by
  cases h with
  | idle | header | extend | flush | complete => exact ok
  | headerFault | scanFault | tailFault => exact nofun

theorem EncChange.code_ne {s t : State} (h : EncChange s t) (ok : s.enc.regs.code ≠ .malformedEncoding) :
    t.enc.regs.code ≠ .malformedEncoding := by
  cases h with
  | kept same => exact same.status.code ▸ ok
  | reset he | cleared _ _ _ _ he => rw [he]; exact nofun
  | started data u ran same h => exact h.code_ne (same.enc ▸ ok)
  | moved u same hm => exact hm.code_ne (same.enc ▸ ok)

theorem DecStarted.code_ne {s t : State} (h : DecStarted s t) (ok : s.dec.regs.code ≠ .inputTooLarge) :
    t.dec.regs.code ≠ .inputTooLarge := by
  cases h with
  | ignored => exact ok
  | beyond | short | begun => exact nofun

theorem DecMove.code_ne {s t : State} (h : DecMove s t) (ok : s.dec.regs.code ≠ .inputTooLarge) :
    t.dec.regs.code ≠ .inputTooLarge := by
  cases h with
  | idle | header | unit | complete => exact ok
  | headerFault | overflow | underfill => exact nofun

theorem DecChange.code_ne {s t : State} (h : DecChange s t) (ok : s.dec.regs.code ≠ .inputTooLarge) :
    t.dec.regs.code ≠ .inputTooLarge := by
  cases h with
  | kept same => exact same.status.code ▸ ok
  | reset he | cleared _ _ _ _ he => rw [he]; exact nofun
  | started data u ran same h => exact h.code_ne (same.dec ▸ ok)
  | moved u same hm => exact hm.code_ne (same.dec ▸ ok)

/-! ### The buffers (20_memory.md R37) -/

theorem EncStarted.mem {s t : State} (h : EncStarted s t) (b : Buffer) : t.mem b = s.mem b := by
  cases h <;> cases b <;> rfl

theorem DecStarted.mem {s t : State} (h : DecStarted s t) (b : Buffer) : t.mem b = s.mem b := by
  cases h <;> cases b <;> rfl

/-- A state with the same written bytes and the same capacities has its buffers in order as well. -/
theorem BuffersOk.of_same {s t : State} (ok : BuffersOk s) (hm : ∀ b, t.mem b = s.mem b) (hc : t.caps = s.caps) :
    BuffersOk t :=
  State.buffersOk_congr hm (State.cap_congr hc) ok

theorem HostMove.buffersOk {s t : State} {i : Instr} (h : HostMove s i t) (ok : BuffersOk s) : BuffersOk t := by
  have hc := h.caps
  cases h with
  | startEnc data t h => exact ok.of_same h.mem hc
  | startDec data t h => exact ok.of_same h.mem hc
  | read | readByte | nothing => exact ok.of_same (fun b => by cases b <;> rfl) hc
  | clearEnc | clearDec | irqEn | srcLen => exact ok.of_same (State.mem_updRegs s _ _) hc
  | writeByte b idx data _ hi => exact State.buffersOk_setByte ok hi

/-- Emitted bytes that fit are within DST. -/
theorem encEmitted_buffersOk {s : State} (ok : BuffersOk s) {u : List Byte}
    (h : s.enc.job.outPos.toNat + u.length ≤ s.cap .encDst) : BuffersOk (encEmitted u s) :=
  (State.buffersOk_setBytes ok h).of_same (encEmitted_mem u s) rfl

theorem encRun_fits_of_jobOk {s : State} (job : EncJobOk s) (hp : s.enc.phase = .scan ∨ s.enc.phase = .tail)
    {pos : Word64} (h : pos.toNat = s.enc.job.runStart.toNat ∨
      s.enc.job.outPos.toNat + (encRun s pos).length ≤ s.cap .encDst) :
    s.enc.job.outPos.toNat + (encRun s pos).length ≤ s.cap .encDst := by
  have scan : EncScanOk s := hp.elim (fun hp => (job.at_scan hp).2) (fun hp => (job.at_tail hp).2)
  exact encRun_fits scan.outPos_le h

theorem EncMove.buffersOk {s t : State} (h : EncMove s t) (job : EncJobOk s) (ok : BuffersOk s) : BuffersOk t := by
  cases h with
  | idle => exact ok
  | headerFault | scanFault | tailFault => exact ok.of_same (State.mem_raiseFault s _ _ _ _) rfl
  | header _ h4 =>
    exact (State.buffersOk_setBytes (vs := leBytes (s.enc.job.n.extractLsb' 0 32)) ok h4).of_same
      (fun b => by cases b <;> rfl) rfl
  | extend => exact ok.of_same (fun b => by cases b <;> rfl) rfl
  | flush hp _ _ _ hf =>
    exact (encEmitted_buffersOk ok (encRun_fits_of_jobOk job (.inl hp) hf)).of_same (fun b => by cases b <;> rfl) rfl
  | complete hp _ hf =>
    exact (encEmitted_buffersOk ok (encRun_fits_of_jobOk job (.inr hp) hf)).of_same (fun b => by cases b <;> rfl) rfl

/-- Appended copies that fit are within DST. -/
theorem decAppended_buffersOk {s : State} (job : DecJobOk s) (hp : s.dec.phase = .body) (ok : BuffersOk s) (c : Byte)
    {count : Nat} (hw : count = 0 ∨ s.dec.job.w.toNat + count ≤ s.dec.job.orig.toNat) :
    BuffersOk (decAppended c count s) := by
  obtain ⟨_, _, _, hwo, hoc, _⟩ := job.at_body hp
  have fits : s.dec.job.w.toNat + (List.replicate count c).length ≤ s.cap .decDst := by
    rw [List.length_replicate]; omega
  exact (State.buffersOk_setBytes ok fits).of_same (decAppended_mem c count s) rfl

theorem DecMove.buffersOk {s t : State} (h : DecMove s t) (job : DecJobOk s) (ok : BuffersOk s) : BuffersOk t := by
  cases h with
  | idle => exact ok
  | header | headerFault | complete | underfill => exact ok.of_same (fun b => by cases b <;> rfl) rfl
  | unit c count size hp _ hw =>
    exact (decAppended_buffersOk job hp ok c hw).of_same (fun b => by cases b <;> rfl) rfl
  | overflow c k hp _ hw =>
    exact (decAppended_buffersOk job hp ok c hw).of_same (fun b => by cases b <;> rfl) rfl

/-! ### The invariant -/

/-- Both engines in their reset state meet the invariant, whatever the capacities. -/
theorem Inv.of_reset {s : State} (he : s.enc = Enc.reset) (hd : s.dec = Dec.reset) : Inv s where
  encStatus := he ▸ StatusOk.reset
  decStatus := hd ▸ StatusOk.reset
  buffers := fun b => by
    have unwritten : s.mem b = [] := by cases b <;> simp only [State.mem, he, hd] <;> rfl
    rw [unwritten]
    exact ⟨.nil, nofun⟩
  encJob := .of_idle (congrArg Enc.phase he)
  decJob := .of_idle (congrArg Dec.phase hd)
  codes := by
    rw [CodesOk, he, hd]
    exact ⟨nofun, nofun⟩

/-- Settles O39: reset is a state with both engines reset. -/
theorem invariantHoldsAtReset : Obligations.InvariantHoldsAtReset := fun _ => .of_reset rfl rfl

theorem step_buffersOk {s t : State} (hi : Inv s) (h : step s = .next t) : BuffersOk t := by
  obtain ⟨u, hu, _, rfl | rfl | ⟨i, _, _, hm⟩ | hm | hm⟩ := step_next h
  · exact (hu.inv hi).buffers
  · exact (Inv.of_reset rfl rfl).buffers
  · exact hm.buffersOk (hu.inv hi).buffers
  · exact hm.buffersOk (hu.inv hi).encJob (hu.inv hi).buffers
  · exact hm.buffersOk (hu.inv hi).decJob (hu.inv hi).buffers

theorem step_inv {s t : State} (hi : Inv s) (h : step s = .next t) : Inv t where
  encStatus := (step_encChange h).statusOk hi.encStatus
  decStatus := (step_decChange h).statusOk hi.decStatus
  buffers := step_buffersOk hi h
  encJob := (step_encChange h).jobOk (step_caps h) hi.encJob
  decJob := (step_decChange h).jobOk (step_caps h) hi.decJob
  codes := ⟨(step_encChange h).code_ne hi.codes.1, (step_decChange h).code_ne hi.codes.2⟩

/-- Settles O40: part by part, by what the step did to each engine and to the buffers. -/
theorem everyStepKeepsTheInvariant : Obligations.EveryStepKeepsTheInvariant := fun _ _ => step_inv

/-! ### No fault of the model (20_memory.md R40; 41_encoder.md R86; 42_decoder.md R114) -/

/-- In a state of the invariant ENC has a move. -/
theorem encStep_moves {s : State} (ok : EncJobOk s) : ∃ t, encStep s = .next t ∧ EncMove s t := by
  rcases encStep_cases s with moves | ⟨_, hp, beyond⟩ | ⟨_, ⟨hp, negative⟩ | ⟨hp, negative⟩⟩
  · exact moves
  · obtain ⟨hi, _, hcap, _⟩ := ok.at_scan hp
    omega
  · obtain ⟨_, _, _, hrs, _⟩ := ok.at_scan hp
    omega
  · obtain ⟨last, _, _, hrs, _⟩ := ok.at_tail hp
    rw [last] at hrs
    omega

/-- In a state of the invariant DEC has a move. -/
theorem decStep_moves {s : State} (ok : DecJobOk s) : ∃ t, decStep s = .next t ∧ DecMove s t := by
  rcases decStep_cases s with moves | ⟨_, _, ⟨hp, short⟩ | ⟨hp, outside⟩⟩
  · exact moves
  · obtain ⟨hlen, hcap, _⟩ := ok.at_header hp
    omega
  · obtain ⟨hi, _, hcap, _, hoc, _⟩ := ok.at_body hp
    omega

/-- Settles O41: a fault of the model is an engine's, and in a state of the invariant both engines have a move. -/
theorem enginesNeverLeaveTheirBuffers : Obligations.EnginesNeverLeaveTheirBuffers := by
  intro s f hi h
  obtain ⟨u, hu, _, h' | h' | ⟨r, h'⟩ | ⟨i, t, _, _, h', _⟩ | h' | h'⟩ := step_cases s
  · cases h.symm.trans h'
  · cases h.symm.trans h'
  · cases h.symm.trans h'
  · cases h.symm.trans h'
  · obtain ⟨t, ht, _⟩ := encStep_moves (hu.inv hi).encJob
    cases h.symm.trans (h'.trans ht)
  · obtain ⟨t, ht, _⟩ := decStep_moves (hu.inv hi).decJob
    cases h.symm.trans (h'.trans ht)


end Sys2Proof.Machine
end

section
/-! SUPPORT. What an engine's step reads and writes: its footprint, its independence of the other engine, and the bound
of its counters (00_scope.md R8; 10_state.md R13; 20_memory.md R47, R52). -/

namespace Sys2Proof.Machine

/-! ### Independence (10_state.md R13; 60_exceptions.md R132) -/

/-- Two states that agree in ENC, the capacities and the reset number differ in what stands beside ENC only. -/
theorem eq_besideEnc {s s' : State} (he : s'.enc = s.enc) (hc : s'.caps = s.caps) (hn : s'.epoch = s.epoch) :
    s' = besideEnc s'.dec s'.program s'.schedule s'.reads s'.names s'.checks s := by
  rw [besideEnc, ← he, ← hc, ← hn]

theorem eq_besideDec {s s' : State} (hd : s'.dec = s.dec) (hc : s'.caps = s.caps) (hn : s'.epoch = s.epoch) :
    s' = besideDec s'.enc s'.program s'.schedule s'.reads s'.names s'.checks s := by
  rw [besideDec, ← hd, ← hc, ← hn]

/-- ENC's step from a state that agrees in ENC ends in the same ENC, with all the rest as it was. -/
theorem encStep_of_agree {s s' t : State} (he : s'.enc = s.enc) (hc : s'.caps = s.caps) (hn : s'.epoch = s.epoch)
    (h : encStep s = .next t) :
    encStep s' = .next (besideEnc s'.dec s'.program s'.schedule s'.reads s'.names s'.checks t) := by
  rw [eq_besideEnc he hc hn, encStep_besideEnc, h]
  rfl

theorem decStep_of_agree {s s' t : State} (hd : s'.dec = s.dec) (hc : s'.caps = s.caps) (hn : s'.epoch = s.epoch)
    (h : decStep s = .next t) :
    decStep s' = .next (besideDec s'.enc s'.program s'.schedule s'.reads s'.names s'.checks t) := by
  rw [eq_besideDec hd hc hn, decStep_besideDec, h]
  rfl

/-- Settles O45: a listed move of an engine is its step, which commutes with a change of all that stands beside it. -/
theorem enginesShareNoState : Obligations.EnginesShareNoState := by
  refine fun s s' t rest rest' hc hn => ⟨fun hs hs' he h => ?enc, fun hs hs' hd h => ?dec⟩
  case enc =>
    rw [step_of_enc_listed hs] at h
    exact ⟨_, (step_of_enc_listed hs').trans
      (encStep_of_agree (s := { s with schedule := rest }) (s' := { s' with schedule := rest' }) he hc hn h),
      rfl, rfl⟩
  case dec =>
    rw [step_of_dec_listed hs] at h
    exact ⟨_, (step_of_dec_listed hs').trans
      (decStep_of_agree (s := { s with schedule := rest }) (s' := { s' with schedule := rest' }) hd hc hn h),
      rfl, rfl⟩

/-! ### The order of the engines (20_memory.md R47 (d)) -/

theorem run_succ_of_step {s t : State} (h : step s = .next t) (k : Nat) :
    Host.Core.run Sys2Proof.core (k + 1) s = Host.Core.run Sys2Proof.core k t := by
  have h : Sys2Proof.core.step s = .next t := h
  simp only [Host.Core.run, h]

/-- Each engine where its own step from `s` leaves it, and all the rest as in `s`. -/
def bothMoved (s e d : State) : State := { s with enc := e.enc, dec := d.dec }

section
variable {s e d : State} (he : encStep s = .next e) (hd : decStep s = .next d) (me : EncMove s e) (md : DecMove s d)
include he hd me md

theorem run_enc_dec :
    Host.Core.run Sys2Proof.core 2 { s with schedule := .enc :: .dec :: s.schedule } = .next (bothMoved s e d) := by
  obtain ⟨_, capsE, epochE, _⟩ := me.others
  obtain ⟨_, capsD, epochD, _⟩ := md.others
  let mid := besideEnc s.dec s.program (.dec :: s.schedule) s.reads s.names s.checks e
  have first : step { s with schedule := .enc :: .dec :: s.schedule } = .next mid :=
    (step_of_enc_listed rfl).trans
      (encStep_of_agree (s := s) (s' := { s with schedule := .dec :: s.schedule }) rfl rfl rfl he)
  have second : step mid = .next (besideDec e.enc s.program s.schedule s.reads s.names s.checks d) :=
    (step_of_dec_listed rfl).trans
      (decStep_of_agree (s := s) (s' := { mid with schedule := s.schedule }) rfl capsE epochE hd)
  rw [run_succ_of_step first, run_succ_of_step second, bothMoved, ← capsD, ← epochD]
  rfl

theorem run_dec_enc :
    Host.Core.run Sys2Proof.core 2 { s with schedule := .dec :: .enc :: s.schedule } = .next (bothMoved s e d) := by
  obtain ⟨_, capsE, epochE, _⟩ := me.others
  obtain ⟨_, capsD, epochD, _⟩ := md.others
  let mid := besideDec s.enc s.program (.enc :: s.schedule) s.reads s.names s.checks d
  have first : step { s with schedule := .dec :: .enc :: s.schedule } = .next mid :=
    (step_of_dec_listed rfl).trans
      (decStep_of_agree (s := s) (s' := { s with schedule := .enc :: s.schedule }) rfl rfl rfl hd)
  have second : step mid = .next (besideEnc d.dec s.program s.schedule s.reads s.names s.checks e) :=
    (step_of_enc_listed rfl).trans
      (encStep_of_agree (s := s) (s' := { mid with schedule := s.schedule }) rfl capsD epochD he)
  rw [run_succ_of_step first, run_succ_of_step second, bothMoved, ← capsE, ← epochE]
  rfl

end

/-- The invariant does not speak of the listed interleaving. -/
theorem Inv.with_schedule {s : State} (hi : Inv s) (rest : List Agent) : Inv { s with schedule := rest } :=
  SameBlock.inv (s := s) ⟨rfl, rfl, rfl, rfl⟩ hi

/-- Settles O46: in a state of the invariant each engine has a move, and in either order both are made. -/
theorem engineInterleavingDoesNotMatter : Obligations.EngineInterleavingDoesNotMatter := by
  intro s rest hi
  have hi := hi.with_schedule rest
  obtain ⟨e, he, me⟩ := encStep_moves hi.encJob
  obtain ⟨d, hd, md⟩ := decStep_moves hi.decJob
  exact (run_enc_dec he hd me md).trans (run_dec_enc he hd me md).symm

/-! ### Footprints (20_memory.md R52; 10_state.md R21, R22) -/

/-- What an engine's move leaves of its own registers: the enables and the length the host wrote. -/
structure SameHostRegs (r r' : Regs) : Prop where
  doneIe : r'.doneIe = r.doneIe
  errIe : r'.errIe = r.errIe
  srcLen : r'.srcLen = r.srcLen

theorem EncMove.sameHostRegs {s t : State} (h : EncMove s t) :
    t.enc.src = s.enc.src ∧ SameHostRegs s.enc.regs t.enc.regs := by
  cases h <;> exact ⟨rfl, rfl, rfl, rfl⟩

theorem DecMove.sameHostRegs {s t : State} (h : DecMove s t) :
    t.dec.src = s.dec.src ∧ SameHostRegs s.dec.regs t.dec.regs := by
  cases h <;> exact ⟨rfl, rfl, rfl, rfl⟩

/-- From `s` to `t` ENC's counters do not go back, and the bytes between the write indices are the only ones that
changed. -/
structure EncWrote (s t : State) : Prop where
  outPos : s.enc.job.outPos.toNat ≤ t.enc.job.outPos.toNat
  i : s.enc.job.i.toNat ≤ t.enc.job.i.toNat
  bytes : SameBytesBut .encDst s.enc.job.outPos.toNat (t.enc.job.outPos.toNat - s.enc.job.outPos.toNat) s t

/-- From `s` to `t` DEC's counters do not go back, and the bytes between the write indices are the only ones that
changed. -/
structure DecWrote (s t : State) : Prop where
  w : s.dec.job.w.toNat ≤ t.dec.job.w.toNat
  i : s.dec.job.i.toNat ≤ t.dec.job.i.toNat
  bytes : SameBytesBut .decDst s.dec.job.w.toNat (t.dec.job.w.toNat - s.dec.job.w.toNat) s t

theorem EncWrote.of_bytes {s t : State} (hi : s.enc.job.i.toNat ≤ t.enc.job.i.toNat) {u : List Byte}
    (ho : t.enc.job.outPos.toNat = s.enc.job.outPos.toNat + u.length)
    (hb : ∀ c k, t.byteAt c k = (s.setBytes .encDst s.enc.job.outPos.toNat u).byteAt c k) : EncWrote s t where
  outPos := by omega
  i := hi
  bytes := by
    rw [ho, Nat.add_sub_cancel_left]
    exact (holds_of_byteAt_setBytes hb).2

theorem DecWrote.of_bytes {s t : State} (hi : s.dec.job.i.toNat ≤ t.dec.job.i.toNat) {u : List Byte}
    (hw : t.dec.job.w.toNat = s.dec.job.w.toNat + u.length)
    (hb : ∀ c k, t.byteAt c k = (s.setBytes .decDst s.dec.job.w.toNat u).byteAt c k) : DecWrote s t where
  w := by omega
  i := hi
  bytes := by
    rw [hw, Nat.add_sub_cancel_left]
    exact (holds_of_byteAt_setBytes hb).2

/-- A state with the same job and the same bytes. -/
theorem EncWrote.of_same {s t : State} (hj : t.enc.job.outPos = s.enc.job.outPos)
    (hi : s.enc.job.i.toNat ≤ t.enc.job.i.toNat) (hb : SameBytes s t) : EncWrote s t where
  outPos := Nat.le_of_eq (congrArg _ hj.symm)
  i := hi
  bytes := fun c k _ => hb c k

theorem DecWrote.of_same {s t : State} (hw : s.dec.job.w.toNat ≤ t.dec.job.w.toNat)
    (hi : s.dec.job.i.toNat ≤ t.dec.job.i.toNat) (hb : SameBytes s t) : DecWrote s t where
  w := hw
  i := hi
  bytes := fun c k _ => hb c k

theorem sameBytes_of_mem {s t : State} (hm : ∀ b, t.mem b = s.mem b) (he : t.epoch = s.epoch) : SameBytes s t :=
  fun b => State.byteAt_congr (hm b) he

theorem EncMove.wrote {s t : State} (h : EncMove s t) (ok : EncJobOk s) : EncWrote s t := by
  cases h with
  | idle => exact .of_same rfl (Nat.le_refl _) fun _ _ => rfl
  | headerFault | scanFault | tailFault =>
    exact .of_same rfl (Nat.le_refl _) (sameBytes_of_mem (State.mem_raiseFault s _ _ _ _) rfl)
  | header hp =>
    obtain ⟨_, _, _, _, _, start⟩ := ok.at_header hp
    refine .of_bytes (u := leBytes (s.enc.job.n.extractLsb' 0 32)) (Nat.le_refl _) ?_ ?_
    · rw [start]; rfl
    · rw [start]; exact encHeaderDone_byteAt s
  | extend hp =>
    obtain ⟨hi, _⟩ := ok.at_scan hp
    obtain ⟨counter, _⟩ := encAdvance_counts hp rfl rfl hi
    exact .of_same rfl (by rw [counter]; exact Nat.le_succ _) (encAdvance_byteAt s)
  | flush hp _ _ _ hf =>
    obtain ⟨hi, scan⟩ := ok.at_scan hp
    obtain ⟨counter, _⟩ := encFlushed_counts hp hi
    exact .of_bytes ((Nat.le_succ _).trans_eq counter.symm)
      (encEmitted_outPos_toNat (encRun_fits scan.outPos_le hf)) (encFlushed_byteAt s)
  | complete hp _ hf =>
    obtain ⟨_, scan⟩ := ok.at_tail hp
    exact .of_bytes (Nat.le_refl _) (encEmitted_outPos_toNat (encRun_fits scan.outPos_le hf)) (encFinished_byteAt s)

theorem DecMove.wrote {s t : State} (h : DecMove s t) (ok : DecJobOk s) : DecWrote s t := by
  cases h with
  | idle => exact .of_same (Nat.le_refl _) (Nat.le_refl _) fun _ _ => rfl
  | header orig hp =>
    obtain ⟨_, _, hi, hw, _⟩ := ok.at_header hp
    refine .of_same ?_ ?_ (sameBytes_of_mem (fun b => by cases b <;> rfl) rfl)
    · rw [hw]; exact Nat.zero_le _
    · rw [hi]; exact Nat.zero_le _
  | headerFault | complete | underfill =>
    exact .of_same (Nat.le_refl _) (Nat.le_refl _) (sameBytes_of_mem (fun b => by cases b <;> rfl) rfl)
  | unit c count size hp hs hw =>
    obtain ⟨hi, _, _, hwo, _⟩ := ok.at_body hp
    have counter := decAdvance_i_toNat (s := decAppended c count s) (unit_inside hi hs)
    refine .of_bytes (u := List.replicate count c) (by rw [counter]; exact Nat.le_add_right _ _) ?_ fun b k => ?_
    · rw [List.length_replicate]; exact decAppended_w_toNat hwo hw c
    · rw [decAdvance_byteAt, decAppended_byteAt]
  | overflow c k hp _ hw =>
    obtain ⟨_, _, _, hwo, _⟩ := ok.at_body hp
    refine .of_bytes (u := List.replicate k c) (Nat.le_refl _) ?_ fun b j => ?_
    · rw [List.length_replicate]; exact decAppended_w_toNat hwo hw c
    · rw [← decAppended_byteAt]
      exact State.byteAt_congr (State.mem_raiseFault _ _ _ _ _ b) rfl j

/-- Settles O44: a listed move of an engine is one of its moves, which leaves what stands beside it and writes from its
write index on. -/
theorem engineStepsStayInTheirFootprint : Obligations.EngineStepsStayInTheirFootprint := by
  refine fun s t rest hi => ⟨fun hs h => ?enc, fun hs h => ?dec⟩
  all_goals have hi := hi.with_schedule rest
  case enc =>
    obtain ⟨_, ht, move⟩ := encStep_moves hi.encJob
    cases h.symm.trans ((step_of_enc_listed hs).trans ht)
    obtain ⟨dec, caps, epoch, program, schedule, reads, names, checks⟩ := move.others
    obtain ⟨src, host⟩ := move.sameHostRegs
    have wrote := move.wrote hi.encJob
    exact ⟨dec, caps, epoch, program, schedule, reads, names, checks, src, host.doneIe, host.errIe, host.srcLen,
      wrote.outPos, wrote.i, wrote.bytes⟩
  case dec =>
    obtain ⟨_, ht, move⟩ := decStep_moves hi.decJob
    cases h.symm.trans ((step_of_dec_listed hs).trans ht)
    obtain ⟨enc, caps, epoch, program, schedule, reads, names, checks⟩ := move.others
    obtain ⟨src, host⟩ := move.sameHostRegs
    have wrote := move.wrote hi.decJob
    exact ⟨enc, caps, epoch, program, schedule, reads, names, checks, src, host.doneIe, host.errIe, host.srcLen,
      wrote.w, wrote.i, wrote.bytes⟩

end Sys2Proof.Machine
end

section
/-! SUPPORT. The bound of the counters (00_scope.md R8; 41_encoder.md R95; 42_decoder.md R114) and the end of every job
(70_reset_and_hazards.md R145, R146). -/

namespace Sys2Proof.Machine

/-! ### The counters (00_scope.md R8) -/

/-- A step leaves ENC's working registers, sets its counters to 0, or is a move of ENC. -/
theorem EncChange.job_cases {s t : State} (h : EncChange s t) :
    t.enc.job = s.enc.job ∨
    (t.enc.job.i = 0#64 ∧ t.enc.job.runStart = 0#64 ∧ t.enc.job.outPos = 0#64) ∨
    ∃ u, SameBlock s u ∧ EncMove u t := by
  cases h with
  | kept same => exact .inl same.job
  | reset he => exact .inr (.inl (he ▸ ⟨rfl, rfl, rfl⟩))
  | started data u ran same h =>
    cases h with
    | ignored => exact .inl (congrArg Enc.job same.enc)
    | tooLarge | beyond | begun => exact .inr (.inl ⟨rfl, rfl, rfl⟩)
  | cleared data u ran idle he => exact .inl (he ▸ rfl)
  | moved u same hm => exact .inr (.inr ⟨u, same, hm⟩)

/-- A step leaves DEC's working registers, sets its counters to 0, or is a move of DEC. -/
theorem DecChange.job_cases {s t : State} (h : DecChange s t) :
    t.dec.job = s.dec.job ∨ (t.dec.job.i = 0#64 ∧ t.dec.job.w = 0#64) ∨ ∃ u, SameBlock s u ∧ DecMove u t := by
  cases h with
  | kept same => exact .inl same.job
  | reset hd => exact .inr (.inl (hd ▸ ⟨rfl, rfl⟩))
  | started data u ran same h =>
    cases h with
    | ignored => exact .inl (congrArg Dec.job same.dec)
    | beyond | short | begun => exact .inr (.inl ⟨rfl, rfl⟩)
  | cleared data u ran idle hd => exact .inl (hd ▸ rfl)
  | moved u same hm => exact .inr (.inr ⟨u, same, hm⟩)

/-- ENC's counters are below 2^34. -/
structure EncCountersBelow (j : EncJob) : Prop where
  i : j.i.toNat < 2 ^ 34
  runStart : j.runStart.toNat < 2 ^ 34
  outPos : j.outPos.toNat < 2 ^ 34

theorem encRun_length_le (s : State) (pos : Word64) : (encRun s pos).length ≤ 3 := by
  rw [encRun, runUnit_length]
  split
  · decide
  · split <;> decide

/-- Inside the scan `i` stays below 2^32, and the output bound of R95 keeps the write index below 2^34. -/
theorem EncMove.countersBelow {s t : State} (h : EncMove s t) (ok : EncJobOk s) (below : EncCountersBelow s.enc.job) :
    EncCountersBelow t.enc.job := by
  cases h with
  | idle | headerFault | scanFault | tailFault => exact below
  | header => exact ⟨below.i, below.runStart, (by decide : (4#64).toNat < 2 ^ 34)⟩
  | extend hp =>
    obtain ⟨hi, hn, _⟩ := ok.at_scan hp
    obtain ⟨counter, _⟩ := encAdvance_counts hp rfl rfl hi
    exact ⟨counter.trans_lt (by omega), below.runStart, below.outPos⟩
  | flush hp _ _ _ hf =>
    obtain ⟨hi, scan⟩ := ok.at_scan hp
    have outPos := encEmitted_outPos_toNat (encRun_fits scan.outPos_le hf)
    have unit := encRun_length_le s s.enc.job.i
    obtain ⟨hn, _, hrs, _, _, _, _, _, hbound, _⟩ := scan
    obtain ⟨counter, _⟩ := encFlushed_counts hp hi
    exact ⟨counter.trans_lt (by omega), below.i, outPos.trans_lt (by omega)⟩
  | complete hp _ hf =>
    obtain ⟨last, scan⟩ := ok.at_tail hp
    have outPos := encEmitted_outPos_toNat (encRun_fits scan.outPos_le hf)
    have unit := encRun_length_le s s.enc.job.n
    obtain ⟨hn, _, hrs, _, _, _, _, _, hbound, _⟩ := scan
    rw [last] at hrs
    exact ⟨below.i, below.runStart, outPos.trans_lt (by omega)⟩

theorem step_encCountersBelow {s t : State} (hi : Inv s) (below : EncCountersBelow s.enc.job) (h : step s = .next t) :
    EncCountersBelow t.enc.job := by
  obtain same | ⟨i, runStart, outPos⟩ | ⟨u, hu, hm⟩ := (step_encChange h).job_cases
  · exact same ▸ below
  · constructor <;> simp [i, runStart, outPos]
  · exact hm.countersBelow (hu.inv hi).encJob (hu.enc ▸ below)

/-- DEC has produced no more than `original_length` bytes, which is below 2^32. -/
theorem DecMove.w_lt {s t : State} (h : DecMove s t) (ok : DecJobOk s) (hw : s.dec.job.w.toNat < 2 ^ 34) :
    t.dec.job.w.toNat < 2 ^ 34 := by
  have orig := s.dec.job.orig.isLt
  cases h with
  | idle | headerFault | complete | underfill => exact hw
  | header => exact Nat.two_pow_pos 34
  | unit c count size hp _ fits =>
    obtain ⟨_, _, _, hwo, _⟩ := ok.at_body hp
    exact (decAppended_w_toNat hwo fits c).trans_lt (by omega)
  | overflow c k hp _ fits =>
    obtain ⟨_, _, _, hwo, _⟩ := ok.at_body hp
    exact (decAppended_w_toNat hwo fits c).trans_lt (by omega)

theorem step_dec_w_lt {s t : State} (hi : Inv s) (hw : s.dec.job.w.toNat < 2 ^ 34) (h : step s = .next t) :
    t.dec.job.w.toNat < 2 ^ 34 := by
  obtain same | ⟨_, zero⟩ | ⟨u, hu, hm⟩ := (step_decChange h).job_cases
  · exact same ▸ hw
  · simp [zero]
  · exact hm.w_lt (hu.inv hi).decJob (hu.dec ▸ hw)

/-- DEC's `i` does not leave the stream, of which DEC_SRC_CAP bounds the length. -/
theorem DecMove.i_lt {s t : State} (h : DecMove s t) (ok : DecJobOk s)
    (bound : s.cap .decSrc < 2 ^ 34 ∨ s.dec.job.len.toNat < 2 ^ 34) (hi : s.dec.job.i.toNat < 2 ^ 34) :
    t.dec.job.i.toNat < 2 ^ 34 := by
  cases h with
  | idle | headerFault | overflow | complete | underfill => exact hi
  | header => exact (by decide : (4#64).toNat < 2 ^ 34)
  | unit c count size hp hs =>
    obtain ⟨inside, _, hcap, _⟩ := ok.at_body hp
    have last := unit_inside inside hs
    exact (decAdvance_i_toNat (s := decAppended c count s) last).trans_lt (last.trans_lt (by omega))

theorem step_dec_i_lt {s t : State} (inv : Inv s) (bound : s.cap .decSrc < 2 ^ 34 ∨ s.dec.job.len.toNat < 2 ^ 34)
    (hi : s.dec.job.i.toNat < 2 ^ 34) (h : step s = .next t) : t.dec.job.i.toNat < 2 ^ 34 := by
  obtain same | ⟨zero, _⟩ | ⟨u, hu, hm⟩ := (step_decChange h).job_cases
  · exact same ▸ hi
  · simp [zero]
  · exact hm.i_lt (hu.inv inv).decJob (by rw [hu.cap, hu.dec]; exact bound) (hu.dec ▸ hi)

/-- Settles O59: reset has all counters 0, and a step keeps each bound or sets the counter to 0. -/
theorem countersStayBelowTheBound : Obligations.CountersStayBelowTheBound := by
  unfold Obligations.CountersStayBelowTheBound
  intro counters
  refine ⟨by decide, fun caps => ?reset, fun s t hi below h => ?step, fun s t => step_dec_i_lt⟩
  case reset =>
    have zero : (0#64).toNat < 2 ^ 34 := by decide
    exact ⟨⟨zero, zero, zero, zero⟩, zero⟩
  case step =>
    obtain ⟨i, runStart, outPos, w⟩ := below
    have enc := step_encCountersBelow hi ⟨i, runStart, outPos⟩ h
    exact ⟨enc.i, enc.runStart, enc.outPos, step_dec_w_lt hi w h⟩

/-! ### The steps a job still takes (70_reset_and_hazards.md R145) -/

/-- A bound on the steps until ENC is idle. -/
def encStepsLeft (e : Enc) : Nat :=
  match e.phase with
  | .idle => 0
  | .header => e.job.n.toNat + 2
  | .scan => e.job.n.toNat - e.job.i.toNat + 1
  | .tail => 1

/-- A bound on the steps until DEC is idle. -/
def decStepsLeft (d : Dec) : Nat :=
  match d.phase with
  | .idle => 0
  | .header => d.job.len.toNat + 2
  | .body => d.job.len.toNat - d.job.i.toNat + 1
  | .check => 1

theorem encStepsLeft_le (e : Enc) : encStepsLeft e ≤ e.job.n.toNat + 2 := by
  unfold encStepsLeft
  split <;> omega

theorem decStepsLeft_le (d : Dec) : decStepsLeft d ≤ d.job.len.toNat + 2 := by
  unfold decStepsLeft
  split <;> omega

theorem encStepsLeft_of_idle {e : Enc} (h : e.phase = .idle) : encStepsLeft e = 0 := by
  simp only [encStepsLeft, h]

theorem decStepsLeft_of_idle {d : Dec} (h : d.phase = .idle) : decStepsLeft d = 0 := by
  simp only [decStepsLeft, h]

/-- Between two steps of the scan a step is left for each byte, and TAIL. -/
theorem encStepsLeft_le_scan {e : Enc} {last : Prop} [Decidable last] (h : e.phase = if last then .tail else .scan) :
    encStepsLeft e ≤ e.job.n.toNat - e.job.i.toNat + 1 := by
  split at h <;> simp only [encStepsLeft, h] <;> omega

theorem decStepsLeft_le_body {d : Dec} {last : Prop} [Decidable last] (h : d.phase = if last then .check else .body) :
    decStepsLeft d ≤ d.job.len.toNat - d.job.i.toNat + 1 := by
  split at h <;> simp only [decStepsLeft, h] <;> omega

theorem encStepsLeft_pos {e : Enc} (h : e.phase ≠ .idle) : 0 < encStepsLeft e := by
  unfold encStepsLeft
  split
  case h_1 idle => exact absurd idle h
  all_goals omega

theorem decStepsLeft_pos {d : Dec} (h : d.phase ≠ .idle) : 0 < decStepsLeft d := by
  unfold decStepsLeft
  split
  case h_1 idle => exact absurd idle h
  all_goals omega

/-- Every move of a busy ENC leaves fewer steps. -/
theorem EncMove.stepsLeft_lt {s t : State} (h : EncMove s t) (ok : EncJobOk s) (busy : s.enc.phase ≠ .idle) :
    encStepsLeft t.enc < encStepsLeft s.enc := by
  have scans (hp : s.enc.phase = .scan) : encStepsLeft s.enc = s.enc.job.n.toNat - s.enc.job.i.toNat + 1 := by
    simp only [encStepsLeft, hp]
  cases h with
  | idle hp => exact absurd hp busy
  | headerFault | scanFault | complete | tailFault => exact (encStepsLeft_of_idle rfl).trans_lt (encStepsLeft_pos busy)
  | header hp =>
    have left : encStepsLeft (encHeaderDone s).enc ≤ s.enc.job.n.toNat - s.enc.job.i.toNat + 1 :=
      encStepsLeft_le_scan rfl
    have before : encStepsLeft s.enc = s.enc.job.n.toNat + 2 := by simp only [encStepsLeft, hp]
    omega
  | extend hp =>
    obtain ⟨hi, _⟩ := ok.at_scan hp
    obtain ⟨counter, phase⟩ := encAdvance_counts hp rfl rfl hi
    have left : encStepsLeft (encAdvance s).enc ≤ s.enc.job.n.toNat - _ + 1 := encStepsLeft_le_scan phase
    rw [counter] at left
    rw [scans hp]
    omega
  | flush hp =>
    obtain ⟨hi, _⟩ := ok.at_scan hp
    obtain ⟨counter, phase⟩ := encFlushed_counts hp hi
    have left : encStepsLeft (encFlushed s).enc ≤ s.enc.job.n.toNat - _ + 1 := encStepsLeft_le_scan phase
    rw [counter] at left
    exact left.trans_lt (by rw [scans hp]; omega)

/-- Every move of a busy DEC leaves fewer steps. -/
theorem DecMove.stepsLeft_lt {s t : State} (h : DecMove s t) (ok : DecJobOk s) (busy : s.dec.phase ≠ .idle) :
    decStepsLeft t.dec < decStepsLeft s.dec := by
  cases h with
  | idle hp => exact absurd hp busy
  | headerFault | overflow | complete | underfill => exact (decStepsLeft_of_idle rfl).trans_lt (decStepsLeft_pos busy)
  | header orig hp =>
    have left : decStepsLeft (decHeaderDone orig s).dec ≤ s.dec.job.len.toNat - (4#64).toNat + 1 :=
      decStepsLeft_le_body rfl
    have before : decStepsLeft s.dec = s.dec.job.len.toNat + 2 := by simp only [decStepsLeft, hp]
    omega
  | unit c count size hp hs =>
    obtain ⟨hi, _⟩ := ok.at_body hp
    have counter := decAdvance_i_toNat (s := decAppended c count s) (unit_inside hi hs)
    have phase : (decAdvance size (decAppended c count s)).dec.phase = if _ then .check else s.dec.phase := rfl
    rw [hp] at phase
    have left : decStepsLeft (decAdvance size (decAppended c count s)).dec ≤ s.dec.job.len.toNat - _ + 1 :=
      decStepsLeft_le_body phase
    have before : decStepsLeft s.dec = s.dec.job.len.toNat - s.dec.job.i.toNat + 1 := by simp only [decStepsLeft, hp]
    rw [counter, decAppended_decI] at left
    omega

/-! ### With no interleaving listed (70_reset_and_hazards.md R146) -/

/-- With no interleaving listed the step is that of the agent that moves by default. -/
theorem step_of_default {s : State} {a : Agent} (hs : s.schedule = []) (h : defaultAgent s = some a) :
    step s = step { s with schedule := [a] } := by
  have unlisted : ({ s with schedule := [] } : State) = s := by rw [← hs]
  have chosen : chooseAgent s = chooseAgent { s with schedule := [a] } := by
    simp only [chooseAgent, hs, h, unlisted]
  simp only [step, fetch, chosen]

theorem defaultAgent_of_enc_busy {s : State} (enc : s.busy .enc = true) : defaultAgent s = some .enc :=
  if_pos enc

theorem defaultAgent_of_enc_idle {s : State} (enc : s.busy .enc = false) :
    defaultAgent s = if s.busy .dec then some .dec else if s.program = [] then none else some .host := by
  have idle : ¬ s.enc.phase.busy = true := by simpa [State.busy] using enc
  refine (if_neg idle).trans (if_congr Iff.rfl rfl ?_)
  cases s.program <;> rfl

theorem step_of_nobody {s : State} (hs : s.schedule = []) (h : defaultAgent s = none) : step s = .next s := by
  simp only [step, fetch, chooseAgent, hs, h]

/-- Settles O35: the default agent, by the engines' BUSY and the host's lines. -/
theorem defaultOrderServesBusyEnginesFirst : Obligations.DefaultOrderServesBusyEnginesFirst := by
  refine fun s hs => ⟨fun enc => ?enc, fun enc dec => ?dec, fun enc dec lines => ?host, fun enc dec none => ?nobody⟩
  case enc => exact step_of_default hs (defaultAgent_of_enc_busy enc)
  case dec => exact step_of_default hs (by rw [defaultAgent_of_enc_idle enc, if_pos dec])
  case host => exact step_of_default hs (by rw [defaultAgent_of_enc_idle enc, dec, if_neg lines]; rfl)
  case nobody => exact step_of_nobody hs (by rw [defaultAgent_of_enc_idle enc, dec, if_pos none]; rfl)

theorem step_of_enc_busy {s : State} (hs : s.schedule = []) (enc : s.busy .enc = true) : step s = encStep s := by
  rw [step_of_default hs (defaultAgent_of_enc_busy enc), step_of_enc_listed rfl, ← hs]

theorem step_of_dec_busy {s : State} (hs : s.schedule = []) (enc : s.busy .enc = false) (dec : s.busy .dec = true) :
    step s = decStep s := by
  rw [step_of_default hs (by rw [defaultAgent_of_enc_idle enc, if_pos dec]), step_of_dec_listed rfl, ← hs]

/-- The steps both engines still take. -/
def stepsLeft (s : State) : Nat := encStepsLeft s.enc + decStepsLeft s.dec

/-- While an engine is busy, a step is one of a busy engine and leaves fewer steps. -/
theorem step_of_busy {s : State} (hi : Inv s) (hs : s.schedule = []) (busy : s.busy .enc = true ∨ s.busy .dec = true) :
    ∃ t, step s = .next t ∧ t.schedule = [] ∧ stepsLeft t < stepsLeft s := by
  by_cases enc : s.busy .enc = true
  · obtain ⟨t, ht, move⟩ := encStep_moves hi.encJob
    obtain ⟨dec, _, _, _, schedule, _⟩ := move.others
    have notIdle : s.enc.phase ≠ .idle := fun hp => by simp [State.busy_enc_of_idle hp] at enc
    have fewer := move.stepsLeft_lt hi.encJob notIdle
    exact ⟨t, (step_of_enc_busy hs enc).trans ht, schedule.trans hs, by rw [stepsLeft, dec, stepsLeft]; omega⟩
  · have idle : s.busy .enc = false := by simpa using enc
    have busy : s.busy .dec = true := busy.resolve_left enc
    obtain ⟨t, ht, move⟩ := decStep_moves hi.decJob
    obtain ⟨enc, _, _, _, schedule, _⟩ := move.others
    have notIdle : s.dec.phase ≠ .idle := fun hp => by simp [State.busy_dec_of_idle hp] at busy
    have fewer := move.stepsLeft_lt hi.decJob notIdle
    exact ⟨t, (step_of_dec_busy hs idle busy).trans ht, schedule.trans hs, by rw [stepsLeft, enc, stepsLeft]; omega⟩

/-- With no interleaving listed both engines are idle once the steps they still take are taken. -/
theorem run_until_idle {s : State} (hi : Inv s) (hs : s.schedule = []) :
    ∃ k t, k ≤ stepsLeft s ∧ Host.Core.run Sys2Proof.core k s = .next t ∧
      t.busy .enc = false ∧ t.busy .dec = false := by
  induction left : stepsLeft s using Nat.strong_induction_on generalizing s with
  | h n ih =>
    by_cases busy : s.busy .enc = true ∨ s.busy .dec = true
    · obtain ⟨t, ht, schedule, fewer⟩ := step_of_busy hi hs busy
      obtain ⟨k, u, hk, hu, idle⟩ := ih _ (left ▸ fewer) (step_inv hi ht) schedule rfl
      exact ⟨k + 1, u, by omega, (run_succ_of_step ht k).trans hu, idle⟩
    · exact ⟨0, s, Nat.zero_le _, rfl, by simpa using busy⟩

/-- Settles O53: every step of a busy engine leaves fewer, and `n + 2` and `L + 2` bound those of a whole job. -/
theorem everyJobEnds : Obligations.EveryJobEnds := by
  intro s hi hs
  obtain ⟨k, t, hk, ht, idle⟩ := run_until_idle hi hs
  have enc := encStepsLeft_le s.enc
  have dec := decStepsLeft_le s.dec
  rw [stepsLeft] at hk
  exact ⟨k, t, by omega, ht, idle⟩

end Sys2Proof.Machine
end

section
/-! SUPPORT. The canonical form (41_encoder.md R94): the parse of a sequence of units, the canonical form as a chain,
and the closed form's units as one, run by run. -/

namespace Sys2Proof.Machine

/-! ### The parse (30_encoding.md R60) -/

/-- The parse of a body follows the demultiplexer, and its bytes are the body. -/
theorem followsDemux_of_parseBody {us : List StreamUnit} {body : List Byte} (h : parseBody body = us) :
    followsDemux us body ∧ unitBytes us = body := by
  induction us generalizing body with
  | nil =>
    rw [eq_nil_of_parseBody h]
    exact ⟨rfl, rfl⟩
  | cons u us ih =>
    obtain ⟨rest, split, unit, parsed⟩ := decodeUnit_of_parseBody h
    obtain ⟨follows, bytes⟩ := ih parsed
    exact ⟨⟨rest, unit, follows⟩, by rw [split, ← bytes]; rfl⟩

theorem StreamUnit.instr_injective {u v : StreamUnit} (h : u.instr = v.instr) : u = v := by
  cases u <;> cases v <;> cases h <;> rfl

/-- The demultiplexer leaves no choice. -/
theorem parseBody_of_followsDemux {us : List StreamUnit} {body : List Byte} (h : followsDemux us body) :
    parseBody body = us := by
  induction us generalizing body with
  | nil => rw [show body = [] from h]; rfl
  | cons u us ih =>
    obtain ⟨rest, unit, follows⟩ := h
    cases parsed : parseBody body with
    | nil =>
      rw [eq_nil_of_parseBody parsed] at unit
      cases unit
    | cons v vs =>
      obtain ⟨rest', _, unit', parsed'⟩ := decodeUnit_of_parseBody parsed
      obtain ⟨same, rfl⟩ := Prod.mk.inj (Except.ok.inj (unit'.symm.trans unit))
      rw [StreamUnit.instr_injective same, ← parsed', ih follows]

/-- Settles O6: a parse follows the demultiplexer, which leaves no other. -/
theorem bodyParsesInExactlyOneWay : Obligations.BodyParsesInExactlyOneWay := by
  refine fun body => ⟨fun us => ⟨fun h => (parseBody_of_followsDemux h).symm, ?_⟩, (followsDemux_of_parseBody rfl).2⟩
  rintro rfl
  exact (followsDemux_of_parseBody rfl).1

/-! ### Canonical units (41_encoder.md R94) -/

/-- The canonical form is a condition on each unit and on each pair of neighbours. -/
theorem canonicalUnits_iff (us : List StreamUnit) :
    canonicalUnits us = true ↔ (∀ u ∈ us, u.countOk = true) ∧ us.IsChain (fun a b => a.mayPrecede b = true) := by
  induction us with
  | nil => simp [canonicalUnits]
  | cons u us ih =>
    cases us with
    | nil => simp [canonicalUnits]
    | cons v us => simp [canonicalUnits, ih, and_assoc, and_left_comm]

theorem StreamUnit.bytes_eq_cons (u : StreamUnit) : ∃ rest, u.bytes = u.first :: rest := by
  cases u <;> exact ⟨_, rfl⟩

/-- The parse takes a unit off the front of the bytes of a sequence in which its neighbour may follow it. -/
theorem parseBody_unit_append (u : StreamUnit) {us : List StreamUnit} (h : ∀ v ∈ us.head?, u.mayPrecede v = true) :
    parseBody (u.bytes ++ unitBytes us) = u :: parseBody (unitBytes us) := by
  cases u with
  | esc c k => exact parseBody_equal_pair c k (unitBytes us)
  | lit c =>
    cases us with
    | nil => rfl
    | cons v us =>
      obtain ⟨rest, bytes⟩ := v.bytes_eq_cons
      have stream : unitBytes (v :: us) = v.first :: (rest ++ unitBytes us) := by
        rw [← List.cons_append, ← bytes]
        rfl
      have other : v.first ≠ c := by simpa [StreamUnit.mayPrecede] using h v rfl
      rw [stream]
      exact parseBody_of_ne other _

theorem parseBody_unitBytes {us : List StreamUnit} (h : us.IsChain fun a b => a.mayPrecede b = true) :
    parseBody (unitBytes us) = us := by
  induction us with
  | nil => rfl
  | cons u us ih =>
    obtain ⟨next, rest⟩ := List.isChain_cons.mp h
    exact (parseBody_unit_append u next).trans (congrArg _ (ih rest))

/-- Settles O7: the neighbours alone decide it, the counts do not matter. -/
theorem canonicalUnitsParseBack : Obligations.CanonicalUnitsParseBack :=
  fun us h => parseBody_unitBytes ((canonicalUnits_iff us).mp h).2

/-! ### The units of a run -/

theorem unitBytes_append (us vs : List StreamUnit) : unitBytes (us ++ vs) = unitBytes us ++ unitBytes vs := by
  simp [unitBytes]

/-- A run's units in bytes are the run's bytes. -/
theorem unitBytes_runUnits (c : Byte) (r : Nat) : unitBytes (runUnits c r) = runBytes c r := by
  rw [runUnits, unitBytes_append, runBytes]
  congr 1
  · simp [unitBytes, StreamUnit.bytes]
  · match r % 255 with
    | 0 | 1 | _ + 2 => rfl

theorem unitBytes_compressUnits (bs : List Byte) : unitBytes (compressUnits bs) = compressBody bs := by
  have runs (l : List (Byte × Nat)) :
      unitBytes (l.map fun p => runUnits p.1 p.2).flatten = (l.map fun p => runBytes p.1 p.2).flatten := by
    induction l with
    | nil => rfl
    | cons p l ih => simp only [List.map_cons, List.flatten_cons, unitBytes_append, unitBytes_runUnits, ih]
  exact runs (maximalRuns bs)

/-- Every unit of a run stands for copies of its byte, with a count of 2 or more in an ESC. -/
theorem runUnits_forall (c : Byte) (r : Nat) : ∀ u ∈ runUnits c r, u.first = c ∧ u.countOk = true := by
  intro u hu
  rcases List.mem_append.mp hu with hu | hu
  · obtain ⟨_, rfl⟩ := List.mem_replicate.mp hu
    exact ⟨rfl, rfl⟩
  · have bound : r % 255 < 255 := Nat.mod_lt _ (by decide)
    match hr : r % 255 with
    | 0 => simp [hr] at hu
    | 1 => simp only [hr, List.mem_singleton] at hu; subst hu; exact ⟨rfl, rfl⟩
    | k + 2 =>
      simp only [hr, List.mem_singleton] at hu
      subst hu
      refine ⟨rfl, ?_⟩
      simp only [StreamUnit.countOk, decide_eq_true_eq, BitVec.toNat_ofNat]
      omega

theorem runUnits_ne_nil (c : Byte) {r : Nat} (h : 0 < r) : runUnits c r ≠ [] := by
  intro empty
  have none : (runBytes c r).length = 0 := by rw [← unitBytes_runUnits, empty]; rfl
  have size : (runBytes c r).length = 3 * (r / 255) + restSize (r % 255) := runBytes_length c r
  have rest : r % 255 ≠ 0 → restSize (r % 255) ≠ 0 := by
    match r % 255 with
    | 0 | 1 | _ + 2 => simp [restSize]
  omega

/-- Within a run only its last unit is no ESC of 255, after which any unit may stand. -/
theorem runUnits_isChain (c : Byte) (r : Nat) : (runUnits c r).IsChain fun a b => a.mayPrecede b = true := by
  refine List.isChain_append.mpr ⟨List.isChain_replicate_of_rel _ rfl, ?_, fun u hu v _ => ?_⟩
  · match r % 255 with
    | 0 => exact .nil
    | 1 | _ + 2 => exact .singleton _
  · obtain ⟨_, rfl⟩ := List.mem_replicate.mp (List.mem_of_mem_getLast? hu)
    rfl

/-! ### The maximal runs as a chain -/

theorem maximalRuns_pos (bs : List Byte) : ∀ p ∈ maximalRuns bs, 0 < p.2 := by
  induction bs with
  | nil => nofun
  | cons c rest ih =>
    cases rest with
    | nil => simp [maximalRuns]
    | cons d rest =>
      by_cases hcd : c = d
      · subst hcd
        obtain ⟨r, more, hd⟩ := maximalRuns_cons c rest
        rw [maximalRuns_cons_self hd]
        rw [hd] at ih
        exact List.forall_mem_cons.mpr ⟨Nat.succ_pos _, fun p hp => ih p (List.mem_cons_of_mem _ hp)⟩
      · rw [maximalRuns_cons_of_ne hcd]
        exact List.forall_mem_cons.mpr ⟨Nat.one_pos, ih⟩

/-- Neighbouring maximal runs are of different bytes. -/
theorem maximalRuns_isChain (bs : List Byte) : (maximalRuns bs).IsChain fun p q => p.1 ≠ q.1 := by
  induction bs with
  | nil => exact .nil
  | cons c rest ih =>
    cases rest with
    | nil => exact .singleton _
    | cons d rest =>
      obtain ⟨r, more, hd⟩ := maximalRuns_cons d rest
      by_cases hcd : c = d
      · subst hcd
        rw [maximalRuns_cons_self hd]
        rw [hd] at ih
        exact List.isChain_cons.mpr (List.isChain_cons.mp ih)
      · rw [maximalRuns_cons_of_ne hcd, hd]
        rw [hd] at ih
        exact .cons_cons hcd ih

/-- A unit may stand before one of another byte. -/
theorem StreamUnit.mayPrecede_of_ne {u v : StreamUnit} (h : u.first ≠ v.first) : u.mayPrecede v = true := by
  have other := decide_eq_true h.symm
  cases u with
  | lit c => exact other
  | esc c k => exact Bool.or_eq_true_iff.mpr (.inr other)

/-- The units of the closed form are canonical: within a run by the run, between runs by their bytes. -/
theorem canonicalUnits_compressUnits (bs : List Byte) : canonicalUnits (compressUnits bs) = true := by
  rw [canonicalUnits_iff]
  constructor
  · intro u hu
    simp only [compressUnits, List.mem_flatten, List.mem_map] at hu
    obtain ⟨_, ⟨p, _, rfl⟩, hu⟩ := hu
    exact (runUnits_forall p.1 p.2 u hu).2
  · refine (List.isChain_flatten ?_).mpr ⟨?_, ?_⟩
    · intro empty
      obtain ⟨p, hp, none⟩ := List.mem_map.mp empty
      exact runUnits_ne_nil p.1 (maximalRuns_pos bs p hp) none
    · intro l hl
      obtain ⟨p, _, rfl⟩ := List.mem_map.mp hl
      exact runUnits_isChain p.1 p.2
    · refine List.isChain_map_of_isChain _ (fun p q hpq u hu v hv => ?_) (maximalRuns_isChain bs)
      obtain ⟨first, _⟩ := runUnits_forall p.1 p.2 u (List.mem_of_mem_getLast? hu)
      obtain ⟨first', _⟩ := runUnits_forall q.1 q.2 v (List.mem_of_mem_head? hv)
      exact StreamUnit.mayPrecede_of_ne (by rwa [first, first'])

/-- The closed form's body parses into the units it was made of. -/
theorem parseBody_compressBody (bs : List Byte) : parseBody (compressBody bs) = compressUnits bs := by
  rw [← unitBytes_compressUnits]
  exact canonicalUnitsParseBack _ (canonicalUnits_compressUnits bs)

/-- Settles O8: the header, the canonical chain of units, their parse, and what they expand to. -/
theorem compressedStreamsAreCanonical : Obligations.CompressedStreamsAreCanonical := by
  refine fun b hb => ⟨compress_eq_header_cons hb, canonicalUnits_compressUnits b, parseBody_compressBody b, ?_⟩
  rw [← parseBody_compressBody, expand_parse_compressBody]

/-- Settles O9: the round trip of the closed forms. -/
theorem decompressOfCompressIsTheInput : Obligations.DecompressOfCompressIsTheInput :=
  fun _ => decompress_compress


end Sys2Proof.Machine
end

section
/-! SUPPORT. The decoder on what the encoder makes of an instruction, and words written out from the spec
(30_encoding.md). -/

namespace Sys2Proof.Machine

/-- Every row but WR32 is its own most specific row. -/
theorem specific_of_ne_wr32 {i : Instr} (h : ∀ e r data, i ≠ .wr32 e r data) : i.specific = i := by
  cases i with
  | wr32 e r data => exact absurd rfl (h e r data)
  | hdr | lit | esc | rd32 | encStart | decStart | encClr | decClr | encNop | decNop | irqEnWr | srcLenWr | roWr
  | rdb | wrb => rfl

theorem decode_header_leBytes (n : Word) : decode (.stream .header (leBytes n)) = .ok (.hdr n) :=
  congrArg (fun n => Except.ok (Instr.hdr n)) (ofLeBytes_leBytes n)

theorem decode_escape (c k : Byte) : decode (.stream .body [c, c, k]) = .ok (.esc c k) := by
  simp only [decode, decodeStream, decodeUnit_equal_pair]

/-- A register write decodes to the row it was encoded from, where that is the most specific one. -/
theorem decode_regWrite {e : Engine} {r : Reg} {data : Word} {i : Instr} (h : decodeWrite e r data = i) :
    decode (.bus (.regWrite 32 (Reg.offset e r) data)) = .ok i :=
  h ▸ decodeBus_regWrite e r data

theorem decode_encode {i : Instr} (h : i.wellFormed = true) : decode (encode i) = .ok i.specific := by
  cases i with
  | hdr n => exact decode_header_leBytes n
  | lit v => rfl
  | esc v k => exact decode_escape v k
  | rd32 e r => exact decodeBus_regRead e r
  | wr32 e r data => exact decodeBus_regWrite e r data
  | encStart data => exact decode_regWrite (decodeCommand_of_startData h).1
  | decStart data => exact decode_regWrite (decodeCommand_of_startData h).2
  | encClr data => exact decode_regWrite (decodeCommand_of_clrData h).1
  | decClr data => exact decode_regWrite (decodeCommand_of_clrData h).2
  | encNop data => exact decode_regWrite (decodeCommand_of_nopData h).1
  | decNop data => exact decode_regWrite (decodeCommand_of_nopData h).2
  | irqEnWr e data => exact decode_regWrite rfl
  | srcLenWr e half data => exact decode_regWrite (by cases half <;> rfl)
  | roWr e r data => exact decode_regWrite (decodeWrite_of_readOnly e data h)
  | rdb b idx | wrb b idx data => rfl

/-- Settles O1: row by row, with the most specific row of a WR32. -/
theorem decodeOfEncodeIsTheInstruction : Obligations.DecodeOfEncodeIsTheInstruction :=
  fun _ h => ⟨decode_encode h, specific_of_ne_wr32⟩

/-- Settles O2: each word is the encoding of its instruction. -/
theorem wordsOfTheSpecDecode : Obligations.WordsOfTheSpecDecode :=
  ⟨decode_header_leBytes 19#32, rfl, decode_escape 0x61#8 0x05#8, decode_encode (i := .encStart 0x00000001#32) rfl,
    decode_encode (i := .decClr 0x00000002#32) rfl, decode_encode (i := .irqEnWr .dec 0x00000001#32) rfl,
    decode_encode (i := .srcLenWr .enc .hi 0x00000000#32) rfl, decode_encode (i := .rd32 .dec .outLenLo) rfl⟩

end Sys2Proof.Machine
end

section
/-! SUPPORT. The register map as RD32 reads it and WR32 writes it (40_control.md R69, R70), the bytes nothing has
written, and the buffers of a busy engine (20_memory.md R39; 70_reset_and_hazards.md R140). -/

namespace Sys2Proof.Machine

/-! ### RD32 (40_control.md R69) -/

/-- The IRQ_EN register has its two enables and reads 0 above them. -/
theorem irqEnWord_fields (r : Regs) :
    r.irqEnWord.getLsbD 0 = r.doneIe ∧ r.irqEnWord.getLsbD 1 = r.errIe ∧ r.irqEnWord.extractLsb' 2 30 = 0#30 := by
  refine ⟨?_, ?_, BitVec.eq_of_getLsbD_eq fun i hi => ?_⟩
  · simp [irqEnWord_getLsbD, bitField_getLsbD, -BitVec.getLsbD_eq_getElem]
  · simp [irqEnWord_getLsbD, bitField_getLsbD, -BitVec.getLsbD_eq_getElem]
  · have one : 2 + i ≠ 1 := by omega
    simp [irqEnWord_getLsbD, bitField_getLsbD, one]

/-- Every register reads its fields. -/
theorem registerReads_readReg (s : State) (e : Engine) (r : Reg) : RegisterReads s e r (s.readReg e r) := by
  cases r with
  | ctrl | reserved0C | reserved3C | hdrLen => rfl
  | status =>
    exact ⟨statusWord_busy _ _, statusWord_done _ _, statusWord_err _ _, statusWord_irq _ _, statusWord_code _ _,
      statusWord_detail _ _, statusWord_reserved _ _⟩
  | irqEn => exact irqEnWord_fields (s.regs e)
  | srcLenLo | outLenLo | errPosLo => exact halfOf_lo_toNat _
  | srcLenHi | outLenHi | errPosHi => exact halfOf_hi_toNat _
  | srcCapLo => exact (halfOf_lo_toNat _).trans (congrArg (· % 2 ^ 32) (s.srcCap_toNat e))
  | srcCapHi => exact (halfOf_hi_toNat _).trans (congrArg (· / 2 ^ 32) (s.srcCap_toNat e))
  | dstCapLo => exact (halfOf_lo_toNat _).trans (congrArg (· % 2 ^ 32) (s.dstCap_toNat e))
  | dstCapHi => exact (halfOf_hi_toNat _).trans (congrArg (· / 2 ^ 32) (s.dstCap_toNat e))

/-- Settles O11: RD32 hands over the register map's value, which has the register's fields. -/
theorem readRegisterReturnsItsFields : Obligations.ReadRegisterReturnsItsFields :=
  fun s e r => ⟨s.readReg e r, rfl, registerReads_readReg s e r⟩

/-! ### WR32 (40_control.md R70) -/

/-- CTRL runs the command that the two low bits of the data select. -/
theorem exec_decodeCommand (e : Engine) (data : Word) (s : State) :
    exec (decodeCommand e data) s = .next (command e data s) := by
  cases hs : data.getLsbD 0 with
  | true =>
    obtain ⟨enc, dec⟩ := decodeCommand_of_startData hs
    have start : command e data s = startJob e s := if_pos hs
    cases e with
    | enc => rw [enc, start]; rfl
    | dec => rw [dec, start]; rfl
  | false =>
    have noStart : ¬ data.getLsbD 0 = true := by simp only [hs, Bool.false_eq_true, not_false_eq_true]
    cases hc : data.getLsbD 1 with
    | true =>
      obtain ⟨enc, dec⟩ := decodeCommand_of_clrData (data := data) (by rw [clrData, hs, hc]; rfl)
      have clear : command e data s = s.acknowledge e := (if_neg noStart).trans (if_pos hc)
      cases e with
      | enc => rw [enc, clear, exec_encClr]
      | dec => rw [dec, clear, exec_decClr]
    | false =>
      obtain ⟨enc, dec⟩ := decodeCommand_of_nopData (data := data) (by rw [nopData, hs, hc]; rfl)
      have nop : command e data s = s := (if_neg noStart).trans (if_neg (by rw [hc]; exact Bool.false_ne_true))
      cases e with
      | enc => rw [enc, nop]; rfl
      | dec => rw [dec, nop]; rfl

theorem State.writeSrcLen_lo (s : State) (e : Engine) (data : Word) :
    s.writeSrcLen e .lo data = s.updRegs e fun g =>
      { g with srcLen := BitVec.ofNat 64 (g.srcLen.toNat / 2 ^ 32 * 2 ^ 32 + data.toNat) } := by
  simp only [State.writeSrcLen, withHalf_lo]

theorem State.writeSrcLen_hi (s : State) (e : Engine) (data : Word) :
    s.writeSrcLen e .hi data = s.updRegs e fun g =>
      { g with srcLen := BitVec.ofNat 64 (data.toNat * 2 ^ 32 + g.srcLen.toNat % 2 ^ 32) } := by
  simp only [State.writeSrcLen, withHalf_hi]

/-- Settles O13: register by register, the most specific row and the case of WR32 that the register selects. -/
theorem writeRegisterByOffset : Obligations.WriteRegisterByOffset := by
  intro s e r data
  cases r with
  | ctrl =>
    have runs := exec_decodeCommand e data s
    exact ⟨command e data s, rfl, runs, fun _ => runs, nofun, nofun, nofun, fun h => absurd rfl h⟩
  | irqEn => exact ⟨s.writeIrqEn e data, rfl, rfl, nofun, fun _ => rfl, nofun, nofun, fun _ h => absurd rfl h⟩
  | srcLenLo =>
    exact ⟨s.writeSrcLen e .lo data, rfl, rfl, nofun, nofun, fun _ => s.writeSrcLen_lo e data, nofun,
      fun _ _ h => absurd rfl h⟩
  | srcLenHi =>
    exact ⟨s.writeSrcLen e .hi data, rfl, rfl, nofun, nofun, nofun, fun _ => s.writeSrcLen_hi e data,
      fun _ _ _ h => absurd rfl h⟩
  | status | reserved0C | outLenLo | outLenHi | errPosLo | errPosHi | srcCapLo | srcCapHi | dstCapLo | dstCapHi
  | hdrLen | reserved3C => exact ⟨s, rfl, rfl, nofun, nofun, nofun, nofun, fun _ _ _ _ => rfl⟩

/-! ### Unwritten bytes (20_memory.md R39) -/

theorem State.byteAt_of_unwritten {s : State} {b : Buffer} {k : Nat} (h : (s.mem b).get k = none) :
    s.byteAt b k = Config.freeByte s.epoch b k := by
  rw [State.byteAt, h]

theorem State.mem_applyReset (s : State) (b : Buffer) : s.applyReset.mem b = [] := by
  cases b <;> rfl

/-- Settles O24: RDB reads the byte, which is the free value where nothing was written; reset leaves nothing written. -/
theorem unwrittenByteReadsAsTheFreeValue : Obligations.UnwrittenByteReadsAsTheFreeValue := by
  refine ⟨fun s b idx unwritten h => ?read, fun caps b k => ?powerUp, fun s b k => ?reset⟩
  case read =>
    rw [exec_rdb_of_lt h, State.byteAt_of_unwritten unwritten]
    rfl
  case powerUp => rw [State.mem_resetWith]; rfl
  case reset => rw [State.mem_applyReset]; rfl

/-! ### A busy engine's buffer (70_reset_and_hazards.md R140) -/

/-- Settles O54: WRB looks at BUSY before the index. -/
theorem busyBufferWritesAreRefused : Obligations.BusyBufferWritesAreRefused :=
  fun _ _ _ _ h => if_pos h

end Sys2Proof.Machine
end

section
/-! SUPPORT. The stream units as DEC runs them (42_decoder.md R100 to R107): HDR, LIT and ESC, and the header that the
HEADER step finds. -/

namespace Sys2Proof.Machine

/-! ### HDR (42_decoder.md R100) -/

/-- Settles O25: the two states HDR can end in, field by field. -/
theorem headerUnitSetsTheLength : Obligations.HeaderUnitSetsTheLength := by
  refine fun s orig => ⟨fun h => ?fits, fun h => ?short⟩
  case fits => rw [execHdr_cases, if_pos h]; rfl
  case short => rw [execHdr_cases, if_neg (Nat.not_le.mpr h)]; rfl

/-! ### The copies of a unit (42_decoder.md R101, R103, R104) -/

/-- The whole next state of a unit whose copies fit, but for the bytes it writes. -/
theorem decTaken_eq (c : Byte) (count size : Nat) (s : State) :
    decAdvance size (decAppended c count s) = { s with dec := { s.dec with
      phase := if s.dec.job.i + BitVec.ofNat 64 size = s.dec.job.len then .check else s.dec.phase,
      job := { s.dec.job with
        i := s.dec.job.i + BitVec.ofNat 64 size, w := BitVec.ofNat 64 (s.dec.job.w.toNat + count) },
      dst := (decAdvance size (decAppended c count s)).dec.dst } } := by
  have next : BitVec.ofNat 64 (s.dec.job.i.toNat + size) = s.dec.job.i + BitVec.ofNat 64 size := by
    rw [BitVec.ofNat_add, BitVec.ofNat_toNat, BitVec.setWidth_eq]
  simp only [decAdvance, decAppended_decI, next]
  rfl

/-- The bytes a unit whose copies fit leaves. -/
theorem decTaken_bytes (c : Byte) (count size : Nat) (s : State) :
    Holds (decAdvance size (decAppended c count s)) .decDst s.dec.job.w.toNat (List.replicate count c) ∧
    SameBytesBut .decDst s.dec.job.w.toNat count s (decAdvance size (decAppended c count s)) := by
  have bytes := holds_of_byteAt_setBytes (s := s) (t := decAdvance size (decAppended c count s))
    (b := .decDst) (k := s.dec.job.w.toNat) (vs := List.replicate count c)
    fun b k => by rw [decAdvance_byteAt, decAppended_byteAt]
  rwa [List.length_replicate] at bytes

/-- Settles O26: one copy is appended, or the full output raises OVERFLOW. -/
theorem literalUnitAppendsOneByte : Obligations.LiteralUnitAppendsOneByte := by
  refine fun s v => ⟨fun hw hc => ?fits, fun hw => ?full⟩
  case fits =>
    have taken : exec (.lit v) s = .next (decAdvance 1 (decAppended v 1 s)) :=
      exec_unit_of_fits (u := .lit v) hw hc
    have whole := decTaken_eq v 1 1 s
    have next : BitVec.ofNat 64 (s.dec.job.w.toNat + 1) = s.dec.job.w + 1#64 := by
      rw [BitVec.ofNat_add, BitVec.ofNat_toNat, BitVec.setWidth_eq]
    rw [next] at whole
    exact ⟨_, taken, whole, decTaken_bytes v 1 1 s⟩
  case full =>
    simp only [exec, execLit, decAppend_full _ _ _ hw]
    rfl

/-- The whole next state of a unit that crosses `orig`, but for the bytes it writes. -/
theorem decOverflowed_eq {s : State} (hw : s.dec.job.w.toNat ≤ s.dec.job.orig.toNat) (c : Byte) (t : State)
    (ht : t = (decAppended c (s.dec.job.orig.toNat - s.dec.job.w.toNat) s).raiseFault .dec .malformedEncoding .overflow
      s.dec.job.i) :
    t = { s with dec := { s.dec with
      phase := .idle,
      regs := { s.dec.regs with
        err := true, code := .malformedEncoding, detail := .overflow, errPos := s.dec.job.i },
      job := { s.dec.job with w := s.dec.job.orig.setWidth 64 },
      dst := t.dec.dst } } := by
  have filled : BitVec.ofNat 64 (s.dec.job.w.toNat + (s.dec.job.orig.toNat - s.dec.job.w.toNat)) =
      s.dec.job.orig.setWidth 64 := by
    rw [Nat.add_sub_cancel' hw, BitVec.ofNat_toNat]
  rw [← filled, ht]
  rfl

/-- The bytes a unit that crosses `orig` leaves: the copies that fit. -/
theorem decOverflowed_bytes (c : Byte) (k : Nat) (s : State) (pos : Word64) :
    Holds ((decAppended c k s).raiseFault .dec .malformedEncoding .overflow pos) .decDst s.dec.job.w.toNat
      (List.replicate k c) ∧
    SameBytesBut .decDst s.dec.job.w.toNat k s
      ((decAppended c k s).raiseFault .dec .malformedEncoding .overflow pos) := by
  have bytes := holds_of_byteAt_setBytes (s := s)
    (t := (decAppended c k s).raiseFault .dec .malformedEncoding .overflow pos)
    (b := .decDst) (k := s.dec.job.w.toNat) (vs := List.replicate k c)
    fun b j => by
      rw [← decAppended_byteAt]
      exact State.byteAt_congr (State.mem_raiseFault _ _ _ _ _ b) rfl j
  rwa [List.length_replicate] at bytes

/-- Settles O27: all copies are appended, or those that fit and then OVERFLOW. -/
theorem escapeUnitAppendsItsCopies : Obligations.EscapeUnitAppendsItsCopies := by
  refine fun s v count hc => ⟨fun hw => ?fits, fun hw h => ?crosses⟩
  all_goals have copies : (StreamUnit.esc v count).expand.length = count.toNat := List.length_replicate
  case fits =>
    have taken := exec_unit_of_fits (u := .esc v count) (s := s) (by rwa [copies]) hc
    rw [copies] at taken
    exact ⟨_, taken, decTaken_eq v count.toNat 3 s, decTaken_bytes v count.toNat 3 s⟩
  case crosses =>
    have crossed := exec_unit_of_crosses (u := .esc v count) (s := s) hw (by rwa [copies]) hc
    exact ⟨_, crossed, decOverflowed_eq hw v _ rfl, decOverflowed_bytes v _ s _⟩

/-! ### The HEADER step (42_decoder.md R100; 30_encoding.md R58) -/

/-- Four bytes make a number below 2^32. -/
theorem ofLeBytes_toNat (b0 b1 b2 b3 : Byte) :
    (ofLeBytes b0 b1 b2 b3).toNat = b0.toNat + 2 ^ 8 * b1.toNat + 2 ^ 16 * b2.toNat + 2 ^ 24 * b3.toNat := by
  have := b0.isLt
  have := b1.isLt
  have := b2.isLt
  have := b3.isLt
  rw [ofLeBytes, BitVec.toNat_ofNat, Nat.mod_eq_of_lt (by omega)]

/-- Settles O28: the listed move fetches the four bytes and runs their number. -/
theorem headerStepRunsTheFetchedHeader : Obligations.HeaderStepRunsTheFetchedHeader := by
  intro s rest hs hp h4
  have listed : step { { s with schedule := rest } with schedule := .dec :: rest } = step s :=
    congrArg step (State.with_schedule_eq hs)
  exact ⟨_, ofLeBytes_toNat _ _ _ _, listed.symm.trans (step_dec_header (s := { s with schedule := rest }) hp h4)⟩

end Sys2Proof.Machine
end

section
/-! SUPPORT. The lines of the host's program (30_encoding.md R68): what the host's move runs for each kind of line, the
names that lines bind and use, and LOAD. -/

namespace Sys2Proof.Machine

/-! ### A line with an operation -/

theorem fetchAccess_of_ok {a : BusAccess} {i : Instr} (h : decodeBus a = .ok i) (s : State) :
    fetchAccess a s = .instr i s := by
  unfold fetchAccess; rw [h]

theorem State.operand_with_schedule (s : State) (rest : List Agent) (o : Operand) :
    ({ s with schedule := rest } : State).operand o = s.operand o :=
  State.operand_congr (s := s) (t := { s with schedule := rest }) rfl o

theorem State.accessOf_with_schedule (s : State) (rest : List Agent) (op : NamedOp) :
    ({ s with schedule := rest } : State).accessOf op = s.accessOf op :=
  State.accessOf_congr (s := s) (t := { s with schedule := rest }) rfl op

theorem State.expectHolds_with_schedule (s : State) (rest : List Agent) (equations : List (Operand × Operand)) :
    ({ s with schedule := rest } : State).expectHolds equations = s.expectHolds equations :=
  State.expectHolds_congr (s := s) (t := { s with schedule := rest }) rfl equations

/-- What a read binds does not depend on the listed interleaving. -/
theorem State.bindRead_with_schedule (s : State) (op : NamedOp) (rest : List Agent) :
    ({ s with schedule := rest } : State).bindRead op = { s.bindRead op with schedule := rest } := by
  cases op with
  | rd32 | wr32 | wrb => rfl
  | rdb b k x =>
    simp only [State.bindRead, State.operand_with_schedule]
    cases s.operand k <;> rfl

section
variable {s : State} {rest : List Agent} {p : List HostLine} (hs : s.schedule = .host :: rest)
include hs

/-- A line with an operation runs the instruction its access decodes to, on the state moved past the line with the name
bound. -/
theorem step_of_named {op : NamedOp} {a : BusAccess} {i : Instr} (hp : s.program = .named op :: p)
    (ha : s.accessOf op = some a) (hd : decodeBus a = .ok i) :
    step s = exec i { s.bindRead op with schedule := rest, program := p } := by
  have hp' : ({ s with schedule := rest } : State).program = .named op :: p := hp
  rw [step_host hs, fetchHost_named hp', State.accessOf_with_schedule, ha]
  simp only [fetchAccess_of_ok hd, State.bindRead_with_schedule]

theorem step_of_unbound {op : NamedOp} (hp : s.program = .named op :: p) (ha : s.accessOf op = none) :
    step s = .refused .unboundName := by
  have hp' : ({ s with schedule := rest } : State).program = .named op :: p := hp
  rw [step_host hs, fetchHost_named hp', State.accessOf_with_schedule, ha]

theorem step_of_named_rd32 {e : Engine} {r : Reg} {x : Name} (hp : s.program = .named (.rd32 e r x) :: p) :
    step s = exec (.rd32 e r) { s.bindName x (.word (s.readReg e r)) with schedule := rest, program := p } :=
  step_of_named hs hp rfl (decodeBus_regRead e r)

theorem step_of_named_wr32 {e : Engine} {r : Reg} {imm : Operand} {data : Word}
    (hp : s.program = .named (.wr32 e r imm) :: p) (hv : s.operand imm = some data.toNat) :
    step s = exec (decodeWrite e r data) { s with schedule := rest, program := p } := by
  have access : s.accessOf (.wr32 e r imm) = some (.regWrite 32 (Reg.offset e r) data) := by
    simp only [State.accessOf, hv, Option.map_some, BitVec.ofNat_toNat, BitVec.setWidth_eq]
  exact step_of_named hs hp access (decodeBus_regWrite e r data)

theorem step_of_named_wrb {b : Buffer} {k imm : Operand} {idx : Word64} {data : Byte}
    (hp : s.program = .named (.wrb b k imm) :: p) (hk : s.operand k = some idx.toNat)
    (hv : s.operand imm = some data.toNat) :
    step s = exec (.wrb b idx data) { s with schedule := rest, program := p } := by
  have access : s.accessOf (.wrb b k imm) = some (.bufWrite b idx data) := by
    simp only [State.accessOf, hk, hv, BitVec.ofNat_toNat, BitVec.setWidth_eq]
  exact step_of_named hs hp access rfl

theorem step_of_named_rdb {b : Buffer} {k : Operand} {x : Name} {idx : Word64}
    (hp : s.program = .named (.rdb b k x) :: p) (hk : s.operand k = some idx.toNat) :
    step s = exec (.rdb b idx)
      { s.bindName x (.byte (s.byteAt b idx.toNat)) with schedule := rest, program := p } := by
  have access : s.accessOf (.rdb b k x) = some (.bufRead b idx) := by
    simp only [State.accessOf, hk, Option.map_some, BitVec.ofNat_toNat, BitVec.setWidth_eq]
  have bound : s.bindRead (.rdb b k x) = s.bindName x (.byte (s.byteAt b idx.toNat)) := by
    simp only [State.bindRead, hk, BitVec.ofNat_toNat, BitVec.setWidth_eq]
  rw [← bound]
  exact step_of_named hs hp access rfl

end

/-- Settles O56: each operation with its operands' values, and the refusal where one has none. -/
theorem laterLinesUseTheBoundNames : Obligations.LaterLinesUseTheBoundNames :=
  fun _ _ _ hs => ⟨fun _ _ _ _ hp hv => step_of_named_wr32 hs hp hv,
    fun _ _ _ _ _ hp hk hv => step_of_named_wrb hs hp hk hv, fun _ _ _ _ hp hk => step_of_named_rdb hs hp hk,
    fun _ hp ha => step_of_unbound hs hp ha⟩

/-! ### The names that reads bind -/

/-- A name that was bound last stands for the value it was bound to. -/
theorem State.operand_of_names {s t : State} {x : Name} {v : ReadValue} (h : t.names = s.names.set x v) :
    t.operand (.name x) = some v.toNat := by
  rw [State.operand, h, Names.get_set_self]
  rfl

theorem sameNamesBut_of_names {s t : State} {x : Name} {v : ReadValue} (h : t.names = s.names.set x v) :
    SameNamesBut x s t := fun y hy => by
  rw [h, Names.get_set_ne _ _ _ _ hy]

/-- An index below a capacity is the value of its 64-bit field. -/
theorem ofNat_toNat_of_lt_cap {s : State} {b : Buffer} {n : Nat} (h : n < s.cap b) : (BitVec.ofNat 64 n).toNat = n := by
  have bound : s.cap b < 2 ^ 64 := (s.caps.get b).isLt
  rw [BitVec.toNat_ofNat, Nat.mod_eq_of_lt (by omega)]

/-- Settles O55: the read's value is bound before the read runs, which hands it over. -/
theorem namedReadBindsItsValue : Obligations.NamedReadBindsItsValue := by
  refine fun s rest p x hs => ⟨fun e r hp => ?word, fun b k n hp hk hn => ?byte⟩
  case word =>
    have names : (s.bindName x (.word (s.readReg e r))).names = s.names.set x (.word (s.readReg e r)) := rfl
    exact ⟨_, step_of_named_rd32 hs hp, State.operand_of_names names, sameNamesBut_of_names names, rfl⟩
  case byte =>
    have idx := ofNat_toNat_of_lt_cap hn
    have names : (s.bindName x (.byte (s.byteAt b n))).names = s.names.set x (.byte (s.byteAt b n)) := rfl
    have runs := step_of_named_rdb (idx := BitVec.ofNat 64 n) hs hp (by rw [idx]; exact hk)
    rw [idx, exec_rdb_of_lt (by rw [idx]; exact hn), idx] at runs
    exact ⟨_, runs, State.operand_of_names names, sameNamesBut_of_names names, rfl⟩

/-- Settles O57: a step leaves the names or binds the name its read gives. -/
theorem namesKeepTheirValues : Obligations.NamesKeepTheirValues := by
  refine ⟨fun s t x h changed => ?binds, fun s t wf h => ?canonical⟩
  case binds =>
    obtain same | ⟨i, u, y, v, host, ran, names, binds⟩ := step_names h
    · exact absurd (State.operand_congr same _) changed
    · by_cases hxy : x = y
      · exact ⟨host, i, u, ran, hxy ▸ binds⟩
      · refine absurd ?_ changed
        rw [State.operand, sameNamesBut_of_names names x hxy, State.operand]
  case canonical =>
    obtain same | ⟨_, _, y, v, _, _, names, _⟩ := step_names h
    · exact same ▸ wf
    · exact names ▸ Names.set_wf _ y v wf

/-! ### Accesses, POLL, EXPECT and the reset input -/

/-- An iteration of a POLL whose operands have values. -/
theorem fetchPoll_of_values {s : State} {e : Engine} {r : Reg} {mask value : Operand} {m v : Nat}
    (hm : (s.bindName pollName (.word (s.readReg e r))).operand mask = some m)
    (hv : (s.bindName pollName (.word (s.readReg e r))).operand value = some v) (p : List HostLine) :
    fetchPoll e r mask value p s = .instr (.rd32 e r) { s.bindName pollName (.word (s.readReg e r)) with
      program := if (s.readReg e r).toNat &&& m = v then p else s.program } := by
  simp only [fetchPoll, hm, hv]
  split <;> rfl

/-- Settles O34: an access runs its instruction, a POLL its read, and with no line left nothing runs. -/
theorem stepRunsTheHostsLine : Obligations.StepRunsTheHostsLine := by
  refine fun s rest hs => ⟨fun a i p hp hd => ?access, ?poll, fun hp => ?empty⟩
  case access =>
    have hp : ({ s with schedule := rest } : State).program = .access a :: p := hp
    rw [step_host hs, fetchHost_access hp, fetchAccess_of_ok hd]
  case poll =>
    intro e r mask value p hp t m v hm hv
    have hp : ({ s with schedule := rest } : State).program = .poll e r mask value :: p := hp
    have hm := (t.operand_with_schedule rest mask).trans hm
    have hv := (t.operand_with_schedule rest value).trans hv
    rw [step_host hs, fetchHost_poll hp, fetchPoll_of_values (s := { s with schedule := rest }) hm hv]
    rfl
  case empty =>
    have hp : ({ s with schedule := rest } : State).program = [] := hp
    rw [step_host hs, fetchHost, hp]

/-- EXPECT finds a conjunction: with all names bound it has a finding, which is whether each equation holds. -/
theorem expectHolds_of_bound {s : State} {equations : List (Operand × Operand)}
    (h : ∀ q ∈ equations, s.operand q.1 ≠ none ∧ s.operand q.2 ≠ none) :
    ∃ ok, s.expectHolds equations = some ok ∧ (ok = true ↔ ∀ q ∈ equations, s.operand q.1 = s.operand q.2) := by
  induction equations with
  | nil => exact ⟨true, rfl, by simp⟩
  | cons q rest ih =>
    obtain ⟨⟨left, right⟩, others⟩ := List.forall_mem_cons.mp h
    obtain ⟨x, hx⟩ := Option.ne_none_iff_exists'.mp left
    obtain ⟨y, hy⟩ := Option.ne_none_iff_exists'.mp right
    obtain ⟨ok, found, holds⟩ := ih others
    refine ⟨decide (x = y) && ok, by simp only [State.expectHolds, hx, hy, found], ?_⟩
    simp [hx, hy, holds]

theorem fetchHost_expect {s : State} {equations : List (Operand × Operand)} {p : List HostLine} {ok : Bool}
    (hp : s.program = .expect equations :: p) (found : s.expectHolds equations = some ok) :
    fetchHost s = .ended (.next { s with program := p, checks := ok :: s.checks }) := by
  unfold fetchHost
  rw [hp]
  dsimp only
  rw [found]

/-- Settles O58: the line is passed, and its finding is the conjunction's. -/
theorem expectHasNoEffectOnTheBlock : Obligations.ExpectHasNoEffectOnTheBlock := by
  intro s rest equations p hs hp bound
  obtain ⟨ok, found, holds⟩ := expectHolds_of_bound bound
  have hp : ({ s with schedule := rest } : State).program = .expect equations :: p := hp
  have found := (s.expectHolds_with_schedule rest equations).trans found
  exact ⟨ok, by rw [step_host hs, fetchHost_expect hp found], holds⟩

/-- Settles O38: the line is the reset input, and its state is a reset state of the same capacities. -/
theorem resetInputWinsOverEverything : Obligations.ResetInputWinsOverEverything := by
  intro s p rest hp hs
  have hp : ({ s with schedule := rest } : State).program = .reset :: p := hp
  refine ⟨({ s with schedule := rest, program := p } : State).applyReset, ?_, rfl, fun e => ?_, fun b k => ?_⟩
  · rw [step_host hs, fetchHost, hp]
  · cases e <;> exact ⟨Regs.statusWord_reset, rfl⟩
  · exact State.byteAt_of_unwritten (by rw [State.mem_applyReset]; rfl)

/-! ### LOAD -/

/-- Writing a byte and then the bytes after it is writing them all. -/
theorem State.setBytes_cons (s : State) (b : Buffer) (k : Nat) (v : Byte) (vs : List Byte) :
    s.setBytes b k (v :: vs) = (s.setByte b k v).setBytes b (k + 1) vs := by
  cases b <;> rfl

/-- The lines of a LOAD from index `k` on write their bytes there. -/
theorem run_loadLines {s : State} {b : Buffer} {k : Nat} {os : List Operand} {bs : List Byte} {p : List HostLine}
    {rest : List Agent} (idle : s.busy b.engine = false) (fits : k + bs.length ≤ s.cap b)
    (values : (os.map fun o => s.operand o) = bs.map fun v => some v.toNat)
    (hp : s.program = loadLines b k os ++ p) (hs : s.schedule = List.replicate bs.length .host ++ rest) :
    Host.Core.run Sys2Proof.core bs.length s = .next { s.setBytes b k bs with program := p, schedule := rest } := by
  induction bs generalizing s k os with
  | nil =>
    obtain rfl : os = [] := List.map_eq_nil_iff.mp values
    have hp : s.program = p := hp
    have hs : s.schedule = rest := hs
    rw [← hp, ← hs]
    cases b <;> rfl
  | cons v bs ih =>
    cases os with
    | nil => cases values
    | cons o os =>
      obtain ⟨value, values⟩ := List.cons.inj values
      rw [List.length_cons] at fits
      have inside : k < s.cap b := by omega
      have idx := ofNat_toNat_of_lt_cap inside
      let moved : State :=
        { s with schedule := List.replicate bs.length .host ++ rest, program := loadLines b (k + 1) os ++ p }
      have line : step s = .next (moved.setByte b k v) := by
        have runs : step s = exec (.wrb b (BitVec.ofNat 64 k) v) moved :=
          step_of_named_wrb hs hp (congrArg some idx.symm) value
        rw [runs, exec_wrb_of_lt (s := moved) idle (idx.trans_lt inside), idx]
      have names : (moved.setByte b k v).names = s.names := State.setByte_names moved b k v
      rw [List.length_cons, run_succ_of_step line, ih (os := os) (k := k + 1)]
      · rw [State.setBytes_cons]
        cases b <;> rfl
      · exact (State.busy_setMem moved b _ b.engine).trans idle
      · rw [State.cap_setByte]
        exact (by omega : k + 1 + bs.length ≤ s.cap b)
      · simpa only [State.operand_congr names] using values
      · exact State.setByte_program moved b k v
      · exact State.setByte_schedule moved b k v

/-- Settles O36: the lines run to their end, and what they leave is a write of all the bytes. -/
theorem loadFillsTheSourceBuffer : Obligations.LoadFillsTheSourceBuffer := by
  intro s e os bs p rest idle fits values hp hs
  have engine : (srcOf e).engine = e := by cases e <;> rfl
  have bytes (c : Buffer) (j : Nat) :
      ({ s.setBytes (srcOf e) 0 bs with program := p, schedule := rest } : State).byteAt c j =
        (s.setBytes (srcOf e) 0 bs).byteAt c j :=
    State.byteAt_congr (by cases c <;> rfl) rfl j
  obtain ⟨holds, others⟩ := holds_of_byteAt_setBytes bytes
  refine ⟨_, run_loadLines (by rwa [engine]) (by omega) values hp hs, holds, others, ?_⟩
  cases e <;> rfl

end Sys2Proof.Machine
end
